-- ==== Sys2Proof/Word.lean ====
section
/-! DEFINITION. The machine's two data widths (R64): 8 bits (a bus phase, a lane, P_DR) and 32 bits
(a Message, ACC, PB_ACC). Every quantity is unsigned (R223). -/

namespace Sys2Proof

/-- One bus phase's byte, one byte lane, one event code (R64, R96). -/
abbrev Byte := BitVec 8

/-- A Message, ACC or PB_ACC (R64, R91). -/
abbrev Word := BitVec 32

end Sys2Proof
end

