-- ==== Sys2Proof/Config.lean ====
section
/-! DEFINITION. The parameters rule R10 leaves open, each an opaque constant with no body (log 1): no
proof can learn its value, so a claim holds for every value R10 admits. The reference values
(REFCFG) are used by tests only. -/

namespace Sys2Proof

/-- The bit indices of the six named flags inside the 16-bit flags value (R92). -/
structure FlagMap where
  fwd : Fin 16
  rev : Fin 16
  blink : Fin 16
  opn : Fin 16
  close : Fin 16
  sound : Fin 16
  deriving DecidableEq, Repr

/-- The six indices are pairwise distinct (R10, R92). -/
abbrev FlagMap.Distinct (fm : FlagMap) : Prop :=
  [fm.fwd, fm.rev, fm.blink, fm.opn, fm.close, fm.sound].Nodup

/-- The spec's own reference assignment, for test vectors only (R92). -/
def FlagMap.refcfg : FlagMap :=
  { fwd := 15, rev := 14, blink := 13, opn := 12, close := 11, sound := 10 }

namespace Config

/-- A placing of all sixteen flag names on the sixteen positions. Every choice of six distinct
positions extends to one, so this is exactly R10's constraint on `F_FWD` … `F_SOUND`. -/
opaque flagPlace : Equiv.Perm (Fin 16)

/-- `F_FWD`, `F_REV`, `F_BLINK`, `F_OPEN`, `F_CLOSE`, `F_SOUND` (R10, D2). -/
def flagMap : FlagMap :=
  { fwd := flagPlace 0, rev := flagPlace 1, blink := flagPlace 2,
    opn := flagPlace 3, close := flagPlace 4, sound := flagPlace 5 }

/-- Which of the 127 admitted peripheral addresses the link was built with. -/
opaque slaIndex : Fin 127

/-- `SLA`, 1 to 127 (R10, D3): the constant a node is built with. -/
def sla : BitVec 7 := BitVec.ofNat 7 (slaIndex.val + 1)

/-- The 16 codes of R96, in the table's order. -/
def eventCodes : List Byte :=
  [0x08, 0x10, 0x18, 0x20, 0x28, 0x30, 0x38, 0x60, 0x68, 0x70, 0x78, 0x80, 0x88, 0x90, 0x98, 0xA0]

/-- Any 8-bit value; `evTimeout` keeps it unless it is a code of the table. -/
opaque timeoutDraw : Byte

/-- `EV_TIMEOUT`, any 8-bit value outside the 16 codes of R96 (R98, D4). -/
def evTimeout : Byte := if timeoutDraw ∈ eventCodes then 0xFF else timeoutDraw

/-- `P_DEADDRESS_ON_NACK` (R141, D21). -/
opaque pDeaddressOnNack : Bool

/-- `PB_IDLE_ABORT` (R174, D10). -/
opaque pbIdleAbort : Bool

end Config

end Sys2Proof
end

