-- ==== Sys2Proof/Syntax.lean ====
section
/-! DEFINITION. One constructor per row of spec/opcode_table.json (49 rows): the 24 host operations
(format HOSTOP, R101), the 17 event codes (format EVT, R96, R98), the 5 handler branches (format IRQ,
R180) and the 3 data formats (MSG R91, ADDR R94, FRAME R93). What each row does as a step of the
machine is said at its meaning; for the EVT rows and the data formats see log 7 and log 8. -/

namespace Sys2Proof

/-- The five formats of R90, with the handler branches' own selection (R101's last paragraph) beside
EVT: the branch is selected by an EVT value together with the guard on CNT. -/
inductive Format
  | hostop
  | evt
  | irq
  | msg
  | addr
  | frame
  deriving DecidableEq, Repr

/-- An operation of the block (R4). -/
inductive Instr
  -- HOSTOP 0x01 to 0x18 (R101)
  | initController (busHz : Word)
  | initPeripheral (sla : BitVec 7)
  | beginAsController (write : Bool)
  | writeByte (b : Byte)
  | readByte (sendAck : Bool)
  | endTransaction
  | pollEvent (timeout : Word)
  | rearm (ack : Bool)
  | send (message : Word)
  | receiveBlocking
  | enableAsync (callback : Byte)
  | disableAsync
  | messageReady
  | takeMessage
  | irqDisable
  | irqRestore (s : Bool)
  | build (flags : BitVec 16)
  | buildWithAux (flags : BitVec 16) (aux : Byte)
  | isValid (message : Word)
  | parity31 (w : Word)
  | getFlags (m : Word)
  | getAux (m : Word)
  | hasFlag (m : Word) (i : BitVec 4)
  | dispatch (m : Word)
  -- EVT (R96, R98)
  | evStart
  | evRstart
  | evSlawAck
  | evSlawNack
  | evTxdAck
  | evTxdNack
  | evArbLost
  | evOwnMatch
  | evOwnMatchArb
  | evGcMatch
  | evGcMatchArb
  | evRxdAckOwn (d : Byte)
  | evRxdNackOwn (d : Byte)
  | evRxdAckGc (d : Byte)
  | evRxdNackGc (d : Byte)
  | evStopRs
  | evTimeout
  -- IRQ (R180 to R186)
  | irqAddrMatch (g a : Bool)
  | irqDataAck (g : Bool)
  | irqDataNack (g : Bool)
  | irqStop
  | irqOther (code : Byte)
  -- data formats (R91, R94, R93)
  /-- `rp` is the row's low twelve bits: the reserved bits r and the parity bit p -/
  | msg (f : BitVec 16) (a : BitVec 4) (rp : BitVec 12)
  | addr (a : BitVec 7) (w : Bool)
  | frame (a : BitVec 7) (m : Word)
  deriving DecidableEq, Repr

/-- The format a row is encoded in (the table's "format"). -/
def Instr.format : Instr → Format
  | .initController _ => .hostop
  | .initPeripheral _ => .hostop
  | .beginAsController _ => .hostop
  | .writeByte _ => .hostop
  | .readByte _ => .hostop
  | .endTransaction => .hostop
  | .pollEvent _ => .hostop
  | .rearm _ => .hostop
  | .send _ => .hostop
  | .receiveBlocking => .hostop
  | .enableAsync _ => .hostop
  | .disableAsync => .hostop
  | .messageReady => .hostop
  | .takeMessage => .hostop
  | .irqDisable => .hostop
  | .irqRestore _ => .hostop
  | .build _ => .hostop
  | .buildWithAux _ _ => .hostop
  | .isValid _ => .hostop
  | .parity31 _ => .hostop
  | .getFlags _ => .hostop
  | .getAux _ => .hostop
  | .hasFlag _ _ => .hostop
  | .dispatch _ => .hostop
  | .evStart => .evt
  | .evRstart => .evt
  | .evSlawAck => .evt
  | .evSlawNack => .evt
  | .evTxdAck => .evt
  | .evTxdNack => .evt
  | .evArbLost => .evt
  | .evOwnMatch => .evt
  | .evOwnMatchArb => .evt
  | .evGcMatch => .evt
  | .evGcMatchArb => .evt
  | .evRxdAckOwn _ => .evt
  | .evRxdNackOwn _ => .evt
  | .evRxdAckGc _ => .evt
  | .evRxdNackGc _ => .evt
  | .evStopRs => .evt
  | .evTimeout => .evt
  | .irqAddrMatch _ _ => .irq
  | .irqDataAck _ => .irq
  | .irqDataNack _ => .irq
  | .irqStop => .irq
  | .irqOther _ => .irq
  | .msg _ _ _ => .msg
  | .addr _ _ => .addr
  | .frame _ _ => .frame

end Sys2Proof
end

