-- ==== Sys2Proof/WellFormed.lean ====
section
/-! DEFINITION. Which terms of Instr are operations: the range the spec gives and the operand's type is wider
than. -/

namespace Sys2Proof

/-- The default handler branch never carries a code an earlier branch takes whatever CNT is (R180, R186).
Every other operand has its range as its type (`sla` 7 bits, R231; `i` 0 to 15, R220) and takes every
value of it. -/
def WellFormed : Instr → Bool
  | .initController _ => true
  | .initPeripheral _ => true
  | .beginAsController _ => true
  | .writeByte _ => true
  | .readByte _ => true
  | .endTransaction => true
  | .pollEvent _ => true
  | .rearm _ => true
  | .send _ => true
  | .receiveBlocking => true
  | .enableAsync _ => true
  | .disableAsync => true
  | .messageReady => true
  | .takeMessage => true
  | .irqDisable => true
  | .irqRestore _ => true
  | .build _ => true
  | .buildWithAux _ _ => true
  | .isValid _ => true
  | .parity31 _ => true
  | .getFlags _ => true
  | .getAux _ => true
  | .hasFlag _ _ => true
  | .dispatch _ => true
  | .evStart => true
  | .evRstart => true
  | .evSlawAck => true
  | .evSlawNack => true
  | .evTxdAck => true
  | .evTxdNack => true
  | .evArbLost => true
  | .evOwnMatch => true
  | .evOwnMatchArb => true
  | .evGcMatch => true
  | .evGcMatchArb => true
  | .evRxdAckOwn _ => true
  | .evRxdNackOwn _ => true
  | .evRxdAckGc _ => true
  | .evRxdNackGc _ => true
  | .evStopRs => true
  | .evTimeout => true
  | .irqAddrMatch _ _ => true
  | .irqDataAck _ => true
  | .irqDataNack _ => true
  | .irqStop => true
  | .irqOther code => !(code == 0x60 || code == 0x68 || code == 0x70 || code == 0x78 || code == 0xA0)
  | .msg _ _ _ => true
  | .addr _ _ => true
  | .frame _ _ => true

end Sys2Proof
end

