-- ==== Sys2Proof/Decode.lean ====
section
/-! DEFINITION. From bytes to an operation, and back. The selector byte is R101's OPSEL, the event code
R96's; the operands follow the selector, least-significant byte first, in the widths of R101 and
R13 (log 5: the spec fixes their order and widths, not a byte layout). Decoding is total on any
list of bytes and rejects by name. -/

namespace Sys2Proof

/-- Why bytes are no operation. -/
inductive DecodeError
  /-- a HOSTOP value outside R101 (R104 (e)) -/
  | unknownOperation
  /-- fewer operand bytes than the operation has -/
  | truncated
  /-- an operand byte outside the operand's type: `sla` above 127, `i` above 15, a truth value that is neither
  0 nor 1 -/
  | badOperand
  /-- a FRAME whose address byte has the read bit (R104 (d)) -/
  | readDirection
  /-- an EVT value that is no row of the table (R99): no operation, but ENV may present it (R143) -/
  | unlistedEvent
  deriving DecidableEq, Repr

/-- An operation together with the bytes after it. -/
abbrev Decoded := Except DecodeError (Instr × List Byte)

/-- Four bytes, least-significant first, as a word (R62). -/
def word4 (b0 b1 b2 b3 : Byte) : Word := b3 ++ b2 ++ b1 ++ b0

/-- Byte `i` of a word: `w[8i+7:8i]` (R62). -/
def wordByte (w : Word) (i : Nat) : Byte := w.extractLsb' (8 * i) 8

/-- The four bytes of a word, least-significant first (R62). -/
def wordBytes (w : Word) : List Byte := [wordByte w 0, wordByte w 1, wordByte w 2, wordByte w 3]

/-- The two bytes of a 16-bit operand, least-significant first. -/
def halfBytes (v : BitVec 16) : List Byte := [v.extractLsb' 0 8, v.extractLsb' 8 8]

/-- A truth value as a byte. -/
def boolByte (v : Bool) : Byte := if v then 1 else 0

/-- Read a one-byte operand. -/
def readByteOp (bs : List Byte) (k : Byte → Instr) : Decoded :=
  match bs with
  | b :: r => .ok (k b, r)
  | [] => .error .truncated

/-- Read a truth value: 0 or 1. -/
def readBoolOp (bs : List Byte) (k : Bool → Instr) : Decoded :=
  match bs with
  | b :: r => if b = 0 then .ok (k false, r) else if b = 1 then .ok (k true, r) else .error .badOperand
  | [] => .error .truncated

/-- Read a 16-bit operand. -/
def readHalfOp (bs : List Byte) (k : BitVec 16 → Instr) : Decoded :=
  match bs with
  | b0 :: b1 :: r => .ok (k (b1 ++ b0), r)
  | _ => .error .truncated

/-- Read a 16-bit operand and a byte. -/
def readHalfByteOp (bs : List Byte) (k : BitVec 16 → Byte → Instr) : Decoded :=
  match bs with
  | b0 :: b1 :: b2 :: r => .ok (k (b1 ++ b0) b2, r)
  | _ => .error .truncated

/-- Read a 32-bit operand. -/
def readWordOp (bs : List Byte) (k : Word → Instr) : Decoded :=
  match bs with
  | b0 :: b1 :: b2 :: b3 :: r => .ok (k (word4 b0 b1 b2 b3), r)
  | _ => .error .truncated

/-- Read a 7-bit operand from a byte. -/
def readSevenOp (bs : List Byte) (k : BitVec 7 → Instr) : Decoded :=
  match bs with
  | b :: r => if b.toNat < 128 then .ok (k (b.setWidth 7), r) else .error .badOperand
  | [] => .error .truncated

/-- Read a 32-bit operand and a 4-bit operand from a byte. -/
def readWordNibbleOp (bs : List Byte) (k : Word → BitVec 4 → Instr) : Decoded :=
  match bs with
  | b0 :: b1 :: b2 :: b3 :: b4 :: r =>
    if b4.toNat < 16 then .ok (k (word4 b0 b1 b2 b3) (b4.setWidth 4), r) else .error .badOperand
  | _ => .error .truncated

/-- The host operation a HOSTOP selector names (R101); any other value is no operation (R104 (e)). -/
def decodeSelector (op : Nat) (bs : List Byte) : Decoded :=
  match op with
  | 0x01 => readWordOp bs .initController
  | 0x02 => readSevenOp bs .initPeripheral
  | 0x03 => readBoolOp bs .beginAsController
  | 0x04 => readByteOp bs .writeByte
  | 0x05 => readBoolOp bs .readByte
  | 0x06 => .ok (.endTransaction, bs)
  | 0x07 => readWordOp bs .pollEvent
  | 0x08 => readBoolOp bs .rearm
  | 0x09 => readWordOp bs .send
  | 0x0A => .ok (.receiveBlocking, bs)
  | 0x0B => readByteOp bs .enableAsync
  | 0x0C => .ok (.disableAsync, bs)
  | 0x0D => .ok (.messageReady, bs)
  | 0x0E => .ok (.takeMessage, bs)
  | 0x0F => .ok (.irqDisable, bs)
  | 0x10 => readBoolOp bs .irqRestore
  | 0x11 => readHalfOp bs .build
  | 0x12 => readHalfByteOp bs .buildWithAux
  | 0x13 => readWordOp bs .isValid
  | 0x14 => readWordOp bs .parity31
  | 0x15 => readWordOp bs .getFlags
  | 0x16 => readWordOp bs .getAux
  | 0x17 => readWordNibbleOp bs .hasFlag
  | 0x18 => readWordOp bs .dispatch
  | _ => .error .unknownOperation

/-- Format HOSTOP (R101). -/
def decodeHostop (bs : List Byte) : Decoded :=
  match bs with
  | op :: r => decodeSelector op.toNat r
  | [] => .error .truncated

/-- Format EVT, compared on all 8 bits (R96, R99): the sixteen rows, then the timeout code (R98). A
received-data event carries the data byte of R143's `inject(c, d)` after it. -/
def decodeEvent (c : Byte) (bs : List Byte) : Decoded :=
  match c.toNat with
  | 0x08 => .ok (.evStart, bs)
  | 0x10 => .ok (.evRstart, bs)
  | 0x18 => .ok (.evSlawAck, bs)
  | 0x20 => .ok (.evSlawNack, bs)
  | 0x28 => .ok (.evTxdAck, bs)
  | 0x30 => .ok (.evTxdNack, bs)
  | 0x38 => .ok (.evArbLost, bs)
  | 0x60 => .ok (.evOwnMatch, bs)
  | 0x68 => .ok (.evOwnMatchArb, bs)
  | 0x70 => .ok (.evGcMatch, bs)
  | 0x78 => .ok (.evGcMatchArb, bs)
  | 0x80 => readByteOp bs .evRxdAckOwn
  | 0x88 => readByteOp bs .evRxdNackOwn
  | 0x90 => readByteOp bs .evRxdAckGc
  | 0x98 => readByteOp bs .evRxdNackGc
  | 0xA0 => .ok (.evStopRs, bs)
  | _ => if c = Config.evTimeout then .ok (.evTimeout, bs) else .error .unlistedEvent

/-- Format EVT from bytes. -/
def decodeEvt (bs : List Byte) : Decoded :=
  match bs with
  | c :: r => decodeEvent c r
  | [] => .error .truncated

/-- The handler branch code `c` selects while the byte counter is `cnt`, tried in R180's order with
the guards of R183 and R184. Total: the last row takes every remaining value (R186). -/
def irqBranch (cnt : BitVec 3) (c : Byte) : Instr :=
  if c &&& 0xE7 = 0x60 then .irqAddrMatch (c.getLsbD 4) (c.getLsbD 3)
  else if c &&& 0xEF = 0x80 ∧ cnt.toNat < 3 then .irqDataAck (c.getLsbD 4)
  else if c &&& 0xEF = 0x88 ∧ cnt.toNat < 4 then .irqDataNack (c.getLsbD 4)
  else if c = 0xA0 then .irqStop
  else .irqOther c

/-- Format IRQ from bytes, while the byte counter is `cnt`. -/
def decodeIrq (cnt : BitVec 3) (bs : List Byte) : Decoded :=
  match bs with
  | c :: r => .ok (irqBranch cnt c, r)
  | [] => .error .truncated

/-- Format MSG (R91): every word is one; reserved bits that are set are carried like any others (R104 (a)). -/
def decodeMsg (bs : List Byte) : Decoded :=
  match bs with
  | b0 :: b1 :: b2 :: b3 :: r =>
    let w := word4 b0 b1 b2 b3
    .ok (.msg (w.extractLsb' 16 16) (w.extractLsb' 12 4) (w.extractLsb' 0 12), r)
  | _ => .error .truncated

/-- Format ADDR (R94): bits 7 to 1 the address, bit 0 the direction. -/
def decodeAddr (bs : List Byte) : Decoded :=
  match bs with
  | b :: r => .ok (.addr (b.extractLsb' 1 7) (b.getLsbD 0), r)
  | [] => .error .truncated

/-- Format FRAME (R93): the address byte, whose direction bit is 0, and the four payload bytes. -/
def decodeFrame (bs : List Byte) : Decoded :=
  match bs with
  | a :: b0 :: b1 :: b2 :: b3 :: r =>
    if a.getLsbD 0 then .error .readDirection
    else .ok (.frame (a.extractLsb' 1 7) (word4 b0 b1 b2 b3), r)
  | _ => .error .truncated

/-- The decoder. `cnt` is read by the handler's formats only (R180's guards). -/
def decode (f : Format) (cnt : BitVec 3) (bs : List Byte) : Decoded :=
  match f with
  | .hostop => decodeHostop bs
  | .evt => decodeEvt bs
  | .irq => decodeIrq cnt bs
  | .msg => decodeMsg bs
  | .addr => decodeAddr bs
  | .frame => decodeFrame bs

/-- The address byte of R94: `aaaaaaaw`. -/
def addrByte (a : BitVec 7) (w : Bool) : Byte := a ++ BitVec.ofBool w

/-- The Message word of R91: flags, aux, and the reserved bits with the parity bit. -/
def msgWord (f : BitVec 16) (a : BitVec 4) (rp : BitVec 12) : Word := f ++ a ++ rp

/-- The codes of `011ga000` (R181). -/
def addrMatchCode (g a : Bool) : Byte := (0b011 : BitVec 3) ++ BitVec.ofBool g ++ BitVec.ofBool a ++ (0 : BitVec 3)

/-- The codes of `100g0000` (R183). -/
def dataAckCode (g : Bool) : Byte := (0b100 : BitVec 3) ++ BitVec.ofBool g ++ (0b0000 : BitVec 4)

/-- The codes of `100g1000` (R184). -/
def dataNackCode (g : Bool) : Byte := (0b100 : BitVec 3) ++ BitVec.ofBool g ++ (0b1000 : BitVec 4)

/-- The bytes of an operation in its own format. -/
def encode : Instr → List Byte
  | .initController busHz => 0x01 :: wordBytes busHz
  | .initPeripheral sla => [0x02, sla.setWidth 8]
  | .beginAsController write => [0x03, boolByte write]
  | .writeByte b => [0x04, b]
  | .readByte sendAck => [0x05, boolByte sendAck]
  | .endTransaction => [0x06]
  | .pollEvent timeout => 0x07 :: wordBytes timeout
  | .rearm ack => [0x08, boolByte ack]
  | .send message => 0x09 :: wordBytes message
  | .receiveBlocking => [0x0A]
  | .enableAsync callback => [0x0B, callback]
  | .disableAsync => [0x0C]
  | .messageReady => [0x0D]
  | .takeMessage => [0x0E]
  | .irqDisable => [0x0F]
  | .irqRestore s => [0x10, boolByte s]
  | .build flags => 0x11 :: halfBytes flags
  | .buildWithAux flags aux => 0x12 :: (halfBytes flags ++ [aux])
  | .isValid message => 0x13 :: wordBytes message
  | .parity31 w => 0x14 :: wordBytes w
  | .getFlags m => 0x15 :: wordBytes m
  | .getAux m => 0x16 :: wordBytes m
  | .hasFlag m i => 0x17 :: (wordBytes m ++ [i.setWidth 8])
  | .dispatch m => 0x18 :: wordBytes m
  | .evStart => [0x08]
  | .evRstart => [0x10]
  | .evSlawAck => [0x18]
  | .evSlawNack => [0x20]
  | .evTxdAck => [0x28]
  | .evTxdNack => [0x30]
  | .evArbLost => [0x38]
  | .evOwnMatch => [0x60]
  | .evOwnMatchArb => [0x68]
  | .evGcMatch => [0x70]
  | .evGcMatchArb => [0x78]
  | .evRxdAckOwn d => [0x80, d]
  | .evRxdNackOwn d => [0x88, d]
  | .evRxdAckGc d => [0x90, d]
  | .evRxdNackGc d => [0x98, d]
  | .evStopRs => [0xA0]
  | .evTimeout => [Config.evTimeout]
  | .irqAddrMatch g a => [addrMatchCode g a]
  | .irqDataAck g => [dataAckCode g]
  | .irqDataNack g => [dataNackCode g]
  | .irqStop => [0xA0]
  | .irqOther code => [code]
  | .msg f a rp => wordBytes (msgWord f a rp)
  | .addr a w => [addrByte a w]
  | .frame a m => addrByte a false :: wordBytes m

/-- Which format a table row of `nbits` bits with value `w` is read in (log 6). The table's 8-bit
formats overlap: 0x08, 0x10 and 0x18 are rows of HOSTOP and of EVT, and 0x60, 0x80, 0x88 and 0xA0
rows of EVT and of IRQ. HOSTOP is tried first, then the four IRQ rows with their don't-care bits
zero, then EVT's other rows; every other byte is the handler's default row. -/
def tableFormat (nbits w : Nat) : Option Format :=
  if nbits = 8 then
    let c := w % 256
    if 0x01 ≤ c ∧ c ≤ 0x18 then some .hostop
    else if c = 0x60 ∨ c = 0x80 ∨ c = 0x88 ∨ c = 0xA0 then some .irq
    else if BitVec.ofNat 8 c ∈ Config.eventCodes then some .evt
    else some .irq
  else if nbits = 32 then some .msg
  else none

/-- The bytes of `w`, least-significant first, up to the longest operation (6 bytes). -/
def tableBytes (w : Nat) : List Byte :=
  [BitVec.ofNat 8 w, BitVec.ofNat 8 (w / 0x100), BitVec.ofNat 8 (w / 0x10000),
    BitVec.ofNat 8 (w / 0x1000000), BitVec.ofNat 8 (w / 0x100000000), BitVec.ofNat 8 (w / 0x10000000000)]

/-- The operation the decoder reads from a table row's bits: a byte counter of 0 stands for the
handler's guards. -/
def decodeTableWord (nbits w : Nat) : Option Instr :=
  match tableFormat nbits w with
  | some f =>
    match decode f 0 (tableBytes (w % 2 ^ nbits)) with
    | .ok (i, _) => some i
    | .error _ => none
  | none => none

end Sys2Proof
end

