-- ==== Sys2Proof/Machine/State.lean ====
section
/-! DEFINITION. The state of the two-node system as plain data (R20): every register of 10_state.md,
once per node, the two observation histories, and the model's own fields that hold what the spec calls
inputs and control (R4, R12, R16): the operation a main program is inside, the calls it has still to
make, the codes ENV has given, the phases a foreign controller has still to put on the bus, the host's
callback functions, results, and the order of turns. INVENTORY.md lists every field with its rule. -/

namespace Sys2Proof.Machine

/-- Why the machine stops with a fault. It has no case: "Nothing in this core is
fatal/process-terminating" (R240), every abnormal condition is a returned value (R241 to R245), so no
meaning ever answers a fault. -/
inductive Fault
  deriving DecidableEq, Repr

/-- Calls the model gives no meaning, each by name: R247's closed list, and `notModelled`. A refused call changes no state (R253). All are safe: they err toward unprovable (R247). -/
inductive Refusal
  /-- An instruction without a meaning yet; raised by an arm of `exec` only. Safe. -/
  | notModelled (mnemonic : String)
  /-- R21: an operation called in another role than the one its rule names. Raised by every operation
  with a role. Safe. -/
  | wrongRole
  /-- R51: a stateful operation with ROLE = NONE. Raised by every operation with a role. Safe. -/
  | notConfigured
  /-- R124, R104 (d): `begin_as_controller(false)`, `read_byte` as controller, an address byte with the read
  bit. Safe. -/
  | readDirection
  /-- R121: a controller operation in a C_STATE that does not accept it. Raised by
  `begin_as_controller`, `write_byte` and `send`. Safe. -/
  | badControllerState
  /-- R199: `poll_event`, `read_byte`, `receive_blocking` with ASYNC_EN = 1. Safe. -/
  | pollWhileAsync
  /-- R197: an operation the callback may not call, called with CTX = IRQ. Safe. -/
  | blockingInHandler
  /-- R290: a main-context access to CNT, ACC, DONE, CB or FIRED other than through the operations. No
  operation of R101 makes one, so nothing raises it: the access cannot be written down (R73). Safe. -/
  | unprotectedAccess
  /-- R231: `init_peripheral(0)`. Safe. -/
  | badAddress
  /-- R233: Link Configuration repeated while a transaction is open, or to change role. Safe. -/
  | reinitBusy
  /-- R104 (e): what is no operation of R101. Raised by the fetch of a call whose bytes are none (log 5), and
  by a callback whose list holds something that is no host operation. Safe. -/
  | unknownOperation
  deriving DecidableEq, Repr

/-- ROLE (R21). -/
inductive Role
  | none
  | controller
  | peripheral
  deriving DecidableEq, Repr

/-- C_STATE (R22). -/
inductive CState
  | idle
  | start
  | address
  | data
  | stop
  | error
  deriving DecidableEq, Repr

/-- P_STATE (R25). -/
inductive PState
  | idle
  | addressed
  deriving DecidableEq, Repr

/-- CTX (R36). -/
inductive Ctx
  | main
  | irq
  deriving DecidableEq, Repr

/-- R15's two compositions: the other end of a node's bus is the other node, or ENV. -/
inductive Composition
  | closed
  | openBus
  deriving DecidableEq, Repr

/-- The two nodes of the system (R14, R272). Which is the controller is said by ROLE, not by the name. -/
inductive NodeId
  | a
  | b
  deriving DecidableEq, Repr

/-- The other node. -/
def NodeId.other : NodeId → NodeId
  | .a => .b
  | .b => .a

/-- A symbol of WIRE (R52): start, repeated start, address byte, data byte, stop; `k` is the
acknowledge bit. -/
inductive Sym
  | S
  | Sr
  | A (b : Byte) (k : Bool)
  | D (b : Byte) (k : Bool)
  | P
  deriving DecidableEq, Repr

/-- `SendError` (R13, R242): the index is 0 to 3. -/
inductive SendError
  | addressNotAcknowledged (code : Byte)
  | byteNotAcknowledged (index : BitVec 2)
  deriving DecidableEq, Repr

/-- What an operation returns, in the types of R13; `sent none` is `Ok`, `optMessage none` is `NoMessage`
(R103: typed values, no numbers). -/
inductive Result
  | unit
  | code (c : Byte)
  | byte (b : Byte)
  | bool (v : Bool)
  | bit (v : Bool)
  | flags (f : BitVec 16)
  | aux (a : BitVec 4)
  | message (m : Word)
  | optMessage (m : Option Word)
  | sent (e : Option SendError)
  deriving DecidableEq, Repr

/-- The host call a controller's bus phase belongs to: a call of its own, or `send(m)` (R160). -/
inductive CTask
  | call
  | send (m : Word)
  deriving DecidableEq, Repr

/-- The operation a node's main program is inside, with the point it waits at (R4: the program counter
is the phase registers and the byte index of a sequencer): before the start, address, data or stop
phase (R134), in `read_byte`'s wait (R131), in a poll (R132), in the poll of stage 1 or 2 of
`receive_blocking` (R170), or between that poll's expiry and the `rearm(1)` that services it. -/
inductive Busy
  | idle
  | atStart (t : CTask) (repeated : Bool)
  | atAddress (t : CTask)
  | atData (t : CTask) (b : Byte)
  | atStop (r : Result)
  | readByte
  | pollEvent (timeout : Word)
  | recvAddress
  | recvAddressExpired
  | recvData
  | recvDataExpired
  deriving DecidableEq, Repr

/-- A bus phase a foreign controller (ENV, R14) is to put on the bus. An address goes with the write bit: with
the read bit it is refused (R104 (d)). -/
inductive Phase
  | start
  | address (a : BitVec 7)
  | data (b : Byte)
  | stop
  deriving DecidableEq, Repr

/-- A callback body (R10, R196): a host function of one Message, given by the operations of the block
it calls, listed for the messages named and otherwise (log 10). -/
structure HostFn where
  cases : List (Word × List Instr)
  otherwise : List Instr
  deriving DecidableEq, Repr

/-- One I2ES CORE instance with its host program (R20). -/
structure Node where
  /-- ROLE, R21. -/
  role : Role
  /-- SLA, R50, R231: the constant the node was built with until `init_peripheral` latches its operand. -/
  sla : BitVec 7
  /-- BUS_HZ, R230. -/
  busHz : Word
  /-- C_STATE, R22. -/
  cState : CState
  /-- C_OWN, R23. -/
  cOwn : Bool
  /-- CS_I, R24 (log 24). -/
  csI : BitVec 3
  /-- P_STATE, R25. -/
  pState : PState
  /-- P_GC, R25. -/
  pGc : Bool
  /-- P_ACKEN, R26. -/
  pAcken : Bool
  /-- P_EVT, R27. -/
  pEvt : Option Byte
  /-- P_DR, R28. -/
  pDr : Byte
  /-- ASYNC_EN, R29. -/
  asyncEn : Bool
  /-- IE, R30. -/
  ie : Bool
  /-- CTX, R36. -/
  ctx : Ctx
  /-- CNT, R31. -/
  cnt : BitVec 3
  /-- ACC, R32. -/
  acc : Word
  /-- DONE, R33. -/
  done : Bool
  /-- CB, R34: a reference to one of the host's functions. -/
  cb : Option Byte
  /-- FIRED, R35. -/
  fired : Bool
  /-- PB_I, R37 (log 24). -/
  pbI : BitVec 3
  /-- PB_ACC, R37 (log 24). -/
  pbAcc : Word
  /-- Model: the operation the main program is inside. -/
  busy : Busy
  /-- Model: what the last completed main-context operation returned. -/
  ret : Result
  /-- Model: what the last operation called in interrupt context returned. -/
  cbRet : Result
  /-- Model: the calls the main program has still to make, as bytes. -/
  prog : List (List Byte)
  /-- Model: the host's functions, by reference. -/
  fns : List HostFn
  /-- Model: the answer codes ENV has given and no phase has used yet (R120). -/
  answers : List Byte
  /-- Model: the phases a foreign controller has still to put on this node's bus. -/
  foreign : List Phase
  deriving DecidableEq, Repr

/-- What ENV may present to a node: an event code (R120, R143), or a foreign controller's address
phase, payload or whole transaction. -/
inductive EnvFormat
  | evt
  | msg
  | addr
  | frame
  deriving DecidableEq, Repr

/-- Which agent moves (R14, R16: the schedule): a node's main program, a node's interrupt context, ENV
presenting bytes to a node, ENV injecting any code at all (R143), a foreign controller going on with its
phases at a node. -/
inductive Turn
  | main (n : NodeId)
  | irq (n : NodeId)
  | env (n : NodeId) (f : EnvFormat) (bytes : List Byte)
  | inject (n : NodeId) (c d : Byte)
  | foreign (n : NodeId)
  deriving DecidableEq, Repr

/-- The system state (R20). -/
structure State where
  /-- Node A. -/
  a : Node
  /-- Node B. -/
  b : Node
  /-- WIRE, R52, oldest first. -/
  wire : List Sym
  /-- CBLOG, R53, oldest first. -/
  cblog : List Word
  /-- Model: R15's composition. -/
  comp : Composition
  /-- Model: the order in which agents move. -/
  sched : List Turn
  /-- Model: the node whose agent moves. -/
  cur : NodeId
  deriving DecidableEq, Repr

/-- A node before Link Configuration (R51, R281): ROLE = NONE, every register at the reset value its
own rule states (R22 to R36), the registers with none at 0 (log 2), SLA the build's constant (log 3). -/
def Node.reset : Node :=
  { role := .none, sla := Config.sla, busHz := 0,
    cState := .idle, cOwn := false, csI := 0,
    pState := .idle, pGc := false, pAcken := true, pEvt := none, pDr := 0,
    asyncEn := false, ie := false, ctx := .main,
    cnt := 0, acc := 0, done := false, cb := none, fired := false,
    pbI := 0, pbAcc := 0,
    busy := .idle, ret := .unit, cbRet := .unit, prog := [], fns := [], answers := [], foreign := [] }

/-- The launch state (R281): both nodes unconfigured, WIRE and CBLOG empty, CTX = MAIN on both, no
turn scheduled (log 4). -/
def State.reset : State :=
  { a := Node.reset, b := Node.reset, wire := [], cblog := [], comp := .closed, sched := [], cur := .a }

end Sys2Proof.Machine
end

