-- ==== Sys2Proof/Machine/Operands.lean ====
section
/-! DEFINITION. Operands: the byte lanes of ACC and PB_ACC (R12, R60, R182), how a word is taken apart
and put together (R62, R102), the address bytes (R94) and the classes of event codes (R97). -/

namespace Sys2Proof.Machine

/-- `MemRead(i, 1)`: byte lane `i` (R12), `acc[8i+7:8i]`. -/
def lane (acc : Word) (i : Nat) : Byte := wordByte acc i

/-- `MemWrite(i, 1, b)`: replace byte lane `i` and leave the other lanes unchanged (R12, R182). -/
def setLane (acc : Word) (i : Nat) (b : Byte) : Word :=
  (acc &&& ~~~((0xFF : Word) <<< (8 * i))) ||| (b.setWidth 32 <<< (8 * i))

/-- The byte `send` writes at index `i`: `message[8i+7:8i]` (R102, R160). -/
def payloadByte (m : Word) (i : BitVec 3) : Byte := wordByte m i.toNat

/-- The word with `flags` in bits 31 to 16, `aux & 0xF` in bits 15 to 12 and zero below (R102). -/
def unsignedWord (flags : BitVec 16) (aux : Byte) : Word :=
  (flags.setWidth 32 <<< 16) ||| ((aux &&& 0xF).setWidth 32 <<< 12)

/-- `get_flags(m) = m[31:16]` (R220). -/
def flagsOf (m : Word) : BitVec 16 := m.extractLsb' 16 16

/-- `get_aux(m) = m[15:12]` (R220). -/
def auxOf (m : Word) : BitVec 4 := m.extractLsb' 12 4

/-- `has_flag(m, i) = (m[16 + i] = 1)` (R220). -/
def flagAt (m : Word) (i : Nat) : Bool := m.getLsbD (16 + i)

/-- `SLA_W`: the address byte with the direction bit 0 (R94). -/
def slaW (sla : BitVec 7) : Byte := addrByte sla false

/-- `SLA_R`: the address byte with the direction bit 1 (R94). -/
def slaR (sla : BitVec 7) : Byte := addrByte sla true

/-- `GC_W`: the general-call address byte (R94). -/
def gcW : Byte := 0x00

/-- `ADDR_MATCH` (R97). -/
def isAddrMatch (c : Byte) : Bool := c == 0x60 || c == 0x68 || c == 0x70 || c == 0x78

/-- `DATA_RX_ACK` (R97). -/
def isDataRxAck (c : Byte) : Bool := c == 0x80 || c == 0x90

/-- `DATA_RX_NACK` (R97). -/
def isDataRxNack (c : Byte) : Bool := c == 0x88 || c == 0x98

/-- `DATA_RX` (R97). -/
def isDataRx (c : Byte) : Bool := isDataRxAck c || isDataRxNack c

/-- `START_OK` (R97). -/
def isStartOk (c : Byte) : Bool := c == 0x08 || c == 0x10

/-- The calls a callback body makes on message `m` (R196): the first case that names `m`, else the
others'. -/
def HostFn.calls (f : HostFn) (m : Word) : List Instr :=
  match f.cases.find? (fun p => p.1 == m) with
  | some p => p.2
  | none => f.otherwise

/-- The host function a reference names; one the host does not define calls nothing of the block. -/
def Node.hostFn (n : Node) (f : Byte) : HostFn :=
  (n.fns[f.toNat]?).getD { cases := [], otherwise := [] }

end Sys2Proof.Machine
end

