-- ==== Sys2Proof/Machine/Flags.lean ====
section
/-! DEFINITION. What is computed from bits: the parity of a word (R210), the two flag predicates (R213)
and the validator (R215). The block has no arithmetic condition codes (R39); its status bits DONE,
FIRED, C_OWN, P_ACKEN, ASYNC_EN and IE are written by the operations themselves. -/

namespace Sys2Proof.Machine

/-- `parity31(w)` (R210): mask bit 0, fold by 16, 8, 4, 2 and 1, take bit 0. -/
def parity31 (w : Word) : Bool :=
  let p := w &&& 0xFFFFFFFE
  let p := p ^^^ (p >>> 16)
  let p := p ^^^ (p >>> 8)
  let p := p ^^^ (p >>> 4)
  let p := p ^^^ (p >>> 2)
  let p := p ^^^ (p >>> 1)
  p.getLsbD 0

/-- `conflict(m)` (R213): both flags of a declared pair, for the flag positions `fm`. -/
def conflict (fm : FlagMap) (m : Word) : Bool :=
  (flagAt m fm.fwd && flagAt m fm.rev) || (flagAt m fm.blink && flagAt m fm.fwd)
    || (flagAt m fm.blink && flagAt m fm.rev) || (flagAt m fm.opn && flagAt m fm.close)

/-- `sound_without_aux(m)` (R213). -/
def soundWithoutAux (fm : FlagMap) (m : Word) : Bool :=
  flagAt m fm.sound && auxOf m == 0

/-- `is_valid` (R215) for the flag positions `fm`. -/
def isValidAt (fm : FlagMap) (m : Word) : Bool :=
  if conflict fm m then false
  else if soundWithoutAux fm m then false
  else if m.getLsbD 0 ≠ parity31 m then false
  else true

/-- `is_valid` (R215). -/
def isValid (m : Word) : Bool := isValidAt Config.flagMap m

/-- `build_with_aux` (R211): the parity bit over the word with bit 0 cleared. -/
def buildWithAux (flags : BitVec 16) (aux : Byte) : Word :=
  let w0 := unsignedWord flags aux
  w0 ||| (BitVec.ofBool (parity31 w0)).setWidth 32

/-- `dispatch` (R222). -/
def dispatch (m : Word) : Option Word := if isValid m then some m else none

end Sys2Proof.Machine
end

