-- ==== Sys2Proof/Machine/Ops.lean ====
section
/-! DEFINITION. The operations every meaning is built from: the node that moves and its peer, `rearm`
(R130), the peripheral FSM's reactions (R135 to R140), the four phase primitives (R120), the controller's
sequencer (R121 to R127, R160), the blocking receiver's (R170), the reset of the Receive Assembly State
(R181), taking the interrupt and returning from it (R255, R258), ENV's steps (R120, R143). -/

namespace Sys2Proof.Machine

/-- The outcome of a meaning. -/
abbrev Out := Host.Outcome State Fault Refusal

/-- Go on with `k` where `o` is a next state. -/
def andThen (o : Out) (k : State → Out) : Out :=
  match o with
  | .next s => k s
  | .fault r => .fault r
  | .refused r => .refused r

/-! ## Whose step it is -/

/-- Node `n`. -/
def State.node (s : State) : NodeId → Node
  | .a => s.a
  | .b => s.b

/-- Change node `n`. -/
def State.mapNode (s : State) (n : NodeId) (f : Node → Node) : State :=
  match n with
  | .a => { s with a := f s.a }
  | .b => { s with b := f s.b }

/-- The node whose agent moves. -/
def State.self (s : State) : Node := s.node s.cur

/-- The other node of the system (R20). -/
def State.peer (s : State) : Node := s.node s.cur.other

/-- Change the node whose agent moves. -/
def State.mapSelf (s : State) (f : Node → Node) : State := s.mapNode s.cur f

/-- Change the other node. -/
def State.mapPeer (s : State) (f : Node → Node) : State := s.mapNode s.cur.other f

/-- `emit WIRE sym` (R12, R52). -/
def State.emit (s : State) (y : Sym) : State := { s with wire := s.wire ++ [y] }

/-- `emit CBLOG m` (R12, R53). -/
def State.emitCb (s : State) (m : Word) : State := { s with cblog := s.cblog ++ [m] }

/-- What an operation hands back to the context that called it. -/
def Node.returns (n : Node) (r : Result) : Node :=
  match n.ctx with
  | .main => { n with ret := r }
  | .irq => { n with cbRet := r }

/-- The main program's operation is over and has returned `r`. -/
def Node.finish (n : Node) (r : Result) : Node := { n with ret := r, busy := .idle }

/-! ## Which calls are refused (R247), before anything else is done (R253) -/

/-- A controller operation (R264): configured, not called from the callback (R197), in its role. -/
def refusedController (n : Node) : Option Refusal :=
  if n.role = .none then some .notConfigured
  else if n.ctx = .irq then some .blockingInHandler
  else if n.role ≠ .controller then some .wrongRole
  else none

/-- A peripheral operation of either context (R130, R192, R193). -/
def refusedPeripheral (n : Node) : Option Refusal :=
  if n.role = .none then some .notConfigured
  else if n.role ≠ .peripheral then some .wrongRole
  else none

/-- A peripheral operation of the main context (R190, R191, R234, R235, R197). -/
def refusedPeripheralMain (n : Node) : Option Refusal :=
  if n.role = .none then some .notConfigured
  else if n.ctx = .irq then some .blockingInHandler
  else if n.role ≠ .peripheral then some .wrongRole
  else none

/-- A polling operation (R131, R132, R170, R199). -/
def refusedPolling (n : Node) : Option Refusal :=
  match refusedPeripheralMain n with
  | some r => some r
  | none => if n.asyncEn then some .pollWhileAsync else none

/-- Run `k` on the moving node's state unless the call is refused. -/
def unlessRefused (r : Option Refusal) (k : Out) : Out :=
  match r with
  | some r => .refused r
  | none => k

/-! ## The peripheral's registers -/

/-- `rearm(ack)` (R130): arm the answer to the next phase, clear the latched event. -/
def Node.rearm (n : Node) (ack : Bool) : Node := { n with pAcken := ack, pEvt := none }

/-- The reset of the Receive Assembly State, CB kept (R181, R190, R231). -/
def Node.resetAssembly (n : Node) : Node := { n with cnt := 0, acc := 0, done := false, fired := false }

/-- The lane store at the counter and the counter's increment (R182 to R184). -/
def Node.storeByte (n : Node) : Node :=
  { n with acc := setLane n.acc n.cnt.toNat n.pDr, cnt := n.cnt + 1 }

/-- Bus hold (R134): a listening peripheral with a latched event lets no phase begin. -/
def Node.holds (n : Node) : Bool := n.role == .peripheral && n.pEvt.isSome

/-! ## The peripheral FSM, agent P-bt (R133 to R140) -/

/-- A start seen by the peripheral (R135); a repeated one while addressed is R140. -/
def Node.seesStart (n : Node) (repeated : Bool) : Node :=
  if n.role = .peripheral ∧ repeated = true ∧ n.pState = .addressed then
    { n with pEvt := some 0xA0, pState := .idle }
  else n

/-- Does the peripheral match address byte `a` (R136, R137)? -/
def Node.matchesAddress (n : Node) (a : Byte) : Bool :=
  n.role == .peripheral && n.pAcken && (a == slaW n.sla || a == gcW)

/-- The address phase at the peripheral (R136 matched, R137 not). -/
def Node.seesAddress (n : Node) (a : Byte) : Node :=
  if n.matchesAddress a then
    { n with pState := .addressed, pGc := a == gcW, pEvt := some (if a == gcW then 0x70 else 0x60) }
  else n

/-- Does the peripheral acknowledge the data phase (R138, R139)? -/
def Node.acksData (n : Node) : Bool :=
  n.role == .peripheral && n.pState == .addressed && n.pAcken

/-- The data phase at the peripheral (R138; R139 while not addressed), for the value `deaddress` of
P_DEADDRESS_ON_NACK (R141). -/
def Node.seesDataAt (deaddress : Bool) (n : Node) (b : Byte) : Node :=
  if n.role = .peripheral ∧ n.pState = .addressed then
    if n.pAcken then { n with pDr := b, pEvt := some (if n.pGc then 0x90 else 0x80) }
    else
      { n with
        pDr := b, pEvt := some (if n.pGc then 0x98 else 0x88),
        pState := if deaddress then .idle else .addressed }
  else n

/-- The data phase at the peripheral (R138, R139). -/
def Node.seesData (n : Node) (b : Byte) : Node := n.seesDataAt Config.pDeaddressOnNack b

/-- A stop seen by the peripheral (R140). -/
def Node.seesStop (n : Node) : Node :=
  if n.role = .peripheral ∧ n.pState = .addressed then { n with pEvt := some 0xA0, pState := .idle }
  else n

/-! ## The four phase primitives (R120). `none`: the phase cannot begin yet, because the peer holds the
bus (R134) or ENV has not answered. In the open composition ENV may answer any 8-bit value to any phase,
wider than R120's sets; what the model takes for the values outside a phase's own set is its choice
(log 23). -/

/-- Use the oldest answer code ENV has given (R120, open composition). -/
def drawAnswer (s : State) : Option (Byte × State) :=
  match s.self.answers with
  | [] => none
  | r :: rs => some (r, s.mapSelf fun n => { n with answers := rs })

/-- `bus_start()` (R120, R122, R123, R135). -/
def busStart (repeated : Bool) (s : State) : Option (Byte × State) :=
  let y := if repeated then Sym.Sr else Sym.S
  match s.comp with
  | .closed =>
    if s.peer.holds then none
    else some (if repeated then 0x10 else 0x08, (s.mapPeer fun n => n.seesStart repeated).emit y)
  | .openBus => (drawAnswer s).map fun p => (p.1, p.2.emit y)

/-- `bus_address(a)` (R120, R136, R137). An address phase is recorded as acknowledged for 0x18 only, so for an
answer 0x28, which is no answer of an address phase, `k` is 0 (log 23, DESIGN CHOICE). -/
def busAddress (a : Byte) (s : State) : Option (Byte × State) :=
  match s.comp with
  | .closed =>
    if s.peer.holds then none
    else
      let k := s.peer.matchesAddress a
      some (if k then 0x18 else 0x20, (s.mapPeer fun n => n.seesAddress a).emit (.A a k))
  | .openBus => (drawAnswer s).map fun p => (p.1, p.2.emit (.A a (p.1 == 0x18)))

/-- `bus_data(b)` (R120, R138, R139). A data phase is recorded as acknowledged for 0x28 only, so for an answer
0x18, which is no answer of a data phase, `k` is 0 (log 23, DESIGN CHOICE). -/
def busData (b : Byte) (s : State) : Option (Byte × State) :=
  match s.comp with
  | .closed =>
    if s.peer.holds then none
    else
      let k := s.peer.acksData
      some (if k then 0x28 else 0x30, (s.mapPeer fun n => n.seesData b).emit (.D b k))
  | .openBus => (drawAnswer s).map fun p => (p.1, p.2.emit (.D b (p.1 == 0x28)))

/-- `bus_stop()` (R120, R140). -/
def busStop (s : State) : Option State :=
  match s.comp with
  | .closed => if s.peer.holds then none else some ((s.mapPeer Node.seesStop).emit .P)
  | .openBus => some (s.emit .P)

/-! ## The controller's sequencer (R121 to R127, R160) -/

/-- `end()` as the last part of an operation that returns `r` (R127): nothing in IDLE, no stop symbol
when the bus is not owned, else the stop phase is the next one. -/
def endWith (r : Result) (n : Node) : Node :=
  if n.cState = .idle then n.finish r
  else if n.cOwn then { n with cState := .stop, busy := .atStop r }
  else { n with cState := .idle }.finish r

/-- Put the next data byte of an operation (R126, R160). -/
def toData (t : CTask) (b : Byte) (n : Node) : Node := { n with cState := .data, busy := .atData t b }

/-- After the start phase answered `r` (R122). A `send` whose start failed ends with the start's answer in
`AddressNotAcknowledged`, whatever the answer: for 0x18, which R160's test would let pass, this is the
model's choice (log 23, DESIGN CHOICE). -/
def afterStart (t : CTask) (r : Byte) (n : Node) : Node :=
  if isStartOk r then { n with cOwn := true, cState := .address, busy := .atAddress t }
  else
    let n := { n with cState := .error, cOwn := false }
    match t with
    | .call => n.finish (.code r)
    | .send _ => endWith (.sent (some (.addressNotAcknowledged r))) n

/-- After an error-class answer: ERROR, and the bus is lost on 0x38 (R122, R126). -/
def toError (r : Byte) (n : Node) : Node :=
  { n with cState := .error, cOwn := if r = 0x38 then false else n.cOwn }

/-- After the address phase answered `r` (R122, R160). CS_I is 0 from here on; what it holds in the start and
address phases of a `send` is what the last one left (log 24, DESIGN CHOICE). -/
def afterAddress (t : CTask) (r : Byte) (n : Node) : Node :=
  if r = 0x18 then
    match t with
    | .call => n.finish (.code r)
    | .send m => toData t (payloadByte m 0) { n with csI := 0 }
  else
    match t with
    | .call => (toError r n).finish (.code r)
    | .send _ => endWith (.sent (some (.addressNotAcknowledged r))) (toError r n)

/-- After a data phase answered `r` (R126, R160, R161). CS_I goes on to the next byte's index, and keeps the last
one, 3 or the failed byte's, in the stop phase and after the return (log 24, DESIGN CHOICE). -/
def afterData (t : CTask) (r : Byte) (n : Node) : Node :=
  if r = 0x28 then
    match t with
    | .call => n.finish (.code r)
    | .send m =>
      if n.csI.toNat < 3 then toData t (payloadByte m (n.csI + 1)) { n with csI := n.csI + 1 }
      else endWith (.sent none) n
  else
    match t with
    | .call => (toError r n).finish (.code r)
    | .send _ => endWith (.sent (some (.byteNotAcknowledged (n.csI.setWidth 2)))) (toError r n)

/-- After the stop phase (R127). -/
def afterStop (r : Result) (n : Node) : Node := { n with cOwn := false, cState := .idle }.finish r

/-- Put the next phase of the controller operation in progress on the bus; `none` while it waits
(R134) or when no controller operation is in progress. -/
def controllerPhase (s : State) : Option State :=
  match s.self.busy with
  | .atStart t rep => (busStart rep s).map fun p => p.2.mapSelf (afterStart t p.1)
  | .atAddress t => (busAddress (slaW s.self.sla) s).map fun p => p.2.mapSelf (afterAddress t p.1)
  | .atData t b => (busData b s).map fun p => p.2.mapSelf (afterData t p.1)
  | .atStop r => (busStop s).map fun s => s.mapSelf (afterStop r)
  | .idle | .readByte | .pollEvent _ | .recvAddress | .recvAddressExpired | .recvData | .recvDataExpired => none

/-- The controller operation in progress goes on by one phase, or waits (R71, R134): a phase is a step
(log 9). -/
def nextPhase (s : State) : State := (controllerPhase s).getD s

/-! ## The peripheral's waits (R131, R132, R170) -/

/-- `receive_blocking` meets event or expiry `c` in stage 1 (R170, R174), for the value `abort` of
PB_IDLE_ABORT. -/
def recvAddressOnAt (abort : Bool) (c : Byte) (n : Node) : Node :=
  if isAddrMatch c then { n with pbI := 0, busy := .recvData }.rearm true
  else if abort then (n.rearm true).finish (.message n.pbAcc)
  else { n with busy := .recvAddress }.rearm true

/-- Stage 1 of `receive_blocking` (R170, R174). -/
def recvAddressOn (c : Byte) (n : Node) : Node := recvAddressOnAt Config.pbIdleAbort c n

/-- `receive_blocking` meets event or expiry `c` in stage 2 (R170, R172, R173). PB_I keeps the last byte's index and
PB_ACC the word after the return (log 24, DESIGN CHOICE). -/
def recvDataOn (c : Byte) (n : Node) : Node :=
  if isDataRx c then
    let acc := setLane n.pbAcc n.pbI.toNat n.pDr
    if n.pbI.toNat < 3 then
      { n with pbAcc := acc, pbI := n.pbI + 1 }.rearm (decide ((n.pbI + 1).toNat < 3))
    else ({ n with pbAcc := acc }.rearm true).finish (.message acc)
  else (n.rearm true).finish (.message n.pbAcc)

/-- A wait of the main program meets the latched event, if there is one (R131, R132's *observe*, R170). -/
def observe (n : Node) : Node :=
  match n.pEvt with
  | none => n
  | some c =>
    match n.busy with
    | .readByte => n.finish (.byte n.pDr)
    | .pollEvent _ => n.finish (.code c)
    | .recvAddress => recvAddressOn c n
    | .recvData => recvDataOn c n
    | .idle | .atStart _ _ | .atAddress _ | .atData _ _ | .atStop _ | .recvAddressExpired | .recvDataExpired => n

/-- `receive_blocking` goes on after its poll has expired: whatever has been latched since is dropped by the
`rearm(1)` (R170, R173, R174). -/
def afterExpiry (n : Node) : Node :=
  match n.busy with
  | .recvAddressExpired => recvAddressOn Config.evTimeout n
  | .recvDataExpired => recvDataOn Config.evTimeout n
  | .idle | .atStart _ _ | .atAddress _ | .atData _ _ | .atStop _ | .readByte | .pollEvent _ | .recvAddress
  | .recvData => observe n

/-- R132's *expire*: a poll ends with EV_TIMEOUT, only while no event is latched. Inside `receive_blocking` the
call's own `rearm(1)` is its next step, so that another agent may move in between (R71, R170). -/
def expire (n : Node) : Node :=
  match n.pEvt with
  | some _ => n
  | none =>
    match n.busy with
    | .pollEvent _ => n.finish (.code Config.evTimeout)
    | .recvAddress => { n with busy := .recvAddressExpired }
    | .recvData => { n with busy := .recvDataExpired }
    | .idle | .readByte | .atStart _ _ | .atAddress _ | .atData _ _ | .atStop _ | .recvAddressExpired
    | .recvDataExpired => n

/-- A main program inside an operation goes on with it by one step, or spins (R131, R134). -/
def resume (s : State) : State := (nextPhase s).mapSelf afterExpiry

/-! ## The interrupt (R250 to R258) -/

/-- The bus-event interrupt is enabled and not masked (R250). -/
def Node.irqEnabled (n : Node) : Bool :=
  n.role == .peripheral && n.asyncEn && n.ie && n.ctx == .main

/-- The handler's step for code `c` is enabled (R180, R250): the interrupt is enabled and `c` latched. -/
def Node.irqTaken (n : Node) (c : Byte) : Bool := n.irqEnabled && n.pEvt == some c

/-- Taking the interrupt (R255): nothing is saved, CTX becomes IRQ. -/
def takeInterrupt (s : State) : State := s.mapSelf fun n => { n with ctx := .irq }

/-- Returning from it (R258): nothing is restored, CTX becomes MAIN. -/
def returnFromInterrupt (s : State) : State := s.mapSelf fun n => { n with ctx := .main }

/-- One run of the handler (R180): entry, the branch's body, the `rearm` that ends every branch, return. -/
def handlerRun (body : State → Out) (ack : State → Bool) (s : State) : Out :=
  andThen (body (takeInterrupt s)) fun s =>
    .next (returnFromInterrupt (s.mapSelf fun n => n.rearm (ack s)))

/-! ## ENV (R14, R120, R143) -/

/-- ENV presents code `c` (with data byte `d`) to the moving node, in the open composition: a peripheral
with nothing latched latches it (R143's `inject`), a controller will use it as the answer of its next
phase (R120). In every other state this step of ENV does not exist and nothing changes. -/
def envEvent (c d : Byte) (s : State) : State :=
  match s.comp, s.self.role with
  | .openBus, .peripheral =>
    if s.self.pEvt.isNone then
      s.mapSelf fun n => { n with pEvt := some c, pDr := if isDataRx c then d else n.pDr }
    else s
  | .openBus, .controller => s.mapSelf fun n => { n with answers := n.answers ++ [c] }
  | .openBus, .none => s
  | .closed, _ => s

/-- A foreign controller puts its next phase on the moving node's bus (R133 to R140); `none` while the
bus is held or nothing is left. Its start is a fresh one (`S`, R93, R135) even where the node is still
P_ADDRESSED from phases no stop has ended (log 25, DESIGN CHOICE). At a node whose ROLE is CONTROLLER or NONE
the phases go on WIRE unacknowledged and touch no register, inside that node's own open transaction too
(log 26, DESIGN CHOICE: R14's ENV only answers a controller, and N40 gives no procedure for two). -/
def foreignPhase (s : State) : Option State :=
  match s.comp, s.self.foreign with
  | .closed, _ => none
  | .openBus, [] => none
  | .openBus, ph :: rest =>
    if s.self.holds then none
    else
      let s' := s.mapSelf fun n => { n with foreign := rest }
      match ph with
      | .start => some ((s'.mapSelf fun n => n.seesStart false).emit .S)
      | .address a =>
        some ((s'.mapSelf fun n => n.seesAddress (slaW a)).emit (.A (slaW a) (s.self.matchesAddress (slaW a))))
      | .data b => some ((s'.mapSelf fun n => n.seesData b).emit (.D b s.self.acksData))
      | .stop => some ((s'.mapSelf Node.seesStop).emit .P)

/-- A foreign controller goes on by one phase of what it has begun, or waits (R71, R134). -/
def foreignGoesOn (s : State) : State := (foreignPhase s).getD s

/-- A foreign controller begins `phs` after what it has begun already (open composition only, R14). -/
def foreignBegins (phs : List Phase) (s : State) : State :=
  match s.comp with
  | .openBus => foreignGoesOn (s.mapSelf fun n => { n with foreign := n.foreign ++ phs })
  | .closed => s

end Sys2Proof.Machine
end

