-- ==== Sys2Proof/Machine/AsyncHost.lean ====
section
/-! DEFINITION. The host's operations of the asynchronous receive path (43_peripheral_async.md, R190 to
R193). Each is one step, so its critical section is part of it (R67). -/

namespace Sys2Proof.Machine

/-- `enable_async(callback)` (R190). IE is as before: the critical section restores it. -/
def execEnableAsync (callback : Byte) (s : State) : Out :=
  unlessRefused (refusedPeripheralMain s.self)
    (.next (s.mapSelf fun n =>
      ({ n with cb := some callback, asyncEn := true }.resetAssembly.rearm true).returns .unit))

/-- `disable_async()` (R191). -/
def execDisableAsync (s : State) : Out :=
  unlessRefused (refusedPeripheralMain s.self)
    (.next (s.mapSelf fun n => { n with asyncEn := false }.returns .unit))

/-- `message_ready()` (R192), in either context. -/
def execMessageReady (s : State) : Out :=
  unlessRefused (refusedPeripheral s.self)
    (.next (s.mapSelf fun n => n.returns (.bool n.done)))

/-- `take_message()` (R193), in either context. -/
def execTakeMessage (s : State) : Out :=
  unlessRefused (refusedPeripheral s.self)
    (.next (s.mapSelf fun n =>
      if n.done then { n with done := false }.returns (.optMessage (some n.acc))
      else n.returns (.optMessage none)))

end Sys2Proof.Machine
end

