-- ==== Sys2Proof/Machine/BusTransport.lean ====
section
/-! DEFINITION. Bus Transport (40_bus_transport.md): the controller's `begin_as_controller`,
`write_byte`, `end` (R122 to R127), the peripheral's `rearm`, `read_byte`, `poll_event` (R130 to R132).
A call puts its first phase on the bus, or waits for it; the operation stays in progress (`Busy`), and the
main program's later turns go on with it, a phase each (`resume`; R71, log 9). -/

namespace Sys2Proof.Machine

/-- `begin_as_controller(write)` (R122, R123, R124). -/
def execBeginAsController (write : Bool) (s : State) : Out :=
  unlessRefused (refusedController s.self)
    (if write = false then .refused .readDirection
     else
      match s.self.cState with
      | .idle =>
        .next (nextPhase
          (s.mapSelf fun n => { n with cState := .start, busy := .atStart .call false }))
      | .address | .data =>
        if s.self.cOwn then
          .next (nextPhase
            (s.mapSelf fun n => { n with cState := .start, busy := .atStart .call true }))
        else .refused .badControllerState
      | .start | .stop | .error => .refused .badControllerState)

/-- `write_byte(b)` (R126). -/
def execWriteByte (b : Byte) (s : State) : Out :=
  unlessRefused (refusedController s.self)
    (match s.self.cState with
     | .address | .data =>
       if s.self.cOwn then .next (nextPhase (s.mapSelf (toData .call b)))
       else .refused .badControllerState
     | .idle | .start | .stop | .error => .refused .badControllerState)

/-- `end()` (R127). -/
def execEndTransaction (s : State) : Out :=
  unlessRefused (refusedController s.self)
    (.next (nextPhase (s.mapSelf (endWith .unit))))

/-- `rearm(ack)` (R130), in either context. -/
def execRearm (ack : Bool) (s : State) : Out :=
  unlessRefused (refusedPeripheral s.self)
    (.next (s.mapSelf fun n => (n.rearm ack).returns .unit))

/-- `read_byte(send_ack)` (R131): arm, then wait for the next event; as controller R124. -/
def execReadByte (sendAck : Bool) (s : State) : Out :=
  if s.self.role = .controller ∧ s.self.ctx = .main then .refused .readDirection
  else
    unlessRefused (refusedPolling s.self)
      (.next (s.mapSelf fun n => observe { n.rearm sendAck with busy := .readByte }))

/-- `poll_event(timeout)` (R132): a latched event is returned at once and stays latched; otherwise the
poll waits, to observe one or to expire. -/
def execPollEvent (timeout : Word) (s : State) : Out :=
  unlessRefused (refusedPolling s.self)
    (.next (s.mapSelf fun n => observe { n with busy := .pollEvent timeout }))

end Sys2Proof.Machine
end

