-- ==== Sys2Proof/Machine/EventCodes.lean ====
section
/-! DEFINITION. The event codes (R96, R98) as steps of the rest of the bus (log 7): ENV presents the code
to the node, which as a controller takes it as the answer of its next phase (R120) and as a peripheral
latches it (R143). In the closed composition the codes are produced by `busStart`, `busAddress`,
`busData` and the peripheral FSM instead. EV_TIMEOUT is the expiry of a poll (R132). -/

namespace Sys2Proof.Machine

/-- 0x08, "start condition transmitted" (R96). -/
def execEvStart (s : State) : Out := .next (envEvent 0x08 0 s)

/-- 0x10, "repeated start transmitted" (R96). -/
def execEvRstart (s : State) : Out := .next (envEvent 0x10 0 s)

/-- 0x18, "address+write transmitted, acknowledged" (R96). -/
def execEvSlawAck (s : State) : Out := .next (envEvent 0x18 0 s)

/-- 0x20, "address+write transmitted, not acknowledged" (R96). -/
def execEvSlawNack (s : State) : Out := .next (envEvent 0x20 0 s)

/-- 0x28, "data byte transmitted, acknowledged" (R96). -/
def execEvTxdAck (s : State) : Out := .next (envEvent 0x28 0 s)

/-- 0x30, "data byte transmitted, not acknowledged" (R96). -/
def execEvTxdNack (s : State) : Out := .next (envEvent 0x30 0 s)

/-- 0x38, "arbitration lost" (R96). -/
def execEvArbLost (s : State) : Out := .next (envEvent 0x38 0 s)

/-- 0x60, "own address (write) matched, acknowledged" (R96). -/
def execEvOwnMatch (s : State) : Out := .next (envEvent 0x60 0 s)

/-- 0x68, "own address matched after arbitration loss" (R96). -/
def execEvOwnMatchArb (s : State) : Out := .next (envEvent 0x68 0 s)

/-- 0x70, "general-call address matched, acknowledged" (R96). -/
def execEvGcMatch (s : State) : Out := .next (envEvent 0x70 0 s)

/-- 0x78, "general-call address matched after arbitration loss" (R96). -/
def execEvGcMatchArb (s : State) : Out := .next (envEvent 0x78 0 s)

/-- 0x80, "data byte received with ack requested, own address" (R96). -/
def execEvRxdAckOwn (d : Byte) (s : State) : Out := .next (envEvent 0x80 d s)

/-- 0x88, "data byte received, signaled as the last byte, own address" (R96). -/
def execEvRxdNackOwn (d : Byte) (s : State) : Out := .next (envEvent 0x88 d s)

/-- 0x90, "data byte received with ack requested, general call" (R96). -/
def execEvRxdAckGc (d : Byte) (s : State) : Out := .next (envEvent 0x90 d s)

/-- 0x98, "data byte received, signaled as the last byte, general call" (R96). -/
def execEvRxdNackGc (d : Byte) (s : State) : Out := .next (envEvent 0x98 d s)

/-- 0xA0, "stop or repeated start observed while addressed" (R96). -/
def execEvStopRs (s : State) : Out := .next (envEvent 0xA0 0 s)

/-- `EV_TIMEOUT` (R98, R132's *expire*): the poll in progress ends with the timeout code. It is never
latched and never given to the handler; with no poll waiting, or with an event latched, nothing
expires. -/
def execEvTimeout (s : State) : Out := .next (s.mapSelf expire)

end Sys2Proof.Machine
end

