-- ==== Sys2Proof/Machine/Formats.lean ====
section
/-! DEFINITION. The data formats as a foreign controller's bus phases (log 8; at a node that is no peripheral
log 26), one phase a step (R71): what the peripheral FSM does when the bus carries an address byte (R94, R136,
R137), the four payload bytes of a Message word (R62, R91, R138, R139), or one whole transaction (R93). -/

namespace Sys2Proof.Machine

/-- The four data phases that carry a word, least-significant byte first (R62). -/
def payloadPhases (m : Word) : List Phase := (wordBytes m).map .data

/-- `MSG`: the data phases of a Message word (R91, R62). -/
def execMsg (f : BitVec 16) (a : BitVec 4) (rp : BitVec 12) (s : State) : Out :=
  .next (foreignBegins (payloadPhases (msgWord f a rp)) s)

/-- `ADDR`: one address phase (R94, R136, R137). With the read bit it is refused (R104 (d), R124). -/
def execAddr (a : BitVec 7) (w : Bool) (s : State) : Out :=
  if w then .refused .readDirection else .next (foreignBegins [.address a] s)

/-- `FRAME`: start, address with the write bit, four data phases, stop (R93). -/
def execFrame (a : BitVec 7) (m : Word) (s : State) : Out :=
  .next (foreignBegins ([.start, .address a] ++ payloadPhases m ++ [.stop]) s)

end Sys2Proof.Machine
end

