-- ==== Sys2Proof/Machine/Framing.lean ====
section
/-! DEFINITION. Message Framing and Validation (44_message_framing.md, R210 to R222): total functions of
their operands, available in every role and context and before Link Configuration (R51). Only the
result is handed back; no register of the block is written. -/

namespace Sys2Proof.Machine

/-- Hand a pure function's value back to the caller. -/
def pureResult (r : Result) (s : State) : Out := .next (s.mapSelf fun n => n.returns r)

/-- `build(flags)` is `build_with_aux(flags, 0)` (R212). -/
def execBuild (flags : BitVec 16) (s : State) : Out := pureResult (.message (buildWithAux flags 0)) s

/-- `build_with_aux(flags, aux)` (R211). -/
def execBuildWithAux (flags : BitVec 16) (aux : Byte) (s : State) : Out :=
  pureResult (.message (buildWithAux flags aux)) s

/-- `is_valid(message)` (R215). -/
def execIsValid (message : Word) (s : State) : Out := pureResult (.bool (isValid message)) s

/-- `parity31(w)` (R210). -/
def execParity31 (w : Word) (s : State) : Out := pureResult (.bit (parity31 w)) s

/-- `get_flags(m)` (R220). -/
def execGetFlags (m : Word) (s : State) : Out := pureResult (.flags (flagsOf m)) s

/-- `get_aux(m)` (R220). -/
def execGetAux (m : Word) (s : State) : Out := pureResult (.aux (auxOf m)) s

/-- `has_flag(m, i)` (R220). -/
def execHasFlag (m : Word) (i : BitVec 4) (s : State) : Out := pureResult (.bool (flagAt m i.toNat)) s

/-- `dispatch(m)` (R222). -/
def execDispatch (m : Word) (s : State) : Out := pureResult (.optMessage (dispatch m)) s

end Sys2Proof.Machine
end

