-- ==== Sys2Proof/Machine/Callback.lean ====
section
/-! DEFINITION. The callback (R196, R197): CBLOG grows by the message, then the registered host function
makes its calls in interrupt context. -/

namespace Sys2Proof.Machine

/-- One call a callback makes (R197): `take_message`, `message_ready` and the pure functions run, every
other host operation is refused, and what is no host operation is no call. -/
def callbackCall (i : Instr) (s : State) : Out :=
  match i with
  | .takeMessage => execTakeMessage s
  | .messageReady => execMessageReady s
  | .build flags => execBuild flags s
  | .buildWithAux flags aux => execBuildWithAux flags aux s
  | .isValid message => execIsValid message s
  | .parity31 w => execParity31 w s
  | .getFlags m => execGetFlags m s
  | .getAux m => execGetAux m s
  | .hasFlag m i => execHasFlag m i s
  | .dispatch m => execDispatch m s
  | .initController _ | .initPeripheral _ | .beginAsController _ | .writeByte _ | .readByte _
  | .endTransaction | .pollEvent _ | .rearm _ | .send _ | .receiveBlocking | .enableAsync _
  | .disableAsync | .irqDisable | .irqRestore _ => .refused .blockingInHandler
  | .evStart | .evRstart | .evSlawAck | .evSlawNack | .evTxdAck | .evTxdNack | .evArbLost
  | .evOwnMatch | .evOwnMatchArb | .evGcMatch | .evGcMatchArb | .evRxdAckOwn _ | .evRxdNackOwn _
  | .evRxdAckGc _ | .evRxdNackGc _ | .evStopRs | .evTimeout | .irqAddrMatch _ _ | .irqDataAck _
  | .irqDataNack _ | .irqStop | .irqOther _ | .msg _ _ _ | .addr _ _ | .frame _ _ =>
    .refused .unknownOperation

/-- The calls of a callback, in order. -/
def runCalls : List Instr → State → Out
  | [], s => .next s
  | i :: is, s => andThen (callbackCall i s) (runCalls is)

/-- `invoke f(ACC)` if a callback is registered (R184, R185, R196); with CB = none nothing is invoked and
nothing is appended. -/
def invokeCallback (s : State) : Out :=
  match s.self.cb with
  | none => .next s
  | some f => runCalls ((s.self.hostFn f).calls s.self.acc) (s.emitCb s.self.acc)

/-- Completion of a message (R184, R185): DONE and FIRED set, then the callback. -/
def completeMessage (s : State) : Out :=
  invokeCallback (s.mapSelf fun n => { n with done := true, fired := true })

end Sys2Proof.Machine
end

