-- ==== Sys2Proof/Machine/Handler.lean ====
section
/-! DEFINITION. The five branches of the reassembly handler (R180 to R188). Each is one whole run of the
handler, from entry to return (R67). A branch whose step is not enabled (R250) changes nothing: a
masked event stays latched. A branch whose guard on CNT fails is the default branch (R183, R184, R186). -/

namespace Sys2Proof.Machine

/-- The default branch's run (R186): re-arm with ack and ignore. -/
def handlerIgnores (s : State) : Out := handlerRun .next (fun _ => true) s

/-- `IRQ_ADDR_MATCH` (R181). -/
def execIrqAddrMatch (g a : Bool) (s : State) : Out :=
  if s.self.irqTaken (addrMatchCode g a) then
    handlerRun (fun s => .next (s.mapSelf Node.resetAssembly)) (fun _ => true) s
  else .next s

/-- `IRQ_DATA_ACK` (R183). -/
def execIrqDataAck (g : Bool) (s : State) : Out :=
  if s.self.irqTaken (dataAckCode g) then
    if s.self.cnt.toNat < 3 then
      handlerRun (fun s => .next (s.mapSelf Node.storeByte)) (fun s => decide (s.self.cnt.toNat < 3)) s
    else handlerIgnores s
  else .next s

/-- `IRQ_DATA_NACK` (R184). -/
def execIrqDataNack (g : Bool) (s : State) : Out :=
  if s.self.irqTaken (dataNackCode g) then
    if s.self.cnt.toNat < 4 then
      handlerRun (fun s => completeMessage (s.mapSelf Node.storeByte)) (fun _ => true) s
    else handlerIgnores s
  else .next s

/-- `IRQ_STOP` (R185). -/
def execIrqStop (s : State) : Out :=
  if s.self.irqTaken 0xA0 then
    handlerRun (fun s => if s.self.cnt = 4 ∧ s.self.fired = false then completeMessage s else .next s)
      (fun _ => true) s
  else .next s

/-- `IRQ_OTHER` (R186), for a code no earlier branch takes. -/
def execIrqOther (code : Byte) (s : State) : Out :=
  if s.self.irqTaken code then handlerIgnores s else .next s

end Sys2Proof.Machine
end

