-- ==== Sys2Proof/Machine/LinkConfig.lean ====
section
/-! DEFINITION. Link Configuration and the interrupt-enable operations (45_link_config.md, R230 to
R235). -/

namespace Sys2Proof.Machine

/-- `init_controller(bus_hz)` (R230, R233). -/
def execInitController (busHz : Word) (s : State) : Out :=
  let n := s.self
  if n.ctx = .irq then .refused .blockingInHandler
  else if n.role = .peripheral ∨ n.cOwn = true then .refused .reinitBusy
  else
    .next (s.mapSelf fun n =>
      { n with role := .controller, busHz := busHz, cState := .idle, cOwn := false }.returns .unit)

/-- `init_peripheral(sla)` (R231, R233). -/
def execInitPeripheral (sla : BitVec 7) (s : State) : Out :=
  let n := s.self
  if n.ctx = .irq then .refused .blockingInHandler
  else if sla = 0 then .refused .badAddress
  else if n.role = .controller then .refused .reinitBusy
  else if n.role = .peripheral ∧ ¬ (n.pState = .idle ∧ n.pEvt = none) then .refused .reinitBusy
  else
    .next (s.mapSelf fun n =>
      ({ n with
          role := .peripheral, sla := sla, pState := .idle, pGc := false, pEvt := none,
          pAcken := true, asyncEn := false, cb := none }.resetAssembly).returns .unit)

/-- `irq_disable()` (R234): returns the old IE. -/
def execIrqDisable (s : State) : Out :=
  unlessRefused (refusedPeripheralMain s.self)
    (.next (s.mapSelf fun n => { n with ie := false }.returns (.bool n.ie)))

/-- `irq_restore(s)` (R235). -/
def execIrqRestore (v : Bool) (s : State) : Out :=
  unlessRefused (refusedPeripheralMain s.self)
    (.next (s.mapSelf fun n => { n with ie := v }.returns .unit))

end Sys2Proof.Machine
end

