-- ==== Sys2Proof/Machine/ReceiveBlocking.lean ====
section
/-! DEFINITION. The blocking Peripheral Receive Path (42_peripheral_blocking.md, R170 to R176). -/

namespace Sys2Proof.Machine

/-- `receive_blocking()` (R170): both sequencer registers zeroed, then stage 1's poll. -/
def execReceiveBlocking (s : State) : Out :=
  unlessRefused (refusedPolling s.self)
    (.next (s.mapSelf fun n => observe { n with pbAcc := 0, pbI := 0, busy := .recvAddress }))

end Sys2Proof.Machine
end

