-- ==== Sys2Proof/Machine/SendPath.lean ====
section
/-! DEFINITION. The Controller Send Path (41_controller_send.md, R160 to R165). -/

namespace Sys2Proof.Machine

/-- `send(message)` (R160, R165): start, address, four data bytes least-significant first, `end()` on
every path. The call's own step is the start phase; the later phases are the main program's later turns. -/
def execSend (message : Word) (s : State) : Out :=
  unlessRefused (refusedController s.self)
    (if s.self.cState ≠ .idle then .refused .badControllerState
     else
      .next (nextPhase
        (s.mapSelf fun n => { n with cState := .start, busy := .atStart (.send message) false })))

end Sys2Proof.Machine
end

