-- ==== Sys2Proof/Machine/Dispatch.lean ====
section
/-! DEFINITION. One arm per row of spec/opcode_table.json. -/

namespace Sys2Proof.Machine

def exec (i : Instr) (s : State) : Host.Outcome State Fault Refusal :=
  match i with
  | .initController busHz => Sys2Proof.Machine.execInitController busHz s
  | .initPeripheral sla => Sys2Proof.Machine.execInitPeripheral sla s
  | .beginAsController write => Sys2Proof.Machine.execBeginAsController write s
  | .writeByte b => Sys2Proof.Machine.execWriteByte b s
  | .readByte sendAck => Sys2Proof.Machine.execReadByte sendAck s
  | .endTransaction => Sys2Proof.Machine.execEndTransaction s
  | .pollEvent timeout => Sys2Proof.Machine.execPollEvent timeout s
  | .rearm ack => Sys2Proof.Machine.execRearm ack s
  | .send message => Sys2Proof.Machine.execSend message s
  | .receiveBlocking => Sys2Proof.Machine.execReceiveBlocking s
  | .enableAsync callback => Sys2Proof.Machine.execEnableAsync callback s
  | .disableAsync => Sys2Proof.Machine.execDisableAsync s
  | .messageReady => Sys2Proof.Machine.execMessageReady s
  | .takeMessage => Sys2Proof.Machine.execTakeMessage s
  | .irqDisable => Sys2Proof.Machine.execIrqDisable s
  | .irqRestore v => Sys2Proof.Machine.execIrqRestore v s
  | .build flags => Sys2Proof.Machine.execBuild flags s
  | .buildWithAux flags aux => Sys2Proof.Machine.execBuildWithAux flags aux s
  | .isValid message => Sys2Proof.Machine.execIsValid message s
  | .parity31 w => Sys2Proof.Machine.execParity31 w s
  | .getFlags m => Sys2Proof.Machine.execGetFlags m s
  | .getAux m => Sys2Proof.Machine.execGetAux m s
  | .hasFlag m k => Sys2Proof.Machine.execHasFlag m k s
  | .dispatch m => Sys2Proof.Machine.execDispatch m s
  | .evStart => Sys2Proof.Machine.execEvStart s
  | .evRstart => Sys2Proof.Machine.execEvRstart s
  | .evSlawAck => Sys2Proof.Machine.execEvSlawAck s
  | .evSlawNack => Sys2Proof.Machine.execEvSlawNack s
  | .evTxdAck => Sys2Proof.Machine.execEvTxdAck s
  | .evTxdNack => Sys2Proof.Machine.execEvTxdNack s
  | .evArbLost => Sys2Proof.Machine.execEvArbLost s
  | .evOwnMatch => Sys2Proof.Machine.execEvOwnMatch s
  | .evOwnMatchArb => Sys2Proof.Machine.execEvOwnMatchArb s
  | .evGcMatch => Sys2Proof.Machine.execEvGcMatch s
  | .evGcMatchArb => Sys2Proof.Machine.execEvGcMatchArb s
  | .evRxdAckOwn d => Sys2Proof.Machine.execEvRxdAckOwn d s
  | .evRxdNackOwn d => Sys2Proof.Machine.execEvRxdNackOwn d s
  | .evRxdAckGc d => Sys2Proof.Machine.execEvRxdAckGc d s
  | .evRxdNackGc d => Sys2Proof.Machine.execEvRxdNackGc d s
  | .evStopRs => Sys2Proof.Machine.execEvStopRs s
  | .evTimeout => Sys2Proof.Machine.execEvTimeout s
  | .irqAddrMatch g a => Sys2Proof.Machine.execIrqAddrMatch g a s
  | .irqDataAck g => Sys2Proof.Machine.execIrqDataAck g s
  | .irqDataNack g => Sys2Proof.Machine.execIrqDataNack g s
  | .irqStop => Sys2Proof.Machine.execIrqStop s
  | .irqOther code => Sys2Proof.Machine.execIrqOther code s
  | .msg f a p => Sys2Proof.Machine.execMsg f a p s
  | .addr a w => Sys2Proof.Machine.execAddr a w s
  | .frame a m => Sys2Proof.Machine.execFrame a m s

end Sys2Proof.Machine
end

