-- ==== Sys2Proof/Machine/Fetch.lean ====
section
/-! DEFINITION. What the agent whose turn it is does next (R14, R71). A main program calls its next
operation unless it is inside one; an interrupt context runs the handler branch that the latched event
selects (R180), if the interrupt is enabled and not masked (R250); ENV presents an event code or a data
format, or injects any code; a foreign controller goes on with its phases. -/

namespace Sys2Proof.Machine

/-- What the turn comes to. -/
inductive Fetched
  /-- an operation, to be executed at the state given -/
  | run (i : Instr) (s : State)
  /-- the main program goes on with the operation it is inside -/
  | goOn (s : State)
  /-- ENV presents a code as it is, row of the table or not (R99, R143) -/
  | event (c d : Byte) (s : State)
  /-- a foreign controller goes on -/
  | foreign (s : State)
  /-- the agent has no step; its turn passes -/
  | idle (s : State)
  /-- the call is refused before it is an operation -/
  | reject (r : Refusal)
  deriving DecidableEq, Repr

/-- The node whose agent a turn gives the step to. -/
def Turn.node : Turn → NodeId
  | .main n => n
  | .irq n => n
  | .env n _ _ => n
  | .inject n _ _ => n
  | .foreign n => n

/-- The table format ENV's bytes are read in. -/
def EnvFormat.format : EnvFormat → Format
  | .evt => .evt
  | .msg => .msg
  | .addr => .addr
  | .frame => .frame

/-- A main program's turn: its next call. Bytes that are no operation of R101 are refused (R104 (e), log 5). -/
def fetchCall (s : State) : Fetched :=
  if s.self.ctx = .irq then .idle s
  else if s.self.busy ≠ .idle then .goOn s
  else
    match s.self.prog with
    | [] => .idle s
    | bs :: rest =>
      match decode .hostop s.self.cnt bs with
      | .ok (i, _) => .run i (s.mapSelf fun n => { n with prog := rest })
      | .error _ => .reject .unknownOperation

/-- An interrupt context's turn: the branch the latched event selects (R180). -/
def fetchIrq (s : State) : Fetched :=
  match s.self.pEvt with
  | some c => if s.self.irqEnabled then .run (irqBranch s.self.cnt c) s else .idle s
  | none => .idle s

/-- ENV's turn. A code that is no row is presented all the same, with the next byte as its data; a FRAME whose
address byte has the read bit is refused (R104 (d)); with fewer bytes than the format has ENV presents
nothing (log 12). -/
def fetchEnv (f : EnvFormat) (bs : List Byte) (s : State) : Fetched :=
  match decode f.format s.self.cnt bs with
  | .ok (i, _) => .run i s
  | .error .unlistedEvent => .event (bs.getD 0 0) (bs.getD 1 0) s
  | .error .readDirection => .reject .readDirection
  | .error .unknownOperation | .error .truncated | .error .badOperand => .idle s

/-- The next agent's next step. With no turn scheduled no agent moves. -/
def fetch (s : State) : Fetched :=
  match s.sched with
  | [] => .idle s
  | t :: rest =>
    let s := { s with sched := rest, cur := t.node }
    match t with
    | .main _ => fetchCall s
    | .irq _ => fetchIrq s
    | .env _ f bs => fetchEnv f bs s
    | .inject _ c d => .event c d s
    | .foreign _ => .foreign s

/-- Node A's interrupt context about to take code `c` (R250), with a byte counter the guards of R183 and
R184 admit. -/
def armedFor (c : Byte) (n : Node) : Node :=
  { n with
    role := .peripheral, asyncEn := true, ie := true, ctx := .main, pEvt := some c,
    cnt := if isDataRx c then 0 else n.cnt }

/-- The turn and the place a table row's word is fetched from: a host operation is node A's next call, an
event code and a data format are presented by ENV, a handler branch is selected by node A's latched
event. -/
def placeWord (s : State) (nbits w : Nat) : State :=
  let bytes := tableBytes (w % 2 ^ nbits)
  match tableFormat nbits w with
  | some .irq =>
    { s with sched := .irq .a :: s.sched, cur := .a, a := armedFor (bytes.getD 0 0) s.a }
  | some .evt => { s with sched := .env .a .evt bytes :: s.sched }
  | some .msg => { s with sched := .env .a .msg bytes :: s.sched }
  | some .addr => { s with sched := .env .a .addr bytes :: s.sched }
  | some .frame => { s with sched := .env .a .frame bytes :: s.sched }
  | some .hostop | none =>
    { s with
      sched := .main .a :: s.sched,
      a := { s.a with ctx := .main, busy := .idle, prog := bytes :: s.a.prog } }

end Sys2Proof.Machine
end

