-- ==== Sys2Proof/Machine/Step.lean ====
section
/-! DEFINITION. One step of the system: the agent whose turn it is moves (R14, R71). -/

namespace Sys2Proof.Machine

/-- One step. -/
def step (s : State) : Host.Outcome State Fault Refusal :=
  match fetch s with
  | .run i s => exec i s
  | .goOn s => .next (resume s)
  | .event c d s => .next (envEvent c d s)
  | .foreign s => .next (foreignGoesOn s)
  | .idle s => .next s
  | .reject r => .refused r

/-- `s` with a table row's word placed where the next step fetches it (log 4, log 6). -/
def State.withFetchWord (s : State) (nbits w : Nat) : State := placeWord s nbits w

end Sys2Proof.Machine
end

