-- ==== Sys2Proof/Safety.lean ====
section
/-! DEFINITION. The terms claims are stated in: the invariants of a node and of the system, which operations a
callback may call, and executions with the fairness the model keeps (R16, R305). -/

namespace Sys2Proof.Machine

/-- R189 (a) to (e). -/
structure Node.AssemblyInv (n : Node) : Prop where
  cnt_le : n.cnt.toNat ≤ 4
  lanes_zero : ∀ i, n.cnt.toNat ≤ i → i < 4 → lane n.acc i = 0
  done_fired : n.done = true → n.fired = true
  full_fired : n.cnt = 4 → n.fired = true
  fired_cnt : n.fired = true → 1 ≤ n.cnt.toNat

/-- Where a controller's registers rest and where they stand inside an operation (R22, R23): START and
STOP only inside `begin_as_controller` and `end`, C_OWN clear in IDLE and set in ADDRESS and DATA. -/
structure Node.ControllerInv (n : Node) : Prop where
  idle_not_owned : n.cState = .idle → n.cOwn = false
  open_owned : n.cState = .address ∨ n.cState = .data → n.cOwn = true
  inside :
    match n.busy with
    | .atStart _ rep => n.cState = .start ∧ n.cOwn = rep
    | .atAddress _ => n.cState = .address
    | .atData _ _ => n.cState = .data
    | .atStop _ => n.cState = .stop ∧ n.cOwn = true
    | .idle | .readByte | .pollEvent _ | .recvAddress | .recvAddressExpired | .recvData | .recvDataExpired =>
      n.cState ≠ .start ∧ n.cState ≠ .stop

/-- What every step keeps of a node. -/
structure Node.Inv (n : Node) : Prop where
  assembly : n.AssemblyInv
  controller : n.ControllerInv
  /-- 0 to 4 (R24, R37) -/
  csI_le : n.csI.toNat ≤ 4
  pbI_le : n.pbI.toNat ≤ 4
  /-- CTX is MAIN outside a handler run (R36), and a run is one step (R67) -/
  ctx_main : n.ctx = .main
  /-- SLA is 1 to 127 (R10) -/
  sla_ne : n.sla ≠ 0

/-- EV_TIMEOUT is latched at neither node (R98). -/
abbrev State.NoTimeoutLatched (s : State) : Prop := ∀ n, (s.node n).pEvt ≠ some Config.evTimeout

/-- The invariant of the system. -/
structure State.Inv (s : State) : Prop where
  a : s.a.Inv
  b : s.b.Inv

/-- How many of the two nodes own a transaction that they have not closed (R23). -/
def State.owned (s : State) : Nat := s.a.cOwn.toNat + s.b.cOwn.toNat

/-- Every fresh start on the wire is closed by a stop or still owned (R127). -/
abbrev State.Balanced (s : State) : Prop :=
  s.wire.count .S = s.wire.count .P + s.owned

/-- The operations a callback may call (R197). -/
def Permitted : Instr → Bool
  | .takeMessage | .messageReady | .build _ | .buildWithAux _ _ | .isValid _ | .parity31 _
  | .getFlags _ | .getAux _ | .hasFlag _ _ | .dispatch _ => true
  | _ => false

/-- The pure functions of Message Framing with their values (R210 to R222). -/
def pureValue : Instr → Option Result
  | .build flags => some (.message (buildWithAux flags 0))
  | .buildWithAux flags aux => some (.message (buildWithAux flags aux))
  | .isValid m => some (.bool (isValid m))
  | .parity31 w => some (.bit (parity31 w))
  | .getFlags m => some (.flags (m.extractLsb' 16 16))
  | .getAux m => some (.aux (m.extractLsb' 12 4))
  | .hasFlag m i => some (.bool (m.getLsbD (16 + i.toNat)))
  | .dispatch m => some (.optMessage (if isValid m then some m else none))
  | _ => none

/-- The code an EVT row stands for, with the data byte it carries (R96, R143). -/
def eventOf : Instr → Option (Byte × Byte)
  | .evStart => some (0x08, 0)
  | .evRstart => some (0x10, 0)
  | .evSlawAck => some (0x18, 0)
  | .evSlawNack => some (0x20, 0)
  | .evTxdAck => some (0x28, 0)
  | .evTxdNack => some (0x30, 0)
  | .evArbLost => some (0x38, 0)
  | .evOwnMatch => some (0x60, 0)
  | .evOwnMatchArb => some (0x68, 0)
  | .evGcMatch => some (0x70, 0)
  | .evGcMatchArb => some (0x78, 0)
  | .evRxdAckOwn d => some (0x80, d)
  | .evRxdNackOwn d => some (0x88, d)
  | .evRxdAckGc d => some (0x90, d)
  | .evRxdNackGc d => some (0x98, d)
  | .evStopRs => some (0xA0, 0)
  | _ => none

/-- The handler's step for code `c` is enabled (R180, R250). -/
def Node.Ready (n : Node) (c : Byte) : Prop :=
  n.role = .peripheral ∧ n.asyncEn = true ∧ n.ie = true ∧ n.ctx = .main ∧ n.pEvt = some c

/-- The node runs a controller operation: its role and context (R264). -/
def Node.CanControl (n : Node) : Prop := n.role = .controller ∧ n.ctx = .main

/-- The node runs a peripheral operation of the main context (R264). -/
def Node.CanServe (n : Node) : Prop := n.role = .peripheral ∧ n.ctx = .main

/-- The step that hands the turn on: the schedule loses its head and its node moves. -/
def State.turnOf (s : State) (n : NodeId) (rest : List Turn) : State := { s with sched := rest, cur := n }

/-! ## Executions and fairness (R16, R305) -/

/-- An execution of the system: its states, and the turn the schedule gives before each step. -/
structure Execution where
  state : Nat → State
  turn : Nat → Turn
  runs : ∀ k, step { state k with sched := [turn k] } = .next (state (k + 1))

/-- The condition that node `n`'s busy-wait waits for holds (R12): the bus is not held and, in the open
composition, ENV has answered (R120, R134); an event is latched (R131, R132); a poll's expiry is to be
serviced. -/
def State.waitOver (s : State) (n : NodeId) : Bool :=
  match (s.node n).busy with
  | .idle => false
  | .atStart _ _ | .atAddress _ | .atData _ _ =>
    match s.comp with
    | .closed => !(s.node n.other).holds
    | .openBus => !(s.node n).answers.isEmpty
  | .atStop _ =>
    match s.comp with
    | .closed => !(s.node n.other).holds
    | .openBus => true
  | .readByte | .pollEvent _ | .recvAddress | .recvData => (s.node n).pEvt.isSome
  | .recvAddressExpired | .recvDataExpired => true

/-- Node `n`'s main program is in a poll and no event is latched: the poll may expire (R132). -/
def State.mayExpire (s : State) (n : NodeId) : Bool :=
  match (s.node n).busy with
  | .pollEvent _ | .recvAddress | .recvData => (s.node n).pEvt.isNone
  | .idle | .atStart _ _ | .atAddress _ | .atData _ _ | .atStop _ | .readByte | .recvAddressExpired
  | .recvDataExpired => false

/-- The fairness the model keeps. -/
structure Execution.Fair (e : Execution) : Prop where
  /-- "a busy-wait whose condition becomes and stays true eventually ends" (R16): its main program gets a turn,
  unless the condition fails again -/
  waits : ∀ n k, ∃ j, k ≤ j ∧ (e.turn j = .main n ∨ (e.state j).waitOver n = false)
  /-- a poll expires "rather than hanging forever" (R132, R176), unless an event is latched or the poll ends -/
  polls : ∀ n k, ∃ j, k ≤ j ∧
    ((∃ rest, e.turn j = .env n .evt (Config.evTimeout :: rest)) ∨ (e.state j).mayExpire n = false)

end Sys2Proof.Machine
end

