-- ==== Sys2Proof/Certificates/Slice0/Obligations.lean ====
section
/-! DEFINITION. The statements for the provers. Each docstring names the rules it formalises. A statement
about one operation gives the whole next state as a change of the state before it, so everything not
named is unchanged: that is its frame. -/

open Sys2Proof Sys2Proof.Machine

/-- State.reset has two equal nodes, each with ROLE = NONE, CTX = MAIN, C_STATE = IDLE, C_OWN = 0, P_STATE = P_IDLE, P_GC = 0, P_ACKEN = 1, P_EVT none, ASYNC_EN = 0, CNT = 0, ACC = 0, DONE = 0, CB none, FIRED = 0, and both histories empty. That these values stand before Link Configuration is the model's choice (log 2). [10_state.md, 70_reset_and_hazards.md] -/
def Obligations.ResetIsTheLaunchState : Prop :=
  State.reset.a = State.reset.b ∧ State.reset.wire = [] ∧ State.reset.cblog = [] ∧
  (let n := State.reset.a
   n.role = .none ∧ n.ctx = .main ∧ n.cState = .idle ∧ n.cOwn = false ∧ n.pState = .idle ∧ n.pGc = false ∧
   n.pAcken = true ∧ n.pEvt = none ∧ n.asyncEn = false ∧ n.cnt = 0 ∧ n.acc = 0 ∧ n.done = false ∧
   n.cb = none ∧ n.fired = false)

/-- State.reset meets State.Inv, EV_TIMEOUT is latched at neither node, and every start on its wire is closed or owned. That the registers hold values before Link Configuration, and these, is the model's choice (log 2, log 3): R51 and R281 say they hold none. [10_state.md, 70_reset_and_hazards.md] -/
def Obligations.ResetMeetsTheInvariant : Prop :=
  State.reset.Inv ∧ State.reset.NoTimeoutLatched ∧ State.reset.Balanced

/-- If s meets State.Inv (the Receive Assembly invariants, C_STATE consistent with C_OWN and with the operation in progress, CS_I and PB_I at most 4, CTX = MAIN, SLA not 0) and a step answers t, then t meets it, whichever agent moves and whatever it does. If EV_TIMEOUT is latched at neither node, then at neither after a step, unless the turn is ENV's injection of that very byte (R143 admits every byte; that R98 does not speak of it is the model's reading, log 7). [10_state.md, R98, R143, R187, R189, R22, R23] -/
def Obligations.StepKeepsTheInvariant : Prop :=
  (∀ s t : State, s.Inv → step s = .next t → t.Inv) ∧
  (∀ s t : State, s.NoTimeoutLatched → (∀ n d turns, s.sched ≠ .inject n Config.evTimeout d :: turns) →
    step s = .next t → t.NoTimeoutLatched)

/-- After init_peripheral, and after every step from a state where both nodes have them: CNT at most 4, lanes CNT to 3 of ACC zero, DONE implies FIRED, CNT = 4 implies FIRED, FIRED implies CNT at least 1. [R189] -/
def Obligations.StepKeepsTheAssemblyInvariant : Prop :=
  (∀ (sla : BitVec 7) (s t : State), exec (.initPeripheral sla) s = .next t → t.self.AssemblyInv) ∧
  (∀ s t : State, s.a.AssemblyInv → s.b.AssemblyInv → step s = .next t →
    t.a.AssemblyInv ∧ t.b.AssemblyInv)

/-- In the closed composition, from a state that meets State.Inv, a step keeps: the number of S symbols on WIRE is the number of P symbols plus the number of nodes with C_OWN = 1. Repeated starts count for neither. [R127, R23, R52] -/
def Obligations.ClosedBusKeepsStartsAndStopsBalanced : Prop :=
  ∀ s t : State, s.Inv → s.comp = .closed → s.Balanced → step s = .next t → t.Balanced

/-- A step leaves CBLOG as it is, or appends exactly one entry, the moving node's ACC after the step; then the turn was an interrupt context's, FIRED is 1 and a callback is registered. [R53, R196, R198] -/
def Obligations.OnlyTheHandlerCallsBack : Prop :=
  ∀ s t : State, step s = .next t →
    t.cblog = s.cblog ∨
      (t.cblog = s.cblog ++ [t.self.acc] ∧ t.self.fired = true ∧ t.self.cb.isSome = true ∧
        ∃ n rest, s.sched = .irq n :: rest)

/-- If a step answers t, every node whose ROLE was not NONE has the same ROLE in t. [R21, R233] -/
def Obligations.RolesNeverChange : Prop :=
  ∀ (s t : State) (n : NodeId), step s = .next t → (s.node n).role ≠ .none →
    (t.node n).role = (s.node n).role

/-- A host operation other than enable_async and init_peripheral that answers a next state leaves CNT and ACC of both nodes unchanged, and so does a main program that goes on with the operation it is inside. [R73] -/
def Obligations.MainContextNeverWritesTheAssembly : Prop :=
  (∀ (i : Instr) (s t : State), i.format = .hostop → (∀ c, i ≠ .enableAsync c) → (∀ a, i ≠ .initPeripheral a) →
    exec i s = .next t → ∀ n, (t.node n).cnt = (s.node n).cnt ∧ (t.node n).acc = (s.node n).acc) ∧
  (∀ (s : State) (n : NodeId), ((resume s).node n).cnt = (s.node n).cnt ∧ ((resume s).node n).acc = (s.node n).acc)

/-- In the closed composition, if each node's P_EVT is none or one of 0x60, 0x70, 0x80, 0x88, 0x90, 0x98, 0xA0, then so it is after a step: in particular never 0x68 or 0x78. [R133, R142] -/
def Obligations.ClosedPeripheralProducesItsOwnCodes : Prop :=
  ∀ s t : State, s.comp = .closed →
    (∀ n c, (s.node n).pEvt = some c → c ∈ [0x60, 0x70, 0x80, 0x88, 0x90, 0x98, 0xA0]) →
    step s = .next t →
    (∀ n c, (t.node n).pEvt = some c → c ∈ [0x60, 0x70, 0x80, 0x88, 0x90, 0x98, 0xA0])

/-- For every well-formed operation, read in its own format with any bytes after it, decoding its encoding gives the operation and the bytes left; a handler branch is read under a byte counter at which some code selects it. The operand layout is the model's (log 5). [30_encoding.md, R101, R96, R94, R91, R93] -/
def Obligations.DecodingAnEncodedOperationGivesItBack : Prop :=
  ∀ (i : Instr) (cnt : BitVec 3) (rest : List Byte), WellFormed i = true →
    (i.format = .irq → ∃ c, irqBranch cnt c = i) → decode i.format cnt (encode i ++ rest) = .ok (i, rest)

/-- Whatever bytes a format's decoder accepts, the operation it gives is well-formed, is of that format, and encodes to exactly the bytes consumed: each byte string has one meaning. The operand layout is the model's (log 5). [30_encoding.md, R99, R104] -/
def Obligations.EncodingADecodedOperationGivesItBack : Prop :=
  ∀ (f : Format) (cnt : BitVec 3) (bs rest : List Byte) (i : Instr), decode f cnt bs = .ok (i, rest) →
    WellFormed i = true ∧ i.format = f ∧ encode i ++ rest = bs

/-- The selector 0x09 with the bytes 01 00 00 80 is send(0x80000001), 0x12 with 00 04 and 13 is build_with_aux(0x0400, 0x13), the event byte 0x70 is EV_GC_MATCH, the handler code 0x98 at CNT = 3 is IRQ_DATA_NACK with g = 1 and at CNT = 4 the default branch, the word 0x04003001 is MSG with flags 0x0400, aux 3, no reserved bit and parity bit 1, the word 0x00000006 is MSG with two reserved bits set, the address byte 0x54 is ADDR(0x2A, 0), 54 and four bytes is FRAME, and 55 and four bytes is refused for its read bit. The operand bytes' layout is the model's (log 5). [R101, R96, R180, R91, R94, R93, R104] -/
def Obligations.SpecEncodingsDecode : Prop :=
  decode .hostop 0 [0x09, 0x01, 0x00, 0x00, 0x80] = .ok (.send 0x80000001, []) ∧
  decode .hostop 0 [0x12, 0x00, 0x04, 0x13] = .ok (.buildWithAux 0x0400 0x13, []) ∧
  decode .evt 0 [0x70] = .ok (.evGcMatch, []) ∧
  decode .irq 3 [0x98] = .ok (.irqDataNack true, []) ∧
  decode .irq 4 [0x98] = .ok (.irqOther 0x98, []) ∧
  decode .msg 0 [0x01, 0x30, 0x00, 0x04] = .ok (.msg 0x0400 3 1, []) ∧
  decode .msg 0 [0x06, 0x00, 0x00, 0x00] = .ok (.msg 0 0 6, []) ∧
  decode .addr 0 [0x54] = .ok (.addr 0x2A false, []) ∧
  decode .frame 0 [0x54, 0x01, 0x30, 0x00, 0x04] = .ok (.frame 0x2A 0x04003001, []) ∧
  decode .frame 0 [0x55, 0x01, 0x30, 0x00, 0x04] = .error .readDirection

/-- When the turn is node n's main program's, which is in MAIN. Inside no operation: if its next call's bytes decode to i, the step is exec of i at the state with the turn and the call taken off; if they are no operation of R101, it is refused as an unknown operation (log 5), a selector outside 0x01 to 0x18 among them; with no call left only the schedule changes. Inside an operation: the step is resume, one step of going on with it. [R14, R71, R104, R247] -/
def Obligations.StepRunsTheMainProgramsNextCall : Prop :=
  ∀ (s : State) (n : NodeId) (turns : List Turn), s.sched = .main n :: turns → (s.node n).ctx = .main →
    ((s.node n).busy = .idle →
      (∀ bs calls, (s.node n).prog = bs :: calls →
        (∀ i rest, decode .hostop (s.node n).cnt bs = .ok (i, rest) →
          step s = exec i ((s.turnOf n turns).mapNode n fun x => { x with prog := calls })) ∧
        (∀ e, decode .hostop (s.node n).cnt bs = .error e → step s = .refused .unknownOperation) ∧
        (∀ op rest, bs = op :: rest → (op.toNat = 0 ∨ 0x18 < op.toNat) → step s = .refused .unknownOperation)) ∧
      ((s.node n).prog = [] → step s = .next (s.turnOf n turns))) ∧
    ((s.node n).busy ≠ .idle → step s = .next (resume (s.turnOf n turns)))

/-- When the turn is node n's interrupt context's: with ROLE = PERIPHERAL, ASYNC_EN = 1, IE = 1, CTX = MAIN and P_EVT = some(c) the step is exec of the branch c selects at CNT; with any of these failing nothing but the schedule changes, so a masked event stays latched. [R180, R250] -/
def Obligations.StepRunsTheSelectedHandlerBranch : Prop :=
  ∀ (s : State) (n : NodeId) (turns : List Turn), s.sched = .irq n :: turns →
    (∀ c, (s.node n).Ready c → step s = exec (irqBranch (s.node n).cnt c) (s.turnOf n turns)) ∧
    ((∀ c, ¬ (s.node n).Ready c) → step s = .next (s.turnOf n turns))

/-- 0x60, 0x68, 0x70, 0x78 select IRQ_ADDR_MATCH; 0x80 and 0x90 IRQ_DATA_ACK while CNT < 3; 0x88 and 0x98 IRQ_DATA_NACK while CNT < 4; 0xA0 IRQ_STOP; every other pair of code and CNT IRQ_OTHER. The branch selected carries the code's own bits. [R97, R99, R180] -/
def Obligations.HandlerBranchesAreSelectedByCodeAndCount : Prop :=
  ∀ (cnt : BitVec 3) (c : Byte),
    (c ∈ [0x60, 0x68, 0x70, 0x78] → ∃ g a, irqBranch cnt c = .irqAddrMatch g a ∧ addrMatchCode g a = c) ∧
    (c ∈ [0x80, 0x90] → cnt.toNat < 3 → ∃ g, irqBranch cnt c = .irqDataAck g ∧ dataAckCode g = c) ∧
    (c ∈ [0x88, 0x98] → cnt.toNat < 4 → ∃ g, irqBranch cnt c = .irqDataNack g ∧ dataNackCode g = c) ∧
    (c = 0xA0 → irqBranch cnt c = .irqStop) ∧
    (c ∉ [0x60, 0x68, 0x70, 0x78, 0xA0] → (c ∈ [0x80, 0x90] → 3 ≤ cnt.toNat) → (c ∈ [0x88, 0x98] → 4 ≤ cnt.toNat) →
      irqBranch cnt c = .irqOther c)

/-- When the turn is ENV's at node n and its bytes decode to i, the step is exec of i; a code that is no row of the table is latched by a listening peripheral of the open composition all the same; a FRAME whose address byte has the read bit is refused as ReadDirection; with fewer bytes than the format has ENV presents nothing and only the schedule changes. ENV's injection of any code c, EV_TIMEOUT's byte among them, with data byte d is envEvent c d. A foreign controller's turn is foreignGoesOn. That EVT, MSG, ADDR and FRAME rows are executed as ENV's steps is the model's reading (log 7, log 8, log 12). [R14, R99, R104, R143] -/
def Obligations.StepPresentsWhatEnvGives : Prop :=
  ∀ (s : State) (n : NodeId) (turns : List Turn),
    (∀ (f : EnvFormat) (bs : List Byte), s.sched = .env n f bs :: turns →
      (∀ i rest, decode f.format (s.node n).cnt bs = .ok (i, rest) → step s = exec i (s.turnOf n turns)) ∧
      (∀ c d rest, f = .evt → bs = c :: d :: rest → c ∉ Config.eventCodes → c ≠ Config.evTimeout →
        s.comp = .openBus → (s.node n).role = .peripheral → (s.node n).pEvt = none →
        step s = .next ((s.turnOf n turns).mapNode n fun x => { x with pEvt := some c })) ∧
      (∀ a b0 b1 b2 b3 rest, f = .frame → bs = a :: b0 :: b1 :: b2 :: b3 :: rest → a.getLsbD 0 = true →
        step s = .refused .readDirection) ∧
      (decode f.format (s.node n).cnt bs = .error .truncated → step s = .next (s.turnOf n turns))) ∧
    (∀ c d, s.sched = .inject n c d :: turns → step s = .next (envEvent c d (s.turnOf n turns))) ∧
    (s.sched = .foreign n :: turns → step s = .next (foreignGoesOn (s.turnOf n turns)))

/-- For each of the codes 0x60, 0x68, 0x70, 0x78 with the handler's step enabled, the branch run sets CNT = 0, ACC = 0, DONE = 0, FIRED = 0, P_ACKEN = 1, P_EVT none and changes nothing else (CB is kept, CTX is MAIN again). [R181] -/
def Obligations.AddressMatchResetsTheAssembly : Prop :=
  ∀ c ∈ ([0x60, 0x68, 0x70, 0x78] : List Byte), ∀ s : State, s.self.Ready c →
    exec (irqBranch s.self.cnt c) s = .next (s.mapSelf fun n =>
      { n with cnt := 0, acc := 0, done := false, fired := false, pAcken := true, pEvt := none })

/-- For 0x80 and 0x90 with the handler's step enabled and CNT < 3: lane CNT of ACC becomes P_DR, CNT is incremented, P_ACKEN is 1 while the new CNT is below 3 and 0 otherwise, P_EVT none; nothing else changes. [R183] -/
def Obligations.AcknowledgedByteIsStoredInItsLane : Prop :=
  ∀ c ∈ ([0x80, 0x90] : List Byte), ∀ s : State, s.self.Ready c → s.self.cnt.toNat < 3 →
    exec (irqBranch s.self.cnt c) s = .next (s.mapSelf fun n =>
      { n with
        acc := setLane n.acc n.cnt.toNat n.pDr, cnt := n.cnt + 1, pAcken := decide (n.cnt.toNat + 1 < 3),
        pEvt := none })

/-- For a lane index below 4, the lane written reads back the byte and every other lane reads as before. [R12, R182] -/
def Obligations.LaneStoreReplacesOneLane : Prop :=
  ∀ (w : Word) (b : Byte) (i j : Nat), i < 4 → j < 4 →
    lane (setLane w i b) j = if j = i then b else lane w j

/-- For 0x88 and 0x98 with the handler's step enabled and CNT < 4: lane CNT becomes P_DR, CNT is incremented, DONE = FIRED = 1, P_ACKEN = 1, P_EVT none. With CB = none nothing else changes. With CB = some(f) and a body that calls only what a callback may, CBLOG gains the new ACC once, and DONE is 0 exactly if the body took the message. [R184] -/
def Obligations.LastByteCompletesTheMessage : Prop :=
  ∀ c ∈ ([0x88, 0x98] : List Byte), ∀ s : State, s.self.Ready c → s.self.cnt.toNat < 4 →
    (s.self.cb = none →
      exec (irqBranch s.self.cnt c) s = .next (s.mapSelf fun n =>
        { n with
          acc := setLane n.acc n.cnt.toNat n.pDr, cnt := n.cnt + 1, done := true, fired := true,
          pAcken := true, pEvt := none })) ∧
    (∀ f m, s.self.cb = some f → m = setLane s.self.acc s.self.cnt.toNat s.self.pDr →
      (∀ i ∈ (s.self.hostFn f).calls m, Permitted i = true) →
      ∃ r, exec (irqBranch s.self.cnt c) s = .next ((s.emitCb m).mapSelf fun n =>
        { n with
          acc := m, cnt := n.cnt + 1, fired := true, pAcken := true, pEvt := none, cbRet := r,
          done := !((s.self.hostFn f).calls m).contains .takeMessage }))

/-- For 0xA0 with the handler's step enabled: if CNT = 4 and FIRED = 0 then DONE = FIRED = 1 and the callback, if any, is invoked with ACC; in every case P_ACKEN = 1 and P_EVT none; CNT and ACC never change. [R185] -/
def Obligations.StopCompletesOnlyAnUnfiredMessage : Prop :=
  ∀ s : State, s.self.Ready 0xA0 →
    (¬ (s.self.cnt = 4 ∧ s.self.fired = false) →
      exec .irqStop s = .next (s.mapSelf fun n => { n with pAcken := true, pEvt := none })) ∧
    (s.self.cnt = 4 → s.self.fired = false → s.self.cb = none →
      exec .irqStop s = .next (s.mapSelf fun n =>
        { n with done := true, fired := true, pAcken := true, pEvt := none })) ∧
    (∀ f, s.self.cnt = 4 → s.self.fired = false → s.self.cb = some f →
      (∀ i ∈ (s.self.hostFn f).calls s.self.acc, Permitted i = true) →
      ∃ r, exec .irqStop s = .next ((s.emitCb s.self.acc).mapSelf fun n =>
        { n with
          fired := true, pAcken := true, pEvt := none, cbRet := r,
          done := !((s.self.hostFn f).calls n.acc).contains .takeMessage }))

/-- In every state whose moving node meets the Receive Assembly invariants, the stop branch sets P_ACKEN = 1 and P_EVT none and nothing else. [R187, R189] -/
def Obligations.StopBranchOnlyRearmsUnderTheAssemblyInvariants : Prop :=
  ∀ s : State, s.self.AssemblyInv → s.self.Ready 0xA0 →
    exec .irqStop s = .next (s.mapSelf fun n => { n with pAcken := true, pEvt := none })

/-- For every code that no earlier branch takes (unlisted and controller-side codes, 0x80 and 0x90 with CNT at least 3, 0x88 and 0x98 with CNT at least 4) with the handler's step enabled: P_ACKEN = 1, P_EVT none, and nothing else changes. [R186] -/
def Obligations.OtherEventsAreIgnored : Prop :=
  ∀ (c : Byte) (s : State), s.self.Ready c → c ∉ [0x60, 0x68, 0x70, 0x78, 0xA0] →
    (c ∈ [0x80, 0x90] → 3 ≤ s.self.cnt.toNat) → (c ∈ [0x88, 0x98] → 4 ≤ s.self.cnt.toNat) →
    exec (irqBranch s.self.cnt c) s = .next (s.mapSelf fun n => { n with pAcken := true, pEvt := none })

/-- If the last byte completes a message and the registered body's calls are permitted ones followed by a host operation that a callback may not call, the run is refused as BlockingInHandler. rearm is among them: that is the model's reading of U28, since R130 admits either context (log 14). [R197, R247] -/
def Obligations.CallbackMayNotCallOtherOperations : Prop :=
  ∀ c ∈ ([0x88, 0x98] : List Byte), ∀ (s : State) (f : Byte) (pre post : List Instr) (i : Instr),
    s.self.Ready c → s.self.cnt.toNat < 4 → s.self.cb = some f →
    (s.self.hostFn f).calls (setLane s.self.acc s.self.cnt.toNat s.self.pDr) = pre ++ i :: post →
    (∀ j ∈ pre, Permitted j = true) → i.format = .hostop → Permitted i = false →
    exec (irqBranch s.self.cnt c) s = .refused .blockingInHandler

/-- Open composition, a peripheral with the asynchronous path and interrupts enabled and nothing latched, with a callback registered or none, from any assembly state: ENV presents an address match, three ack-variant data events and one nack-variant with bytes b0..b3, each followed by a handler turn. Then CNT = 4, ACC = b0 | b1<<8 | b2<<16 | b3<<24, FIRED = 1, P_ACKEN = 1, P_EVT none, and with a callback of permitted calls CBLOG has gained exactly that message and DONE is 0 exactly if the callback took it, with none CBLOG is as before and DONE is 1. No byte of an earlier assembly is left. [R201, R202] -/
def Obligations.FiveEventsYieldOneCallback : Prop :=
  ∀ (s : State) (n : NodeId) (c0 c1 c2 c3 c4 b0 b1 b2 b3 : Byte) (turns : List Turn),
    c0 ∈ [0x60, 0x68, 0x70, 0x78] → c1 ∈ [0x80, 0x90] → c2 ∈ [0x80, 0x90] → c3 ∈ [0x80, 0x90] → c4 ∈ [0x88, 0x98] →
    s.comp = .openBus → (s.node n).role = .peripheral → (s.node n).asyncEn = true → (s.node n).ie = true →
    (s.node n).ctx = .main → (s.node n).pEvt = none →
    (∀ f, (s.node n).cb = some f → ∀ i ∈ ((s.node n).hostFn f).calls (b3 ++ b2 ++ b1 ++ b0), Permitted i = true) →
    s.sched =
      .env n .evt [c0] :: .irq n :: .env n .evt [c1, b0] :: .irq n :: .env n .evt [c2, b1] :: .irq n ::
        .env n .evt [c3, b2] :: .irq n :: .env n .evt [c4, b3] :: .irq n :: turns →
    ∃ t, core.run 10 s = .next t ∧
      (t.node n).acc = b3 ++ b2 ++ b1 ++ b0 ∧ (t.node n).cnt = 4 ∧
      (t.node n).fired = true ∧ (t.node n).pAcken = true ∧ (t.node n).pEvt = none ∧
      (∀ f, (s.node n).cb = some f → t.cblog = s.cblog ++ [b3 ++ b2 ++ b1 ++ b0] ∧
        (t.node n).done = !(((s.node n).hostFn f).calls (b3 ++ b2 ++ b1 ++ b0)).contains .takeMessage) ∧
      ((s.node n).cb = none → t.cblog = s.cblog ∧ (t.node n).done = true)

/-- A phase waits on the closed bus while the peer, a peripheral, has an event latched, and on the open bus, the stop apart, while ENV has given no answer (log 7). Then the phase primitives wait; begin_as_controller (fresh or repeated), write_byte, send and, held, end stand waiting with nothing on the wire and the peer untouched; and the main program inside a waiting operation spins without any change. Otherwise its next turn ends the phase. The answer r is the peer's on the closed bus (the start 0x08 or 0x10; the address 0x18 with k = 1 exactly if the peer is a peripheral armed with ack and the byte is its SLA_W or the general call, else 0x20; a data byte 0x28 with k = 1 exactly if the peer is addressed and armed with ack, else 0x30), which latches its event in the same phase, and ENV's oldest answer on the open bus. A start answered 0x08 or 0x10 gives C_STATE = ADDRESS, C_OWN = 1 and the address phase next. Otherwise the operation is over: a call with result r, C_STATE = ERROR, C_OWN = 0, a send with AddressNotAcknowledged(r), IDLE. A call is over at its address or data phase with result r, C_STATE as it was for 0x18, or 0x28, and ERROR otherwise, C_OWN cleared exactly for 0x38. A send goes on to byte 0, from byte CS_I to the next one, and after byte 3 to the stop phase; after an error to the stop phase, with r = 0x38 to IDLE at once, with AddressNotAcknowledged(r) or ByteNotAcknowledged(CS_I). A stop gives P, IDLE, C_OWN = 0, the operation's result. The hold is general knowledge of the spec's own (R134 says so; log 19); answers outside R120's sets are the model's widening (log 7), k and a send's start for them its choice (log 23), CS_I outside the data phases log 24. [R120, R122, R126, R127, R134, R135, R136, R138, R139, R140, R160, R161] -/
def Obligations.LatchedEventHoldsTheBus : Prop :=
  ∀ s : State,
    let held : Bool := s.peer.role == .peripheral && s.peer.pEvt.isSome
    let w := slaW s.self.sla
    let hit : Bool := s.peer.role == .peripheral && s.peer.pAcken && (w == slaW s.peer.sla || w == 0)
    let addressed : Bool := s.peer.role == .peripheral && s.peer.pState == .addressed
    let drawn (r : Byte) (y : Sym) (u : State) : Prop := s.comp = .openBus ∧ ∃ rest, s.self.answers = r :: rest ∧
      u = (s.emit y).mapSelf fun n => { n with answers := rest }
    ((s.comp = .closed ∧ held = true) ∨ (s.comp = .openBus ∧ s.self.answers = []) →
      (∀ rep a b, busStart rep s = none ∧ busAddress a s = none ∧ busData b s = none) ∧
      (s.self.CanControl →
        (s.self.cState = .idle → exec (.beginAsController true) s =
          .next (s.mapSelf fun n => { n with cState := .start, busy := .atStart .call false })) ∧
        (s.self.cState = .address ∨ s.self.cState = .data → s.self.cOwn = true → exec (.beginAsController true) s =
          .next (s.mapSelf fun n => { n with cState := .start, busy := .atStart .call true })) ∧
        (∀ m, s.self.cState = .idle → exec (.send m) s =
          .next (s.mapSelf fun n => { n with cState := .start, busy := .atStart (.send m) false })) ∧
        (∀ b, s.self.cState = .address ∨ s.self.cState = .data → s.self.cOwn = true → exec (.writeByte b) s =
          .next (s.mapSelf fun n => { n with cState := .data, busy := .atData .call b }))) ∧
      (∀ t rep b, s.self.busy = .atStart t rep ∨ s.self.busy = .atAddress t ∨ s.self.busy = .atData t b →
        resume s = s)) ∧
    (s.comp = .closed → held = true →
      busStop s = none ∧
      (s.self.CanControl → s.self.cState ≠ .idle → s.self.cOwn = true → exec .endTransaction s =
        .next (s.mapSelf fun n => { n with cState := .stop, busy := .atStop .unit })) ∧
      (∀ r, s.self.busy = .atStop r → resume s = s)) ∧
    (∀ t rep r u, s.self.busy = .atStart t rep →
      (s.comp = .closed ∧ held = false ∧ r = (if rep then 0x10 else 0x08) ∧
          u = ((s.emit (if rep then .Sr else .S)).mapPeer fun n =>
            if rep && addressed then { n with pEvt := some 0xA0, pState := .idle } else n)) ∨
        drawn r (if rep then .Sr else .S) u →
      (r = 0x08 ∨ r = 0x10 → resume s = u.mapSelf fun n =>
        { n with busy := .atAddress t, cState := .address, cOwn := true }) ∧
      (¬ (r = 0x08 ∨ r = 0x10) →
        (t = .call → resume s = u.mapSelf fun n =>
          { n with busy := .idle, ret := .code r, cState := .error, cOwn := false }) ∧
        (∀ m, t = .send m → resume s = u.mapSelf fun n =>
          { n with
            busy := .idle, ret := .sent (some (.addressNotAcknowledged r)), cState := .idle, cOwn := false }))) ∧
    (∀ t r u, s.self.busy = .atAddress t →
      (s.comp = .closed ∧ held = false ∧ r = (if hit then 0x18 else 0x20) ∧ u = ((s.emit (.A w hit)).mapPeer fun n =>
          if hit then
            { n with pState := .addressed, pGc := w == 0, pEvt := some (if w = 0 then 0x70 else 0x60) }
          else n)) ∨
        drawn r (.A w (r == 0x18)) u →
      (t = .call → resume s = u.mapSelf fun n =>
        { n with
          busy := .idle, ret := .code r, cState := if r = 0x18 then n.cState else .error,
          cOwn := n.cOwn && !(r == 0x38) }) ∧
      (∀ m, t = .send m →
        (r = 0x18 → resume s = u.mapSelf fun n =>
          { n with csI := 0, cState := .data, busy := .atData t (m.extractLsb' 0 8) }) ∧
        (r = 0x38 → resume s = u.mapSelf fun n =>
          { n with
            cState := .idle, cOwn := false, busy := .idle, ret := .sent (some (.addressNotAcknowledged r)) }) ∧
        (r ≠ 0x18 → r ≠ 0x38 → s.self.cOwn = true → resume s = u.mapSelf fun n =>
          { n with cState := .stop, busy := .atStop (.sent (some (.addressNotAcknowledged r))) }))) ∧
    (∀ t b r u, s.self.busy = .atData t b →
      (s.comp = .closed ∧ held = false ∧ r = (if addressed && s.peer.pAcken then 0x28 else 0x30) ∧
          u = ((s.emit (.D b (addressed && s.peer.pAcken))).mapPeer fun n =>
            if addressed then
              if n.pAcken then { n with pDr := b, pEvt := some (if n.pGc then 0x90 else 0x80) }
              else
                { n with
                  pDr := b, pEvt := some (if n.pGc then 0x98 else 0x88),
                  pState := if Config.pDeaddressOnNack then .idle else .addressed }
            else n)) ∨
        drawn r (.D b (r == 0x28)) u →
      (t = .call → resume s = u.mapSelf fun n =>
        { n with
          busy := .idle, ret := .code r, cState := if r = 0x28 then n.cState else .error,
          cOwn := n.cOwn && !(r == 0x38) }) ∧
      (∀ m, t = .send m → s.self.cState = .data → s.self.cOwn = true →
        (r = 0x28 → s.self.csI.toNat < 3 → resume s = u.mapSelf fun n =>
          { n with csI := n.csI + 1, busy := .atData t (m.extractLsb' (8 * (n.csI.toNat + 1)) 8) }) ∧
        (r = 0x28 → 3 ≤ s.self.csI.toNat → resume s = u.mapSelf fun n =>
          { n with cState := .stop, busy := .atStop (.sent none) }) ∧
        (r = 0x38 → resume s = u.mapSelf fun n =>
          { n with
            cState := .idle, cOwn := false, busy := .idle,
            ret := .sent (some (.byteNotAcknowledged (n.csI.setWidth 2))) }) ∧
        (r ≠ 0x28 → r ≠ 0x38 → resume s = u.mapSelf fun n =>
          { n with cState := .stop, busy := .atStop (.sent (some (.byteNotAcknowledged (n.csI.setWidth 2)))) }))) ∧
    (∀ r, s.self.busy = .atStop r →
      let ended (u : State) := u.mapSelf fun n => { n with cOwn := false, cState := .idle, ret := r, busy := .idle }
      (s.comp = .closed → held = false → resume s = ended ((s.emit .P).mapPeer fun n =>
        if addressed then { n with pEvt := some 0xA0, pState := .idle } else n)) ∧
      (s.comp = .openBus → resume s = ended (s.emit .P)))

/-- Open composition, C_STATE = IDLE (fresh start) or ADDRESS or DATA with C_OWN = 1 (repeated start), ENV's answers r0, r1. If r0 is 0x08 or 0x10: the call puts the start symbol on the wire, C_STATE = ADDRESS, C_OWN = 1, and its main program's next turn A(SLA_W, k) with k = 1 exactly for 0x18, with result r1, C_STATE = ADDRESS for 0x18 and ERROR otherwise, C_OWN 0 exactly for 0x38. Otherwise WIRE gains the start symbol only, the result is r0, C_STATE = ERROR, C_OWN = 0. Answers outside R120's sets are admitted by the model's widening (log 7), and k for them is its choice (log 23). [R120, R122, R123] -/
def Obligations.BeginSendsStartAndAddress : Prop :=
  ∀ (s : State) (r0 r1 : Byte) (rest : List Byte), s.self.CanControl → s.comp = .openBus →
    s.self.answers = r0 :: r1 :: rest →
    (s.self.cState = .idle ∨ ((s.self.cState = .address ∨ s.self.cState = .data) ∧ s.self.cOwn = true)) →
    let y := if s.self.cState = .idle then Sym.S else Sym.Sr
    (r0 = 0x08 ∨ r0 = 0x10 → ∃ t, exec (.beginAsController true) s = .next t ∧
      t = (s.emit y).mapSelf (fun n =>
        { n with answers := r1 :: rest, busy := .atAddress .call, cState := .address, cOwn := true }) ∧
      resume t = ((s.emit y).emit (.A (slaW s.self.sla) (r1 == 0x18))).mapSelf fun n =>
        { n with
          answers := rest, busy := .idle, ret := .code r1,
          cState := if r1 = 0x18 then .address else .error, cOwn := !(r1 == 0x38) }) ∧
    (¬ (r0 = 0x08 ∨ r0 = 0x10) → exec (.beginAsController true) s =
      .next ((s.emit y).mapSelf fun n =>
        { n with answers := r1 :: rest, busy := .idle, ret := .code r0, cState := .error, cOwn := false }))

/-- Closed composition, bus not held. A fresh start, and a repeated start with a peer that is not addressed: the call puts S or Sr on the wire, C_STATE = ADDRESS, C_OWN = 1, the peer unchanged, and the address phase is next. At the address phase, if the peer is a peripheral armed with ack whose SLA_W, or the general call, is the address byte: WIRE gains A(SLA_W, 1), result 0x18, and the peer is P_ADDRESSED with P_GC and event 0x60 or 0x70. Otherwise WIRE gains A(SLA_W, 0), result 0x20, C_STATE = ERROR, C_OWN as before, and the peer is unchanged. [R122, R123, R135, R136, R137] -/
def Obligations.BeginAddressesTheListeningPeripheral : Prop :=
  ∀ s : State, s.comp = .closed → ¬ (s.peer.role = .peripheral ∧ s.peer.pEvt.isSome = true) →
    (s.self.CanControl → s.self.cState = .idle → exec (.beginAsController true) s =
      .next ((s.emit .S).mapSelf fun n => { n with busy := .atAddress .call, cState := .address, cOwn := true })) ∧
    (s.self.CanControl → s.self.cState = .address ∨ s.self.cState = .data → s.self.cOwn = true →
      ¬ (s.peer.role = .peripheral ∧ s.peer.pState = .addressed) → exec (.beginAsController true) s =
        .next ((s.emit .Sr).mapSelf fun n => { n with busy := .atAddress .call, cState := .address, cOwn := true })) ∧
    (s.self.busy = .atAddress .call → s.peer.role = .peripheral → s.peer.pAcken = true →
      (slaW s.self.sla = slaW s.peer.sla ∨ slaW s.self.sla = 0) →
      resume s = ((s.emit (.A (slaW s.self.sla) true)).mapPeer fun n =>
          { n with
            pState := .addressed, pGc := slaW s.self.sla == 0,
            pEvt := some (if slaW s.self.sla = 0 then 0x70 else 0x60) }).mapSelf fun n =>
        { n with busy := .idle, ret := .code 0x18 }) ∧
    (s.self.busy = .atAddress .call →
      ¬ (s.peer.role = .peripheral ∧ s.peer.pAcken = true ∧
        (slaW s.self.sla = slaW s.peer.sla ∨ slaW s.self.sla = 0)) →
      resume s = (s.emit (.A (slaW s.self.sla) false)).mapSelf fun n =>
        { n with busy := .idle, ret := .code 0x20, cState := .error })

/-- Closed composition, C_STATE ADDRESS or DATA with C_OWN = 1, peer addressed with nothing latched: begin_as_controller puts Sr and no P on the wire, the peer latches 0xA0 and is P_IDLE, and the address phase waits for the hold to lift: until the peer re-arms the main program's turns change nothing (what follows is BeginAddressesTheListeningPeripheral). [R123, R134, R140] -/
def Obligations.RepeatedStartRaisesTheStopEvent : Prop :=
  ∀ s : State, s.self.CanControl → s.comp = .closed → s.self.cState = .address ∨ s.self.cState = .data →
    s.self.cOwn = true → s.peer.role = .peripheral → s.peer.pState = .addressed → s.peer.pEvt = none →
    ∃ t, exec (.beginAsController true) s = .next t ∧ resume t = t ∧
      t = (((s.emit .Sr).mapPeer fun n => { n with pEvt := some 0xA0, pState := .idle }).mapSelf fun n =>
        { n with cState := .address, cOwn := true, busy := .atAddress .call })

/-- Closed composition, C_STATE ADDRESS or DATA with C_OWN = 1, bus not held. An addressed peripheral armed with ack: WIRE gains D(b, 1), result 0x28, C_STATE = DATA, P_DR = b, event 0x80 or 0x90. Armed with nack: D(b, 0), result 0x30, C_STATE = ERROR, P_DR = b all the same, event 0x88 or 0x98, and P_IDLE exactly if P_DEADDRESS_ON_NACK. No addressed peripheral: D(b, 0), result 0x30, C_STATE = ERROR, the peer unchanged. [R126, R138, R139] -/
def Obligations.WriteByteDeliversToThePeripheral : Prop :=
  ∀ (s : State) (b : Byte), s.self.CanControl → s.comp = .closed → s.self.cState = .address ∨ s.self.cState = .data →
    s.self.cOwn = true → ¬ (s.peer.role = .peripheral ∧ s.peer.pEvt.isSome = true) →
    (s.peer.role = .peripheral → s.peer.pState = .addressed → s.peer.pAcken = true →
      exec (.writeByte b) s =
        .next (((s.emit (.D b true)).mapPeer fun n =>
          { n with pDr := b, pEvt := some (if n.pGc then 0x90 else 0x80) }).mapSelf fun n =>
          { n with busy := .idle, ret := .code 0x28, cState := .data })) ∧
    (s.peer.role = .peripheral → s.peer.pState = .addressed → s.peer.pAcken = false →
      exec (.writeByte b) s =
        .next (((s.emit (.D b false)).mapPeer fun n =>
          { n with
            pDr := b, pEvt := some (if n.pGc then 0x98 else 0x88),
            pState := if Config.pDeaddressOnNack then .idle else .addressed }).mapSelf fun n =>
          { n with busy := .idle, ret := .code 0x30, cState := .error })) ∧
    (¬ (s.peer.role = .peripheral ∧ s.peer.pState = .addressed) →
      exec (.writeByte b) s =
        .next ((s.emit (.D b false)).mapSelf fun n =>
          { n with busy := .idle, ret := .code 0x30, cState := .error }))

/-- Open composition, C_STATE ADDRESS or DATA with C_OWN = 1, ENV's next answer r: WIRE gains D(b, k) with k = 1 exactly for 0x28, the result is r, C_STATE is DATA for 0x28 and ERROR otherwise, C_OWN is cleared exactly for 0x38. Answers outside R120's set are admitted by the model's widening (log 7), and k for them is its choice (log 23). [R120, R126] -/
def Obligations.WriteByteReturnsTheAnswer : Prop :=
  ∀ (s : State) (b r : Byte) (rest : List Byte), s.self.CanControl → s.comp = .openBus →
    s.self.cState = .address ∨ s.self.cState = .data → s.self.cOwn = true → s.self.answers = r :: rest →
    exec (.writeByte b) s =
      .next ((s.emit (.D b (r == 0x28))).mapSelf fun n =>
        { n with
          answers := rest, busy := .idle, ret := .code r,
          cState := if r = 0x28 then .data else .error, cOwn := !(r == 0x38) })

/-- In IDLE end changes nothing but its result. In another C_STATE with C_OWN = 0 it only returns to IDLE. With C_OWN = 1 and the bus not held WIRE gains P, C_STATE = IDLE, C_OWN = 0, and on the closed bus an addressed peripheral latches 0xA0 and is P_IDLE while any other peer is unchanged. [R127] -/
def Obligations.EndReleasesTheBusOnce : Prop :=
  ∀ s : State, s.self.CanControl →
    (s.self.cState = .idle → exec .endTransaction s = .next (s.mapSelf fun n => { n with busy := .idle, ret := .unit })) ∧
    (s.self.cState ≠ .idle → s.self.cOwn = false →
      exec .endTransaction s = .next (s.mapSelf fun n => { n with cState := .idle, busy := .idle, ret := .unit })) ∧
    (s.self.cState ≠ .idle → s.self.cOwn = true → s.comp = .openBus →
      exec .endTransaction s = .next ((s.emit .P).mapSelf fun n =>
        { n with cState := .idle, cOwn := false, busy := .idle, ret := .unit })) ∧
    (s.self.cState ≠ .idle → s.self.cOwn = true → s.comp = .closed →
      ¬ (s.peer.role = .peripheral ∧ s.peer.pEvt.isSome = true) →
      exec .endTransaction s = .next (((s.emit .P).mapPeer fun n =>
        if n.role = .peripheral ∧ n.pState = .addressed then { n with pEvt := some 0xA0, pState := .idle } else n).mapSelf
        fun n => { n with cState := .idle, cOwn := false, busy := .idle, ret := .unit }))

/-- In ERROR begin_as_controller(true), write_byte and send are refused as BadControllerState; so is write_byte outside ADDRESS and DATA or with C_OWN = 0, begin_as_controller(true) in ADDRESS or DATA with C_OWN = 0 and in START or STOP, and send outside IDLE. [R121, R165, R247] -/
def Obligations.ErrorStateAcceptsOnlyEnd : Prop :=
  ∀ s : State, s.self.CanControl →
    (s.self.cState = .error ∨ s.self.cState = .start ∨ s.self.cState = .stop ∨ (s.self.cState ≠ .idle ∧ s.self.cOwn = false) →
      exec (.beginAsController true) s = .refused .badControllerState) ∧
    (∀ b, ¬ ((s.self.cState = .address ∨ s.self.cState = .data) ∧ s.self.cOwn = true) →
      exec (.writeByte b) s = .refused .badControllerState) ∧
    (∀ m, s.self.cState ≠ .idle → exec (.send m) s = .refused .badControllerState)

/-- In the peripheral role and either context, rearm(ack) sets P_ACKEN = ack and P_EVT none and changes nothing else but the caller's result. (A callback's own call of rearm is refused in this model, log 14.) [R130] -/
def Obligations.RearmArmsAndClears : Prop :=
  ∀ (s : State) (ack : Bool), s.self.role = .peripheral →
    exec (.rearm ack) s = .next (s.mapSelf fun n => { n with pAcken := ack, pEvt := none }.returns .unit)

/-- As peripheral in MAIN with ASYNC_EN = 0, read_byte(a) sets P_ACKEN = a and P_EVT none and waits. While nothing is latched its main program spins with no change; once some event is latched, whichever it is, it returns P_DR and the event stays latched. [R131] -/
def Obligations.ReadByteArmsThenWaits : Prop :=
  ∀ s : State,
    (∀ a, s.self.CanServe → s.self.asyncEn = false →
      exec (.readByte a) s = .next (s.mapSelf fun n => { n with pAcken := a, pEvt := none, busy := .readByte })) ∧
    (s.self.busy = .readByte → s.self.pEvt = none → resume s = s) ∧
    (∀ c, s.self.busy = .readByte → s.self.pEvt = some c →
      resume s = s.mapSelf fun n => { n with ret := .byte n.pDr, busy := .idle })

/-- As peripheral in MAIN with ASYNC_EN = 0: with P_EVT = some(c), poll_event returns c at once; with nothing latched it waits. A waiting poll returns the code of the event latched, or EV_TIMEOUT when the expiry comes while nothing is latched; neither touches P_EVT. [R132] -/
def Obligations.PollEventObservesOrExpires : Prop :=
  ∀ s : State,
    (∀ T c, s.self.CanServe → s.self.asyncEn = false → s.self.pEvt = some c →
      exec (.pollEvent T) s = .next (s.mapSelf fun n => { n with ret := .code c, busy := .idle })) ∧
    (∀ T, s.self.CanServe → s.self.asyncEn = false → s.self.pEvt = none →
      exec (.pollEvent T) s = .next (s.mapSelf fun n => { n with busy := .pollEvent T })) ∧
    (∀ T c, s.self.busy = .pollEvent T → s.self.pEvt = some c →
      resume s = s.mapSelf (fun n => { n with ret := .code c, busy := .idle }) ∧ exec .evTimeout s = .next s) ∧
    (∀ T, s.self.busy = .pollEvent T → s.self.pEvt = none →
      resume s = s ∧
      exec .evTimeout s = .next (s.mapSelf fun n => { n with ret := .code Config.evTimeout, busy := .idle }))

/-- Open composition, C_STATE = IDLE, ENV's answers 0x08 or 0x10, 0x18, four times 0x28: the call's own step puts the start on the wire, and after six further turns of its main program send(m) has returned Ok, WIRE gains S, A(SLA_W, 1), D(m[7:0], 1), D(m[15:8], 1), D(m[23:16], 1), D(m[31:24], 1), P, and C_STATE = IDLE, C_OWN = 0; CS_I stays at 3 (log 24). The second property of R164 is SendNamesTheByteNotAcknowledged. [R164, R160, R62, R93] -/
def Obligations.SendOverAnAcknowledgingBusSucceeds : Prop :=
  ∀ (s : State) (m : Word) (r0 : Byte) (rest : List Byte), s.self.CanControl → s.comp = .openBus → s.self.cState = .idle →
    (r0 = 0x08 ∨ r0 = 0x10) → s.self.answers = r0 :: 0x18 :: 0x28 :: 0x28 :: 0x28 :: 0x28 :: rest →
    ∃ t, exec (.send m) s = .next t ∧ resume^[6] t = (({ s with
        wire := s.wire ++ [.S, .A (slaW s.self.sla) true, .D (m.extractLsb' 0 8) true, .D (m.extractLsb' 8 8) true,
          .D (m.extractLsb' 16 8) true, .D (m.extractLsb' 24 8) true, .P] } : State).mapSelf fun n =>
      { n with answers := rest, cState := .idle, cOwn := false, csI := 3, busy := .idle, ret := .sent none })

/-- Open composition, C_STATE = IDLE, the address answered 0x18, bytes 0 to i-1 answered 0x28 and byte i (0 to 3) answered r, any value but 0x28: after i + 3 further turns of its main program send has returned ByteNotAcknowledged(i); WIRE gains S, A(SLA_W, 1), the i acknowledged bytes, D(byte i, 0), and P unless r = 0x38; no later byte is sent; C_STATE = IDLE, C_OWN = 0. r outside R120's set is admitted by the model's widening (log 7), and D(byte i, 0) for it is its choice (log 23); that CS_I then stays at i is log 24. [R160, R161, R164] -/
def Obligations.SendNamesTheByteNotAcknowledged : Prop :=
  ∀ (s : State) (m : Word) (r0 r : Byte) (i : Nat) (rest : List Byte), s.self.CanControl → s.comp = .openBus →
    s.self.cState = .idle → (r0 = 0x08 ∨ r0 = 0x10) → i < 4 → r ≠ 0x28 →
    s.self.answers = r0 :: 0x18 :: (List.replicate i 0x28 ++ r :: rest) →
    ∃ t, exec (.send m) s = .next t ∧ resume^[i + 3] t = (({ s with
        wire := s.wire ++ ([.S, .A (slaW s.self.sla) true] ++ (List.range i).map (fun j => .D (m.extractLsb' (8 * j) 8) true) ++
          [.D (m.extractLsb' (8 * i) 8) false] ++ if r = 0x38 then [] else [.P]) } : State).mapSelf fun n =>
      { n with
        answers := rest, cState := .idle, cOwn := false, csI := BitVec.ofNat 3 i, busy := .idle,
        ret := .sent (some (.byteNotAcknowledged (BitVec.ofNat 2 i))) })

/-- C_STATE = IDLE. Open composition, the start answered 0x08 or 0x10 and the address r, any value but 0x18: after two further turns send has returned AddressNotAcknowledged(r); WIRE gains S, A(SLA_W, 0), and P unless r = 0x38; C_STATE = IDLE, C_OWN = 0. The start answered any other value r0: send returns AddressNotAcknowledged(r0) at once, WIRE gains S only (log 23 for 0x18, which is the model's choice; log 7 for the widening). Closed composition, a peer that is no peripheral, or is armed with nack or has another address, is not addressed and holds nothing: after two further turns send has returned AddressNotAcknowledged(0x20), WIRE gains S, A(SLA_W, 0), P, C_STATE = IDLE, C_OWN = 0, and the peer is unchanged. [R160, R161, R137, R285] -/
def Obligations.SendReportsTheAddressAnswer : Prop :=
  ∀ (s : State) (m : Word), s.self.CanControl → s.self.cState = .idle →
    (∀ (r0 r : Byte) (rest : List Byte), s.comp = .openBus → (r0 = 0x08 ∨ r0 = 0x10) → r ≠ 0x18 →
      s.self.answers = r0 :: r :: rest →
      ∃ t, exec (.send m) s = .next t ∧ resume^[2] t = (({ s with
          wire := s.wire ++ ([.S, .A (slaW s.self.sla) false] ++ if r = 0x38 then [] else [.P]) } : State).mapSelf fun n =>
        { n with
          answers := rest, cState := .idle, cOwn := false, busy := .idle,
          ret := .sent (some (.addressNotAcknowledged r)) })) ∧
    (∀ (r0 : Byte) (rest : List Byte), s.comp = .openBus → ¬ (r0 = 0x08 ∨ r0 = 0x10) → s.self.answers = r0 :: rest →
      exec (.send m) s = .next ((s.emit .S).mapSelf fun n =>
        { n with
          answers := rest, cState := .idle, cOwn := false, busy := .idle,
          ret := .sent (some (.addressNotAcknowledged r0)) })) ∧
    (s.comp = .closed →
      (s.peer.role ≠ .peripheral ∨
        (s.peer.pEvt = none ∧ s.peer.pState = .idle ∧
          (s.peer.pAcken = false ∨ (slaW s.self.sla ≠ slaW s.peer.sla ∧ slaW s.self.sla ≠ 0)))) →
      ∃ t, exec (.send m) s = .next t ∧
        resume^[2] t = (({ s with wire := s.wire ++ [.S, .A (slaW s.self.sla) false, .P] } : State).mapSelf fun n =>
          { n with
            cState := .idle, cOwn := false, busy := .idle, ret := .sent (some (.addressNotAcknowledged 0x20)) }))

/-- A main program whose wait's condition holds changes the state at its next turn: no enabled wait spins. In every fair execution in which node n stays in MAIN: if n is inside operation b at step k, and the condition b waits for holds at every later step at which n is still at b, then at some later step n, still at b, takes its turn and goes on, or has left b otherwise. That a node stays in MAIN is State.Inv's (R36). Fairness is R16's; the model's rendering of it as turns is its own (log 12). [R16, R305, R131, R134] -/
def Obligations.FairExecutionsEndTheirWaits : Prop :=
  (∀ s : State, s.waitOver s.cur = true → resume s ≠ s) ∧
  (∀ (e : Execution) (n : NodeId) (k : Nat) (b : Busy), e.Fair → (∀ j, ((e.state j).node n).ctx = .main) →
    b ≠ .idle → ((e.state k).node n).busy = b →
    (∀ j, k ≤ j → ((e.state j).node n).busy = b → (e.state j).waitOver n = true) →
    ∃ j, k ≤ j ∧ ((e.state j).node n).busy = b ∧
      ((e.turn j = .main n ∧ e.state (j + 1) = resume { e.state j with sched := [], cur := n }) ∨
        ((e.state (j + 1)).node n).busy ≠ b))

/-- Closed composition, an idle controller about to call send(m), a listening peripheral with the same SLA: with the two nodes' steps alternating, after thirteen steps the controller is idle with result ByteNotAcknowledged(3) and WIRE has gained S, A(SLA_W, 1), three acknowledged bytes, the fourth not acknowledged, P; for both values of P_DEADDRESS_ON_NACK. Asynchronous path, with interrupts enabled: the peripheral holds CNT = 4, ACC = m, FIRED = 1, P_ACKEN = 1, P_EVT none, P_STATE = P_IDLE; with a callback of permitted calls CBLOG has gained exactly m and DONE is 0 exactly if the callback took it, with none CBLOG is as before and DONE is 1. Blocking path (ASYNC_EN = 0), the peripheral's next call receive_blocking: that call has returned m, P_ACKEN = 1, P_STATE = P_IDLE, the stop's 0xA0 is latched unless P_DEADDRESS_ON_NACK (what the next call makes of it is BlockingReceiveMeetsUnexpectedEvents), and CNT, ACC, DONE, CB, FIRED and CBLOG are as before. [R144, R163, R170, R198] -/
def Obligations.SendDeliversAndReportsByteThree : Prop :=
  ∀ (s : State) (c : NodeId) (m : Word) (calls : List (List Byte)) (turns : List Turn),
    let p := c.other
    s.comp = .closed → (s.node c).CanControl → (s.node c).cState = .idle → (s.node c).busy = .idle →
    (s.node c).prog = encode (.send m) :: calls → (s.node c).sla ≠ 0 → (s.node p).sla = (s.node c).sla →
    (s.node p).CanServe → (s.node p).pAcken = true → (s.node p).pEvt = none → (s.node p).pState = .idle →
    let reported (t : State) : Prop :=
      (t.node c).ret = .sent (some (.byteNotAcknowledged 3)) ∧ (t.node c).cState = .idle ∧
      (t.node c).cOwn = false ∧ (t.node c).busy = .idle ∧ (t.node c).prog = calls ∧
      t.wire = s.wire ++ [.S, .A (slaW (s.node c).sla) true, .D (m.extractLsb' 0 8) true, .D (m.extractLsb' 8 8) true,
        .D (m.extractLsb' 16 8) true, .D (m.extractLsb' 24 8) false, .P]
    ((s.node p).asyncEn = true → (s.node p).ie = true →
      (∀ f, (s.node p).cb = some f → ∀ i ∈ ((s.node p).hostFn f).calls m, Permitted i = true) →
      s.sched =
        .main c :: .main c :: .irq p :: .main c :: .irq p :: .main c :: .irq p :: .main c :: .irq p ::
          .main c :: .irq p :: .main c :: .irq p :: turns →
      ∃ t, core.run 13 s = .next t ∧ reported t ∧
        (t.node p).acc = m ∧ (t.node p).cnt = 4 ∧ (t.node p).fired = true ∧ (t.node p).pAcken = true ∧
        (t.node p).pEvt = none ∧ (t.node p).pState = .idle ∧
        (∀ f, (s.node p).cb = some f → t.cblog = s.cblog ++ [m] ∧
          (t.node p).done = !(((s.node p).hostFn f).calls m).contains .takeMessage) ∧
        ((s.node p).cb = none → t.cblog = s.cblog ∧ (t.node p).done = true)) ∧
    (∀ pcalls, (s.node p).asyncEn = false → (s.node p).busy = .idle →
      (s.node p).prog = encode .receiveBlocking :: pcalls →
      s.sched =
        .main p :: .main c :: .main c :: .main p :: .main c :: .main p :: .main c :: .main p :: .main c :: .main p ::
          .main c :: .main p :: .main c :: turns →
      ∃ t, core.run 13 s = .next t ∧ reported t ∧
        (t.node p).ret = .message m ∧ (t.node p).busy = .idle ∧ (t.node p).prog = pcalls ∧
        (t.node p).pAcken = true ∧ (t.node p).pState = .idle ∧
        (t.node p).pEvt = (if Config.pDeaddressOnNack then none else some 0xA0) ∧
        (t.node p).cnt = (s.node p).cnt ∧ (t.node p).acc = (s.node p).acc ∧ (t.node p).done = (s.node p).done ∧
        (t.node p).cb = (s.node p).cb ∧ (t.node p).fired = (s.node p).fired ∧ t.cblog = s.cblog)

/-- receive_blocking as peripheral in MAIN with ASYNC_EN = 0 and nothing latched zeroes PB_ACC and PB_I and waits; with an address match already latched it services it, re-arms with ack and waits for the first byte, and so it does when the match is latched while it waits. Each data event of either variant then puts P_DR in lane PB_I of PB_ACC: with PB_I below 3 PB_I is incremented and the next byte armed with ack while the new PB_I is below 3 and with nack for byte 3, P_EVT none; with PB_I = 3 the call re-arms with ack and returns the word, PB_I staying 3 (log 24). So the arms in order are ack, ack, ack, nack, ack. In the open composition, with ENV presenting an address match and four data events of any variant with bytes b0..b3, each followed by the main program's turn, it returns b0 | b1<<8 | b2<<16 | b3<<24, ends with P_ACKEN = 1, P_EVT none, and CNT, ACC, DONE, CB, FIRED are as before. [R170, R171, R172] -/
def Obligations.BlockingReceiveAssemblesFourBytes : Prop :=
  (∀ s : State, s.self.CanServe → s.self.asyncEn = false → s.self.pEvt = none →
    exec .receiveBlocking s = .next (s.mapSelf fun n => { n with pbAcc := 0, pbI := 0, busy := .recvAddress })) ∧
  (∀ (c : Byte) (s : State), c ∈ [0x60, 0x68, 0x70, 0x78] → s.self.CanServe → s.self.asyncEn = false →
    s.self.pEvt = some c → exec .receiveBlocking s = .next (s.mapSelf fun n =>
      { n with pbAcc := 0, pbI := 0, pAcken := true, pEvt := none, busy := .recvData })) ∧
  (∀ (c : Byte) (s : State), c ∈ [0x60, 0x68, 0x70, 0x78] → s.self.busy = .recvAddress → s.self.pEvt = some c →
    resume s = s.mapSelf fun n => { n with pbI := 0, pAcken := true, pEvt := none, busy := .recvData }) ∧
  (∀ (c : Byte) (s : State), c ∈ [0x80, 0x88, 0x90, 0x98] → s.self.busy = .recvData → s.self.pEvt = some c →
    (s.self.pbI.toNat < 3 → resume s = s.mapSelf fun n =>
      { n with
        pbAcc := setLane n.pbAcc n.pbI.toNat n.pDr, pbI := n.pbI + 1, pAcken := decide (n.pbI.toNat + 1 < 3),
        pEvt := none }) ∧
    (s.self.pbI = 3 → resume s = s.mapSelf fun n =>
      { n with
        pbAcc := setLane n.pbAcc 3 n.pDr, pAcken := true, pEvt := none, busy := .idle,
        ret := .message (setLane n.pbAcc 3 n.pDr) })) ∧
  ∀ (s : State) (n : NodeId) (c0 c1 c2 c3 c4 b0 b1 b2 b3 : Byte) (calls : List (List Byte)) (turns : List Turn),
    c0 ∈ [0x60, 0x68, 0x70, 0x78] → c1 ∈ [0x80, 0x88, 0x90, 0x98] → c2 ∈ [0x80, 0x88, 0x90, 0x98] →
    c3 ∈ [0x80, 0x88, 0x90, 0x98] → c4 ∈ [0x80, 0x88, 0x90, 0x98] → s.comp = .openBus → (s.node n).CanServe →
    (s.node n).asyncEn = false → (s.node n).pEvt = none → (s.node n).busy = .idle →
    (s.node n).prog = encode .receiveBlocking :: calls →
    s.sched =
      .main n :: .env n .evt [c0] :: .main n :: .env n .evt [c1, b0] :: .main n :: .env n .evt [c2, b1] :: .main n ::
        .env n .evt [c3, b2] :: .main n :: .env n .evt [c4, b3] :: .main n :: turns →
    ∃ t, core.run 11 s = .next t ∧ (t.node n).ret = .message (b3 ++ b2 ++ b1 ++ b0) ∧ (t.node n).busy = .idle ∧
      (t.node n).pAcken = true ∧ (t.node n).pEvt = none ∧ (t.node n).cnt = (s.node n).cnt ∧
      (t.node n).acc = (s.node n).acc ∧ (t.node n).done = (s.node n).done ∧ (t.node n).cb = (s.node n).cb ∧
      (t.node n).fired = (s.node n).fired

/-- In stage 2 any event outside DATA_RX re-arms with ack and returns PB_ACC as it stands. In stage 1 any event outside ADDR_MATCH re-arms with ack and, exactly if PB_IDLE_ABORT, returns PB_ACC; otherwise the wait goes on. So it is with an event, the trailing 0xA0 of the last transaction among them, that is latched already when receive_blocking is called (in MAIN, ASYNC_EN = 0): the call's first poll meets it, and the call zeroes PB_ACC and PB_I, re-arms with ack and either returns 0 or waits on. An expiry, only while nothing is latched, first ends the poll and changes nothing else; the call's next turn does the same as for such an event, and an event latched in between is dropped by its re-arm (log 20). PB_I and PB_ACC are kept after the return (log 24). [R170, R173, R174] -/
def Obligations.BlockingReceiveMeetsUnexpectedEvents : Prop :=
  ∀ s : State,
    let aborts := s.mapSelf fun n =>
      { n with pAcken := true, pEvt := none, ret := .message n.pbAcc, busy := .idle }
    let skips := s.mapSelf fun n =>
      { n with
        pAcken := true, pEvt := none, ret := if Config.pbIdleAbort then .message n.pbAcc else n.ret,
        busy := if Config.pbIdleAbort then .idle else .recvAddress }
    (∀ c, s.self.busy = .recvData → s.self.pEvt = some c → c ∉ [0x80, 0x88, 0x90, 0x98] → resume s = aborts) ∧
    (∀ c, s.self.busy = .recvAddress → s.self.pEvt = some c → c ∉ [0x60, 0x68, 0x70, 0x78] → resume s = skips) ∧
    (∀ c, s.self.CanServe → s.self.asyncEn = false → s.self.pEvt = some c → c ∉ [0x60, 0x68, 0x70, 0x78] →
      exec .receiveBlocking s = .next (s.mapSelf fun n =>
        { n with
          pbAcc := 0, pbI := 0, pAcken := true, pEvt := none, ret := if Config.pbIdleAbort then .message 0 else n.ret,
          busy := if Config.pbIdleAbort then .idle else .recvAddress })) ∧
    (s.self.busy = .recvData → s.self.pEvt = none →
      exec .evTimeout s = .next (s.mapSelf fun n => { n with busy := .recvDataExpired })) ∧
    (s.self.busy = .recvAddress → s.self.pEvt = none →
      exec .evTimeout s = .next (s.mapSelf fun n => { n with busy := .recvAddressExpired })) ∧
    (s.self.pEvt.isSome = true → exec .evTimeout s = .next s) ∧
    (s.self.busy = .recvDataExpired → resume s = aborts) ∧
    (s.self.busy = .recvAddressExpired → resume s = skips)

/-- As peripheral in MAIN. enable_async: CB = some(callback), CNT = ACC = DONE = FIRED = 0, ASYNC_EN = 1, P_ACKEN = 1, P_EVT none, IE as before; nothing else changes. disable_async: ASYNC_EN = 0; CB, CNT, ACC, DONE, FIRED, P_ACKEN, P_EVT and everything else are kept. [R190, R191] -/
def Obligations.EnableAndDisableAsync : Prop :=
  ∀ s : State, s.self.CanServe →
    (∀ f : Byte, exec (.enableAsync f) s = .next (s.mapSelf fun n =>
      { n with
        cb := some f, cnt := 0, acc := 0, done := false, fired := false, asyncEn := true, pAcken := true, pEvt := none,
        ret := .unit })) ∧
    exec .disableAsync s = .next (s.mapSelf fun n => { n with asyncEn := false, ret := .unit })

/-- ADDR with the write bit, MSG and FRAME give a foreign controller's turn with their phases after those still pending, at a node of any ROLE in the open composition, and nothing in the closed one. With nothing pending, in the closed composition, or while the node, a peripheral, has an event latched, a foreign controller's turn changes nothing. Otherwise, open composition, a peripheral: a start gives S and no event, at an addressed peripheral too (log 25); an address with the write bit gives A(a, 1), P_ADDRESSED with P_GC and event 0x60 or 0x70 if it matches an armed peripheral, and A(a, 0) and nothing else if not; a data byte at an addressed peripheral is in P_DR and latched, acknowledged with 0x80 or 0x90 when armed with ack, not acknowledged with 0x88 or 0x98 when armed with nack (and then P_IDLE exactly if P_DEADDRESS_ON_NACK), and D(b, 0) and nothing else at one that is not; a stop gives P, and 0xA0 and P_IDLE at an addressed peripheral. At a controller or an unconfigured node each phase goes on WIRE, unacknowledged, and nothing else changes: the model's choice (log 26). The foreign controller is the model's reading of ENV (log 8), the hold log 19. [R134, R135, R136, R137, R138, R139, R140, R302] -/
def Obligations.ForeignPhasesGoOn : Prop :=
  ∀ s : State,
    (let begun (phs : List Phase) : Out := .next (match s.comp with
        | .openBus => foreignGoesOn (s.mapSelf fun n => { n with foreign := n.foreign ++ phs })
        | .closed => s)
      let payload (m : Word) : List Phase :=
        [.data (m.extractLsb' 0 8), .data (m.extractLsb' 8 8), .data (m.extractLsb' 16 8), .data (m.extractLsb' 24 8)]
      ∀ a m f x rp, exec (.addr a false) s = begun [.address a] ∧ exec (.msg f x rp) s = begun (payload (msgWord f x rp)) ∧
        exec (.frame a m) s = begun ([.start, .address a] ++ payload m ++ [.stop])) ∧
    (s.comp = .openBus → s.self.role ≠ .peripheral → ∀ ph rest, s.self.foreign = ph :: rest →
      foreignGoesOn s = (s.emit (match ph with
        | .start => .S
        | .address a => .A (addrByte a false) false
        | .data b => .D b false
        | .stop => .P)).mapSelf fun n => { n with foreign := rest }) ∧
    (s.comp = .closed ∨ s.self.foreign = [] ∨ (s.self.role = .peripheral ∧ s.self.pEvt.isSome = true) →
      foreignGoesOn s = s) ∧
    (s.comp = .openBus → s.self.role = .peripheral → s.self.pEvt = none → ∀ rest : List Phase,
      (s.self.foreign = .start :: rest → foreignGoesOn s = (s.emit .S).mapSelf fun n => { n with foreign := rest }) ∧
      (∀ a, s.self.foreign = .address a :: rest →
        (s.self.pAcken = true → (a = s.self.sla ∨ a = 0) →
          foreignGoesOn s = (s.emit (.A (addrByte a false) true)).mapSelf fun n =>
            { n with
              foreign := rest, pState := .addressed, pGc := a == 0, pEvt := some (if a = 0 then 0x70 else 0x60) }) ∧
        ((s.self.pAcken = false ∨ (a ≠ s.self.sla ∧ a ≠ 0)) →
          foreignGoesOn s = (s.emit (.A (addrByte a false) false)).mapSelf fun n => { n with foreign := rest })) ∧
      (∀ b, s.self.foreign = .data b :: rest →
        (s.self.pState = .addressed → s.self.pAcken = true →
          foreignGoesOn s = (s.emit (.D b true)).mapSelf fun n =>
            { n with foreign := rest, pDr := b, pEvt := some (if n.pGc then 0x90 else 0x80) }) ∧
        (s.self.pState = .addressed → s.self.pAcken = false →
          foreignGoesOn s = (s.emit (.D b false)).mapSelf fun n =>
            { n with
              foreign := rest, pDr := b, pEvt := some (if n.pGc then 0x98 else 0x88),
              pState := if Config.pDeaddressOnNack then .idle else .addressed }) ∧
        (s.self.pState = .idle →
          foreignGoesOn s = (s.emit (.D b false)).mapSelf fun n => { n with foreign := rest })) ∧
      (s.self.foreign = .stop :: rest →
        (s.self.pState = .addressed → foreignGoesOn s = (s.emit .P).mapSelf fun n =>
          { n with foreign := rest, pEvt := some 0xA0, pState := .idle }) ∧
        (s.self.pState = .idle → foreignGoesOn s = (s.emit .P).mapSelf fun n => { n with foreign := rest })))

/-- As peripheral in either context: message_ready returns DONE and writes nothing but the caller's result. take_message: with DONE = 1 it returns Some(ACC) and clears DONE, keeping ACC, CNT and FIRED; with DONE = 0 it returns NoMessage and changes nothing else; so a second call straight after the first returns NoMessage. [R192, R193] -/
def Obligations.TakeMessageTakesEachCompletionOnce : Prop :=
  ∀ s : State, s.self.role = .peripheral →
    exec .messageReady s = .next (s.mapSelf fun n => n.returns (.bool n.done)) ∧
    (s.self.done = true → ∃ t,
      exec .takeMessage s = .next t ∧ t = s.mapSelf (fun n => { n with done := false }.returns (.optMessage (some n.acc))) ∧
      exec .takeMessage t = .next (t.mapSelf fun n => n.returns (.optMessage none))) ∧
    (s.self.done = false → exec .takeMessage s = .next (s.mapSelf fun n => n.returns (.optMessage none)))

/-- In MAIN, on a node that is no peripheral and owns no bus: ROLE = CONTROLLER, BUS_HZ latched, C_STATE = IDLE, C_OWN = 0, nothing else changes; no rate is rejected. [R230] -/
def Obligations.InitControllerConfigures : Prop :=
  ∀ (s : State) (hz : Word), s.self.ctx = .main → s.self.role ≠ .peripheral → s.self.cOwn = false →
    exec (.initController hz) s = .next (s.mapSelf fun n =>
      { n with role := .controller, busHz := hz, cState := .idle, cOwn := false, ret := .unit })

/-- In MAIN, on an unconfigured node or a quiet peripheral. With sla not 0: ROLE = PERIPHERAL, SLA = sla, P_STATE = P_IDLE, P_GC = 0, P_EVT none, P_ACKEN = 1, ASYNC_EN = 0, CNT = ACC = DONE = FIRED = 0, CB none; IE, P_DR, CTX and everything else are kept. With sla = 0 the call is refused as BadAddress. [R231] -/
def Obligations.InitPeripheralConfigures : Prop :=
  ∀ s : State, s.self.ctx = .main →
    (s.self.role = .none ∨ (s.self.role = .peripheral ∧ s.self.pState = .idle ∧ s.self.pEvt = none)) →
    (∀ sla : BitVec 7, sla ≠ 0 → exec (.initPeripheral sla) s = .next (s.mapSelf fun n =>
      { n with
        role := .peripheral, sla := sla, pState := .idle, pGc := false, pEvt := none, pAcken := true, asyncEn := false,
        cnt := 0, acc := 0, done := false, fired := false, cb := none, ret := .unit })) ∧
    exec (.initPeripheral 0) s = .refused .badAddress

/-- init_controller on a node that owns the bus or is a peripheral, and init_peripheral on a controller or on a peripheral that is addressed or has an event latched, are refused as ReinitBusy. init_peripheral(0) is refused as BadAddress whatever the node is doing (that this reason comes first is log 13). [R231, R233, R247] -/
def Obligations.ReconfigurationNeedsAQuietMoment : Prop :=
  ∀ (s : State) (hz : Word) (sla : BitVec 7), s.self.ctx = .main → sla ≠ 0 →
    (s.self.cOwn = true ∨ s.self.role = .peripheral → exec (.initController hz) s = .refused .reinitBusy) ∧
    (s.self.role = .controller ∨
        (s.self.role = .peripheral ∧ (s.self.pState = .addressed ∨ s.self.pEvt.isSome = true)) →
      exec (.initPeripheral sla) s = .refused .reinitBusy) ∧
    exec (.initPeripheral 0) s = .refused .badAddress

/-- As peripheral in MAIN: irq_disable returns IE and sets IE = 0, irq_restore(v) sets IE = v; neither changes anything else, so a latched event stays latched. (The peripheral role is R101's and R264's, log 15.) [R234, R235] -/
def Obligations.CriticalSectionSavesAndRestoresIE : Prop :=
  ∀ s : State, s.self.CanServe →
    exec .irqDisable s = .next (s.mapSelf fun n => { n with ret := .bool n.ie, ie := false }) ∧
    (∀ v, exec (.irqRestore v) s = .next (s.mapSelf fun n => { n with ie := v, ret := .unit }))

/-- On an unconfigured node every host operation but the two initialisations and the pure functions is refused as NotConfigured. In MAIN, a controller's call of a peripheral operation (read_byte apart) and a peripheral's call of a controller operation are refused as WrongRole. As peripheral in MAIN with ASYNC_EN = 1, poll_event, read_byte and receive_blocking are refused as PollWhileAsync. begin_as_controller(false) and read_byte as controller, and ADDR with the read bit in every state, are refused as ReadDirection. Where two reasons apply, which one is named is log 13; that irq_disable and irq_restore need the peripheral role is log 15; ADDR as a step is log 8. [R51, R104, R124, R137, R199, R247, R264] -/
def Obligations.RefusedCallsAreRefusedByName : Prop :=
  ∀ s : State,
    (s.self.role = .none → ∀ i : Instr, i.format = .hostop → pureValue i = none → (∀ h, i ≠ .initController h) →
      (∀ a, i ≠ .initPeripheral a) → exec i s = .refused .notConfigured) ∧
    (s.self.CanControl → ∀ (T : Word) (ack : Bool) (f : Byte) (v : Bool),
      ∀ i ∈ [Instr.pollEvent T, .rearm ack, .receiveBlocking, .enableAsync f, .disableAsync, .messageReady,
        .takeMessage, .irqDisable, .irqRestore v], exec i s = .refused .wrongRole) ∧
    (s.self.CanServe → ∀ (w : Bool) (b : Byte) (m : Word),
      ∀ i ∈ [Instr.beginAsController w, .writeByte b, .endTransaction, .send m], exec i s = .refused .wrongRole) ∧
    (s.self.CanServe → s.self.asyncEn = true → ∀ (T : Word) (a : Bool),
      ∀ i ∈ [Instr.pollEvent T, .readByte a, .receiveBlocking], exec i s = .refused .pollWhileAsync) ∧
    (s.self.CanControl → exec (.beginAsController false) s = .refused .readDirection ∧
      ∀ v, exec (.readByte v) s = .refused .readDirection) ∧
    (∀ a, exec (.addr a true) s = .refused .readDirection)

/-- parity31(w) is w[31] ^ w[30] ^ ... ^ w[1], for every word; it does not depend on w[0]. [R210] -/
def Obligations.ParityIsTheXorOfTheOtherBits : Prop :=
  ∀ w : Word, parity31 w = (List.range 31).foldl (fun p i => Bool.xor p (w.getLsbD (i + 1))) false

/-- For every flags and aux: bits 31 to 16 of build_with_aux are flags, bits 15 to 12 are the low four bits of aux, bits 11 to 1 are zero and bit 0 is the parity of the other 31; build(f) is build_with_aux(f, 0). [R211, R212, R220, R102] -/
def Obligations.BuiltWordsHaveTheirFieldsAndParity : Prop :=
  ∀ (f : BitVec 16) (a : Byte) (s : State),
    (∃ m : Word, m.extractLsb' 16 16 = f ∧ m.extractLsb' 12 4 = a.extractLsb' 0 4 ∧ m.extractLsb' 1 11 = 0 ∧
      m.getLsbD 0 = parity31 m ∧
      exec (.buildWithAux f a) s = .next (s.mapSelf fun n => n.returns (.message m))) ∧
    exec (.build f) s = exec (.buildWithAux f 0) s

/-- For every placing of the six flags, all flags f and all 4-bit aux values a: is_valid(build_with_aux(f, a)) is true exactly if f contains no conflicting pair and the play-sound flag is absent or a is not 0. [R217] -/
def Obligations.BuiltWordIsValidExactlyWithoutConflict : Prop :=
  ∀ (fm : FlagMap) (f : BitVec 16) (a : BitVec 4),
    isValidAt fm (buildWithAux f (a.setWidth 8)) = true ↔
      ¬ (f.getLsbD fm.fwd ∧ f.getLsbD fm.rev) ∧ ¬ (f.getLsbD fm.blink ∧ f.getLsbD fm.fwd) ∧
      ¬ (f.getLsbD fm.blink ∧ f.getLsbD fm.rev) ∧ ¬ (f.getLsbD fm.opn ∧ f.getLsbD fm.close) ∧
      (f.getLsbD fm.sound = false ∨ a ≠ 0)

/-- For every placing of the flags, every valid message and every bit position, the message with that bit flipped is not valid. [R218] -/
def Obligations.OneFlippedBitIsAlwaysCaught : Prop :=
  ∀ (fm : FlagMap) (m : Word) (i : Nat), i < 32 → isValidAt fm m = true →
    isValidAt fm (m ^^^ ((1 : Word) <<< i)) = false

/-- For every placing of the six flags and every 32-bit word, built or not: the word is valid exactly if none of the pairs FWD and REV, BLINK and FWD, BLINK and REV, OPEN and CLOSE is set in it, SOUND is clear or aux is not 0, and bit 0 is the parity of the other 31. is_valid returns this, and dispatch the word exactly then, for the one placing the machine is built with, whose six positions are distinct. Two words that agree in flags, aux, parity bit and parity have the same validity whatever their reserved bits; some valid words have reserved bits set, an even or an odd number of them; a conflicting word with the wrong parity is not valid; the all-zero word is valid. [R10, R92, R213, R215, R216, R219, R222] -/
def Obligations.ValidityOfEveryWord : Prop :=
  (∀ (fm : FlagMap) (m : Word), isValidAt fm m = true ↔
    let fl (i : Fin 16) : Bool := m.getLsbD (16 + i)
    ¬ (fl fm.fwd ∧ fl fm.rev) ∧ ¬ (fl fm.blink ∧ fl fm.fwd) ∧ ¬ (fl fm.blink ∧ fl fm.rev) ∧ ¬ (fl fm.opn ∧ fl fm.close) ∧
      (fl fm.sound = false ∨ m.extractLsb' 12 4 ≠ 0) ∧ m.getLsbD 0 = parity31 m) ∧
  (∀ (m : Word) (s : State),
    exec (.isValid m) s = .next (s.mapSelf fun n => n.returns (.bool (isValidAt Config.flagMap m))) ∧
    exec (.dispatch m) s = .next (s.mapSelf fun n =>
      n.returns (.optMessage (if isValidAt Config.flagMap m then some m else none)))) ∧
  Config.flagMap.Distinct ∧
  (∀ (fm : FlagMap) (m k : Word), m.extractLsb' 12 20 = k.extractLsb' 12 20 → m.getLsbD 0 = k.getLsbD 0 →
    parity31 m = parity31 k → isValidAt fm m = isValidAt fm k) ∧
  (∀ fm : FlagMap, isValidAt fm 0x00000006 = true ∧ isValidAt fm 0x00000003 = true ∧
    isValidAt fm 0xC0000001 = false ∧ isValidAt fm 0 = true)

/-- In every role and context, before and after Link Configuration, build, build_with_aux, is_valid, parity31, get_flags, get_aux, has_flag and dispatch answer a next state that differs only in the caller's result, which is the function's value. [R51, R68, R215, R220, R222] -/
def Obligations.PureFunctionsRunInEveryState : Prop :=
  ∀ (i : Instr) (v : Result) (s : State), pureValue i = some v →
    exec i s = .next (s.mapSelf fun n => n.returns v)

/-- Open composition, for each of the 16 event rows, with its code c and data byte d: a peripheral with nothing latched gets P_EVT = some(c) and, for c in DATA_RX, P_DR = d; one with an event latched is unchanged; a controller gets c as its last unused answer. The injection is the same for every 8-bit c. That a row is ENV's step, and that a controller keeps the code as the answer of a later phase, is log 7; that an injection that is not enabled changes nothing is log 12. [R120, R143] -/
def Obligations.EnvEventsAreLatchedOrAnswer : Prop :=
  (∀ (i : Instr) (c d : Byte) (s : State), eventOf i = some (c, d) → s.comp = .openBus →
    exec i s = .next (envEvent c d s) ∧
    (s.self.role = .controller → exec i s = .next (s.mapSelf fun n => { n with answers := n.answers ++ [c] }))) ∧
  (∀ (c d : Byte) (s : State), s.comp = .openBus → s.self.role = .peripheral →
    (s.self.pEvt = none → envEvent c d s = s.mapSelf fun n =>
      { n with pEvt := some c, pDr := if c ∈ [0x80, 0x88, 0x90, 0x98] then d else n.pDr }) ∧
    (s.self.pEvt.isSome = true → envEvent c d s = s))

/-- Open composition, a peripheral with nothing latched and no foreign phase pending. ADDR with the write bit that matches an armed peripheral: WIRE gains A(a, 1), P_ADDRESSED with P_GC and event 0x60 or 0x70; that does not match: A(a, 0), nothing else. MSG, whatever its fields: the first byte is put on the bus and the other three wait; at an addressed peripheral it is in P_DR and latched, with 0x80 or 0x90 when armed with ack, with 0x88 or 0x98 when armed with nack (then P_IDLE exactly if P_DEADDRESS_ON_NACK); at one not addressed it passes unacknowledged. FRAME: S, at an addressed peripheral too (log 25), and the address, the four bytes and the stop wait. How waiting phases go on is ForeignPhasesGoOn. That these rows are a foreign controller's phases is the model's reading (log 8). [R93, R94, R62, R135, R136, R137, R138, R139] -/
def Obligations.ForeignPhasesReachThePeripheral : Prop :=
  ∀ s : State, s.comp = .openBus → s.self.role = .peripheral → s.self.pEvt = none → s.self.foreign = [] →
    (∀ a, s.self.pAcken = true → (a = s.self.sla ∨ a = 0) →
      exec (.addr a false) s = .next ((s.emit (.A (addrByte a false) true)).mapSelf fun n =>
        { n with pState := .addressed, pGc := a == 0, pEvt := some (if a = 0 then 0x70 else 0x60) })) ∧
    (∀ a, (s.self.pAcken = false ∨ (a ≠ s.self.sla ∧ a ≠ 0)) →
      exec (.addr a false) s = .next (s.emit (.A (addrByte a false) false))) ∧
    (∀ f a rp,
      let m := msgWord f a rp
      let rest := [Phase.data (m.extractLsb' 8 8), .data (m.extractLsb' 16 8), .data (m.extractLsb' 24 8)]
      (s.self.pState = .addressed → s.self.pAcken = true →
        exec (.msg f a rp) s = .next ((s.emit (.D (m.extractLsb' 0 8) true)).mapSelf fun n =>
          { n with pDr := m.extractLsb' 0 8, pEvt := some (if n.pGc then 0x90 else 0x80), foreign := rest })) ∧
      (s.self.pState = .addressed → s.self.pAcken = false →
        exec (.msg f a rp) s = .next ((s.emit (.D (m.extractLsb' 0 8) false)).mapSelf fun n =>
          { n with
            pDr := m.extractLsb' 0 8, pEvt := some (if n.pGc then 0x98 else 0x88), foreign := rest,
            pState := if Config.pDeaddressOnNack then .idle else .addressed })) ∧
      (s.self.pState = .idle →
        exec (.msg f a rp) s = .next ((s.emit (.D (m.extractLsb' 0 8) false)).mapSelf fun n =>
          { n with foreign := rest }))) ∧
    (∀ a m, exec (.frame a m) s = .next ((s.emit .S).mapSelf fun n =>
      { n with
        foreign := [.address a, .data (m.extractLsb' 0 8), .data (m.extractLsb' 8 8), .data (m.extractLsb' 16 8),
          .data (m.extractLsb' 24 8), .stop] }))

/-- For both values of P_DEADDRESS_ON_NACK. The data phase at the peripheral gives the same node but for P_STATE. From any state whose moving node meets the Receive Assembly invariants and has the interrupt enabled: the data phase, the handler run for it, the stop, and the handler run for 0xA0 if it was latched, come to the same outcome, the whole state included. A fifth byte after a full message, at a peripheral re-armed with ack, leaves CNT, ACC, DONE, CB, FIRED and CBLOG as they are: still addressed it is latched and the handler run drops it, no longer addressed it raises nothing. [R138, R139, R140, R141, R187, R302] -/
def Obligations.DeaddressOnNackNeverReachesTheAssembly : Prop :=
  (∀ (n : Node) (b : Byte) (d : Bool),
    { n.seesDataAt d b with pState := .idle } = { n.seesDataAt (!d) b with pState := .idle }) ∧
  (∀ (s : State) (b : Byte), s.self.AssemblyInv → s.self.irqEnabled = true → s.self.pEvt = none →
    let handled (t : State) : Out :=
      match t.self.pEvt with
      | some c => exec (irqBranch t.self.cnt c) t
      | none => .next t
    let rest (d : Bool) : Out :=
      andThen (handled (s.mapSelf fun n => n.seesDataAt d b)) fun t => handled (t.mapSelf Node.seesStop)
    s.self.pState = .addressed → rest true = rest false) ∧
  (∀ (s : State) (b : Byte), s.self.irqEnabled = true → s.self.pAcken = true → s.self.cnt = 4 →
    (s.self.pState = .addressed → ∃ c, (s.self.seesData b).pEvt = some c ∧
      exec (irqBranch s.self.cnt c) (s.mapSelf fun n => n.seesData b) =
        .next (s.mapSelf fun n => { n with pDr := b, pEvt := none })) ∧
    (s.self.pState = .idle → s.self.seesData b = s.self))
end

