-- ==== Sys2Proof/Laws/State.lean ====
section
/-! SUPPORT. One lemma per field per update, tagged @[simp], so that no later proof unfolds a record
update. States are brought to one form: `emit` first, then the peer's change, then the moving node's. -/

namespace Sys2Proof.Machine

/-! ## Nodes of a state -/

@[simp] theorem NodeId.other_other (n : NodeId) : n.other.other = n := by cases n <;> rfl
theorem NodeId.other_ne (n : NodeId) : n.other ≠ n := by cases n <;> decide
@[simp] theorem State.wire_mapNode (s : State) (n : NodeId) (f : Node → Node) : (s.mapNode n f).wire = s.wire := by cases n <;> rfl
@[simp] theorem State.wire_mapSelf (s : State) (f : Node → Node) : (s.mapSelf f).wire = s.wire := by simp [State.mapSelf]
@[simp] theorem State.wire_mapPeer (s : State) (f : Node → Node) : (s.mapPeer f).wire = s.wire := by simp [State.mapPeer]
@[simp] theorem State.cblog_mapNode (s : State) (n : NodeId) (f : Node → Node) : (s.mapNode n f).cblog = s.cblog := by cases n <;> rfl
@[simp] theorem State.cblog_mapSelf (s : State) (f : Node → Node) : (s.mapSelf f).cblog = s.cblog := by simp [State.mapSelf]
@[simp] theorem State.cblog_mapPeer (s : State) (f : Node → Node) : (s.mapPeer f).cblog = s.cblog := by simp [State.mapPeer]
@[simp] theorem State.comp_mapNode (s : State) (n : NodeId) (f : Node → Node) : (s.mapNode n f).comp = s.comp := by cases n <;> rfl
@[simp] theorem State.comp_mapSelf (s : State) (f : Node → Node) : (s.mapSelf f).comp = s.comp := by simp [State.mapSelf]
@[simp] theorem State.comp_mapPeer (s : State) (f : Node → Node) : (s.mapPeer f).comp = s.comp := by simp [State.mapPeer]
@[simp] theorem State.sched_mapNode (s : State) (n : NodeId) (f : Node → Node) : (s.mapNode n f).sched = s.sched := by cases n <;> rfl
@[simp] theorem State.sched_mapSelf (s : State) (f : Node → Node) : (s.mapSelf f).sched = s.sched := by simp [State.mapSelf]
@[simp] theorem State.sched_mapPeer (s : State) (f : Node → Node) : (s.mapPeer f).sched = s.sched := by simp [State.mapPeer]
@[simp] theorem State.cur_mapNode (s : State) (n : NodeId) (f : Node → Node) : (s.mapNode n f).cur = s.cur := by cases n <;> rfl
@[simp] theorem State.cur_mapSelf (s : State) (f : Node → Node) : (s.mapSelf f).cur = s.cur := by simp [State.mapSelf]
@[simp] theorem State.cur_mapPeer (s : State) (f : Node → Node) : (s.mapPeer f).cur = s.cur := by simp [State.mapPeer]
@[simp] theorem State.a_emit (s : State) (y : Sym) : (s.emit y).a = s.a := rfl
@[simp] theorem State.b_emit (s : State) (y : Sym) : (s.emit y).b = s.b := rfl
@[simp] theorem State.cblog_emit (s : State) (y : Sym) : (s.emit y).cblog = s.cblog := rfl
@[simp] theorem State.comp_emit (s : State) (y : Sym) : (s.emit y).comp = s.comp := rfl
@[simp] theorem State.sched_emit (s : State) (y : Sym) : (s.emit y).sched = s.sched := rfl
@[simp] theorem State.cur_emit (s : State) (y : Sym) : (s.emit y).cur = s.cur := rfl
@[simp] theorem State.self_emit (s : State) (y : Sym) : (s.emit y).self = s.self := rfl
@[simp] theorem State.peer_emit (s : State) (y : Sym) : (s.emit y).peer = s.peer := rfl
@[simp] theorem State.wire_emit (s : State) (y : Sym) : (s.emit y).wire = s.wire ++ [y] := rfl
@[simp] theorem State.a_emitCb (s : State) (m : Word) : (s.emitCb m).a = s.a := rfl
@[simp] theorem State.b_emitCb (s : State) (m : Word) : (s.emitCb m).b = s.b := rfl
@[simp] theorem State.wire_emitCb (s : State) (m : Word) : (s.emitCb m).wire = s.wire := rfl
@[simp] theorem State.comp_emitCb (s : State) (m : Word) : (s.emitCb m).comp = s.comp := rfl
@[simp] theorem State.sched_emitCb (s : State) (m : Word) : (s.emitCb m).sched = s.sched := rfl
@[simp] theorem State.cur_emitCb (s : State) (m : Word) : (s.emitCb m).cur = s.cur := rfl
@[simp] theorem State.self_emitCb (s : State) (m : Word) : (s.emitCb m).self = s.self := rfl
@[simp] theorem State.peer_emitCb (s : State) (m : Word) : (s.emitCb m).peer = s.peer := rfl
@[simp] theorem State.cblog_emitCb (s : State) (m : Word) : (s.emitCb m).cblog = s.cblog ++ [m] := rfl
@[simp] theorem State.node_emit (s : State) (y : Sym) (n : NodeId) : (s.emit y).node n = s.node n := by cases n <;> rfl
@[simp] theorem State.node_emitCb (s : State) (m : Word) (n : NodeId) : (s.emitCb m).node n = s.node n := by cases n <;> rfl
@[simp] theorem State.node_mapNode_same (s : State) (n : NodeId) (f : Node → Node) : (s.mapNode n f).node n = f (s.node n) := by cases n <;> rfl
theorem State.node_mapNode_ne (s : State) (m n : NodeId) (f : Node → Node) (h : n ≠ m) : (s.mapNode m f).node n = s.node n := by
  cases m <;> cases n <;> first | rfl | exact absurd rfl h
@[simp] theorem State.self_mapSelf (s : State) (f : Node → Node) : (s.mapSelf f).self = f s.self := by
  simp [State.self, State.mapSelf]
@[simp] theorem State.peer_mapSelf (s : State) (f : Node → Node) : (s.mapSelf f).peer = s.peer := by
  simp only [State.peer, State.mapSelf, State.cur_mapNode]
  exact State.node_mapNode_ne _ _ _ _ (NodeId.other_ne _)
@[simp] theorem State.self_mapPeer (s : State) (f : Node → Node) : (s.mapPeer f).self = s.self := by
  simp only [State.self, State.mapPeer, State.cur_mapNode]
  exact State.node_mapNode_ne _ _ _ _ (NodeId.other_ne _).symm
@[simp] theorem State.peer_mapPeer (s : State) (f : Node → Node) : (s.mapPeer f).peer = f s.peer := by
  simp [State.peer, State.mapPeer]
/-- Two changes of the moving node are one. -/
@[simp] theorem State.mapSelf_mapSelf (s : State) (f g : Node → Node) : (s.mapSelf f).mapSelf g = s.mapSelf fun n => g (f n) := by
  cases s with | mk a b w c m d cur => cases cur <;> rfl
@[simp] theorem State.mapPeer_mapPeer (s : State) (f g : Node → Node) : (s.mapPeer f).mapPeer g = s.mapPeer fun n => g (f n) := by
  cases s with | mk a b w c m d cur => cases cur <;> rfl
/-- The peer's change stands before the moving node's. -/
@[simp] theorem State.mapPeer_mapSelf (s : State) (f g : Node → Node) : (s.mapSelf f).mapPeer g = (s.mapPeer g).mapSelf f := by
  cases s with | mk a b w c m d cur => cases cur <;> rfl
@[simp] theorem State.emit_mapSelf (s : State) (f : Node → Node) (y : Sym) : (s.mapSelf f).emit y = (s.emit y).mapSelf f := by
  cases s with | mk a b w c m d cur => cases cur <;> rfl
@[simp] theorem State.emit_mapPeer (s : State) (f : Node → Node) (y : Sym) : (s.mapPeer f).emit y = (s.emit y).mapPeer f := by
  cases s with | mk a b w c m d cur => cases cur <;> rfl
@[simp] theorem State.emitCb_mapSelf (s : State) (f : Node → Node) (m : Word) : (s.mapSelf f).emitCb m = (s.emitCb m).mapSelf f := by
  cases s with | mk a b w c m d cur => cases cur <;> rfl
/-- A change of the moving node is known by what it does to that node. -/
theorem State.mapSelf_congr (s : State) {f g : Node → Node} (h : f s.self = g s.self) : s.mapSelf f = s.mapSelf g := by
  cases s with | mk a b w c m d cur => cases cur <;> simpa [State.mapSelf, State.mapNode, State.self, State.node] using h
theorem State.mapPeer_congr (s : State) {f g : Node → Node} (h : f s.peer = g s.peer) : s.mapPeer f = s.mapPeer g := by
  cases s with | mk a b w c m d cur => cases cur <;> simpa [State.mapPeer, State.mapNode, State.peer, State.node, NodeId.other] using h
@[simp] theorem State.mapSelf_id (s : State) : (s.mapSelf fun n => n) = s := by
  cases s with | mk a b w c m d cur => cases cur <;> rfl
@[simp] theorem State.mapPeer_id (s : State) : (s.mapPeer fun n => n) = s := by
  cases s with | mk a b w c m d cur => cases cur <;> rfl
/-- A property of both nodes is one of the moving node and its peer. -/
theorem State.both_iff (s : State) (P : Node → Prop) : (P s.a ∧ P s.b) ↔ (P s.self ∧ P s.peer) := by
  cases s with | mk a b w c m d cur => cases cur <;> simp [State.self, State.peer, State.node, NodeId.other, and_comm]
theorem State.owned_eq (s : State) : s.owned = s.self.cOwn.toNat + s.peer.cOwn.toNat := by
  cases s with | mk a b w c m d cur => cases cur <;> simp [State.owned, State.self, State.peer, State.node, NodeId.other, Nat.add_comm]

/-! ## `rearm` -/

@[simp] theorem Node.role_rearm (n : Node) (ack : Bool) : (n.rearm ack).role = n.role := rfl
@[simp] theorem Node.sla_rearm (n : Node) (ack : Bool) : (n.rearm ack).sla = n.sla := rfl
@[simp] theorem Node.busHz_rearm (n : Node) (ack : Bool) : (n.rearm ack).busHz = n.busHz := rfl
@[simp] theorem Node.cState_rearm (n : Node) (ack : Bool) : (n.rearm ack).cState = n.cState := rfl
@[simp] theorem Node.cOwn_rearm (n : Node) (ack : Bool) : (n.rearm ack).cOwn = n.cOwn := rfl
@[simp] theorem Node.csI_rearm (n : Node) (ack : Bool) : (n.rearm ack).csI = n.csI := rfl
@[simp] theorem Node.pState_rearm (n : Node) (ack : Bool) : (n.rearm ack).pState = n.pState := rfl
@[simp] theorem Node.pGc_rearm (n : Node) (ack : Bool) : (n.rearm ack).pGc = n.pGc := rfl
@[simp] theorem Node.pAcken_rearm (n : Node) (ack : Bool) : (n.rearm ack).pAcken = ack := rfl
@[simp] theorem Node.pEvt_rearm (n : Node) (ack : Bool) : (n.rearm ack).pEvt = none := rfl
@[simp] theorem Node.pDr_rearm (n : Node) (ack : Bool) : (n.rearm ack).pDr = n.pDr := rfl
@[simp] theorem Node.asyncEn_rearm (n : Node) (ack : Bool) : (n.rearm ack).asyncEn = n.asyncEn := rfl
@[simp] theorem Node.ie_rearm (n : Node) (ack : Bool) : (n.rearm ack).ie = n.ie := rfl
@[simp] theorem Node.ctx_rearm (n : Node) (ack : Bool) : (n.rearm ack).ctx = n.ctx := rfl
@[simp] theorem Node.cnt_rearm (n : Node) (ack : Bool) : (n.rearm ack).cnt = n.cnt := rfl
@[simp] theorem Node.acc_rearm (n : Node) (ack : Bool) : (n.rearm ack).acc = n.acc := rfl
@[simp] theorem Node.done_rearm (n : Node) (ack : Bool) : (n.rearm ack).done = n.done := rfl
@[simp] theorem Node.cb_rearm (n : Node) (ack : Bool) : (n.rearm ack).cb = n.cb := rfl
@[simp] theorem Node.fired_rearm (n : Node) (ack : Bool) : (n.rearm ack).fired = n.fired := rfl
@[simp] theorem Node.pbI_rearm (n : Node) (ack : Bool) : (n.rearm ack).pbI = n.pbI := rfl
@[simp] theorem Node.pbAcc_rearm (n : Node) (ack : Bool) : (n.rearm ack).pbAcc = n.pbAcc := rfl
@[simp] theorem Node.busy_rearm (n : Node) (ack : Bool) : (n.rearm ack).busy = n.busy := rfl
@[simp] theorem Node.ret_rearm (n : Node) (ack : Bool) : (n.rearm ack).ret = n.ret := rfl
@[simp] theorem Node.cbRet_rearm (n : Node) (ack : Bool) : (n.rearm ack).cbRet = n.cbRet := rfl
@[simp] theorem Node.prog_rearm (n : Node) (ack : Bool) : (n.rearm ack).prog = n.prog := rfl
@[simp] theorem Node.fns_rearm (n : Node) (ack : Bool) : (n.rearm ack).fns = n.fns := rfl
@[simp] theorem Node.answers_rearm (n : Node) (ack : Bool) : (n.rearm ack).answers = n.answers := rfl
@[simp] theorem Node.foreign_rearm (n : Node) (ack : Bool) : (n.rearm ack).foreign = n.foreign := rfl

/-! ## `resetAssembly` -/

@[simp] theorem Node.role_resetAssembly (n : Node) : n.resetAssembly.role = n.role := rfl
@[simp] theorem Node.sla_resetAssembly (n : Node) : n.resetAssembly.sla = n.sla := rfl
@[simp] theorem Node.busHz_resetAssembly (n : Node) : n.resetAssembly.busHz = n.busHz := rfl
@[simp] theorem Node.cState_resetAssembly (n : Node) : n.resetAssembly.cState = n.cState := rfl
@[simp] theorem Node.cOwn_resetAssembly (n : Node) : n.resetAssembly.cOwn = n.cOwn := rfl
@[simp] theorem Node.csI_resetAssembly (n : Node) : n.resetAssembly.csI = n.csI := rfl
@[simp] theorem Node.pState_resetAssembly (n : Node) : n.resetAssembly.pState = n.pState := rfl
@[simp] theorem Node.pGc_resetAssembly (n : Node) : n.resetAssembly.pGc = n.pGc := rfl
@[simp] theorem Node.pAcken_resetAssembly (n : Node) : n.resetAssembly.pAcken = n.pAcken := rfl
@[simp] theorem Node.pEvt_resetAssembly (n : Node) : n.resetAssembly.pEvt = n.pEvt := rfl
@[simp] theorem Node.pDr_resetAssembly (n : Node) : n.resetAssembly.pDr = n.pDr := rfl
@[simp] theorem Node.asyncEn_resetAssembly (n : Node) : n.resetAssembly.asyncEn = n.asyncEn := rfl
@[simp] theorem Node.ie_resetAssembly (n : Node) : n.resetAssembly.ie = n.ie := rfl
@[simp] theorem Node.ctx_resetAssembly (n : Node) : n.resetAssembly.ctx = n.ctx := rfl
@[simp] theorem Node.cnt_resetAssembly (n : Node) : n.resetAssembly.cnt = 0 := rfl
@[simp] theorem Node.acc_resetAssembly (n : Node) : n.resetAssembly.acc = 0 := rfl
@[simp] theorem Node.done_resetAssembly (n : Node) : n.resetAssembly.done = false := rfl
@[simp] theorem Node.cb_resetAssembly (n : Node) : n.resetAssembly.cb = n.cb := rfl
@[simp] theorem Node.fired_resetAssembly (n : Node) : n.resetAssembly.fired = false := rfl
@[simp] theorem Node.pbI_resetAssembly (n : Node) : n.resetAssembly.pbI = n.pbI := rfl
@[simp] theorem Node.pbAcc_resetAssembly (n : Node) : n.resetAssembly.pbAcc = n.pbAcc := rfl
@[simp] theorem Node.busy_resetAssembly (n : Node) : n.resetAssembly.busy = n.busy := rfl
@[simp] theorem Node.ret_resetAssembly (n : Node) : n.resetAssembly.ret = n.ret := rfl
@[simp] theorem Node.cbRet_resetAssembly (n : Node) : n.resetAssembly.cbRet = n.cbRet := rfl
@[simp] theorem Node.prog_resetAssembly (n : Node) : n.resetAssembly.prog = n.prog := rfl
@[simp] theorem Node.fns_resetAssembly (n : Node) : n.resetAssembly.fns = n.fns := rfl
@[simp] theorem Node.answers_resetAssembly (n : Node) : n.resetAssembly.answers = n.answers := rfl
@[simp] theorem Node.foreign_resetAssembly (n : Node) : n.resetAssembly.foreign = n.foreign := rfl

/-! ## `storeByte` -/

@[simp] theorem Node.role_storeByte (n : Node) : n.storeByte.role = n.role := rfl
@[simp] theorem Node.sla_storeByte (n : Node) : n.storeByte.sla = n.sla := rfl
@[simp] theorem Node.busHz_storeByte (n : Node) : n.storeByte.busHz = n.busHz := rfl
@[simp] theorem Node.cState_storeByte (n : Node) : n.storeByte.cState = n.cState := rfl
@[simp] theorem Node.cOwn_storeByte (n : Node) : n.storeByte.cOwn = n.cOwn := rfl
@[simp] theorem Node.csI_storeByte (n : Node) : n.storeByte.csI = n.csI := rfl
@[simp] theorem Node.pState_storeByte (n : Node) : n.storeByte.pState = n.pState := rfl
@[simp] theorem Node.pGc_storeByte (n : Node) : n.storeByte.pGc = n.pGc := rfl
@[simp] theorem Node.pAcken_storeByte (n : Node) : n.storeByte.pAcken = n.pAcken := rfl
@[simp] theorem Node.pEvt_storeByte (n : Node) : n.storeByte.pEvt = n.pEvt := rfl
@[simp] theorem Node.pDr_storeByte (n : Node) : n.storeByte.pDr = n.pDr := rfl
@[simp] theorem Node.asyncEn_storeByte (n : Node) : n.storeByte.asyncEn = n.asyncEn := rfl
@[simp] theorem Node.ie_storeByte (n : Node) : n.storeByte.ie = n.ie := rfl
@[simp] theorem Node.ctx_storeByte (n : Node) : n.storeByte.ctx = n.ctx := rfl
@[simp] theorem Node.cnt_storeByte (n : Node) : n.storeByte.cnt = n.cnt + 1 := rfl
@[simp] theorem Node.acc_storeByte (n : Node) : n.storeByte.acc = setLane n.acc n.cnt.toNat n.pDr := rfl
@[simp] theorem Node.done_storeByte (n : Node) : n.storeByte.done = n.done := rfl
@[simp] theorem Node.cb_storeByte (n : Node) : n.storeByte.cb = n.cb := rfl
@[simp] theorem Node.fired_storeByte (n : Node) : n.storeByte.fired = n.fired := rfl
@[simp] theorem Node.pbI_storeByte (n : Node) : n.storeByte.pbI = n.pbI := rfl
@[simp] theorem Node.pbAcc_storeByte (n : Node) : n.storeByte.pbAcc = n.pbAcc := rfl
@[simp] theorem Node.busy_storeByte (n : Node) : n.storeByte.busy = n.busy := rfl
@[simp] theorem Node.ret_storeByte (n : Node) : n.storeByte.ret = n.ret := rfl
@[simp] theorem Node.cbRet_storeByte (n : Node) : n.storeByte.cbRet = n.cbRet := rfl
@[simp] theorem Node.prog_storeByte (n : Node) : n.storeByte.prog = n.prog := rfl
@[simp] theorem Node.fns_storeByte (n : Node) : n.storeByte.fns = n.fns := rfl
@[simp] theorem Node.answers_storeByte (n : Node) : n.storeByte.answers = n.answers := rfl
@[simp] theorem Node.foreign_storeByte (n : Node) : n.storeByte.foreign = n.foreign := rfl

/-! ## `finish` -/

@[simp] theorem Node.role_finish (n : Node) (r : Result) : (n.finish r).role = n.role := rfl
@[simp] theorem Node.sla_finish (n : Node) (r : Result) : (n.finish r).sla = n.sla := rfl
@[simp] theorem Node.busHz_finish (n : Node) (r : Result) : (n.finish r).busHz = n.busHz := rfl
@[simp] theorem Node.cState_finish (n : Node) (r : Result) : (n.finish r).cState = n.cState := rfl
@[simp] theorem Node.cOwn_finish (n : Node) (r : Result) : (n.finish r).cOwn = n.cOwn := rfl
@[simp] theorem Node.csI_finish (n : Node) (r : Result) : (n.finish r).csI = n.csI := rfl
@[simp] theorem Node.pState_finish (n : Node) (r : Result) : (n.finish r).pState = n.pState := rfl
@[simp] theorem Node.pGc_finish (n : Node) (r : Result) : (n.finish r).pGc = n.pGc := rfl
@[simp] theorem Node.pAcken_finish (n : Node) (r : Result) : (n.finish r).pAcken = n.pAcken := rfl
@[simp] theorem Node.pEvt_finish (n : Node) (r : Result) : (n.finish r).pEvt = n.pEvt := rfl
@[simp] theorem Node.pDr_finish (n : Node) (r : Result) : (n.finish r).pDr = n.pDr := rfl
@[simp] theorem Node.asyncEn_finish (n : Node) (r : Result) : (n.finish r).asyncEn = n.asyncEn := rfl
@[simp] theorem Node.ie_finish (n : Node) (r : Result) : (n.finish r).ie = n.ie := rfl
@[simp] theorem Node.ctx_finish (n : Node) (r : Result) : (n.finish r).ctx = n.ctx := rfl
@[simp] theorem Node.cnt_finish (n : Node) (r : Result) : (n.finish r).cnt = n.cnt := rfl
@[simp] theorem Node.acc_finish (n : Node) (r : Result) : (n.finish r).acc = n.acc := rfl
@[simp] theorem Node.done_finish (n : Node) (r : Result) : (n.finish r).done = n.done := rfl
@[simp] theorem Node.cb_finish (n : Node) (r : Result) : (n.finish r).cb = n.cb := rfl
@[simp] theorem Node.fired_finish (n : Node) (r : Result) : (n.finish r).fired = n.fired := rfl
@[simp] theorem Node.pbI_finish (n : Node) (r : Result) : (n.finish r).pbI = n.pbI := rfl
@[simp] theorem Node.pbAcc_finish (n : Node) (r : Result) : (n.finish r).pbAcc = n.pbAcc := rfl
@[simp] theorem Node.busy_finish (n : Node) (r : Result) : (n.finish r).busy = .idle := rfl
@[simp] theorem Node.ret_finish (n : Node) (r : Result) : (n.finish r).ret = r := rfl
@[simp] theorem Node.cbRet_finish (n : Node) (r : Result) : (n.finish r).cbRet = n.cbRet := rfl
@[simp] theorem Node.prog_finish (n : Node) (r : Result) : (n.finish r).prog = n.prog := rfl
@[simp] theorem Node.fns_finish (n : Node) (r : Result) : (n.finish r).fns = n.fns := rfl
@[simp] theorem Node.answers_finish (n : Node) (r : Result) : (n.finish r).answers = n.answers := rfl
@[simp] theorem Node.foreign_finish (n : Node) (r : Result) : (n.finish r).foreign = n.foreign := rfl

/-! ## `returns` -/

@[simp] theorem Node.role_returns (n : Node) (r : Result) : (n.returns r).role = n.role := by
  unfold Node.returns; cases n.ctx <;> rfl
@[simp] theorem Node.sla_returns (n : Node) (r : Result) : (n.returns r).sla = n.sla := by
  unfold Node.returns; cases n.ctx <;> rfl
@[simp] theorem Node.busHz_returns (n : Node) (r : Result) : (n.returns r).busHz = n.busHz := by
  unfold Node.returns; cases n.ctx <;> rfl
@[simp] theorem Node.cState_returns (n : Node) (r : Result) : (n.returns r).cState = n.cState := by
  unfold Node.returns; cases n.ctx <;> rfl
@[simp] theorem Node.cOwn_returns (n : Node) (r : Result) : (n.returns r).cOwn = n.cOwn := by
  unfold Node.returns; cases n.ctx <;> rfl
@[simp] theorem Node.csI_returns (n : Node) (r : Result) : (n.returns r).csI = n.csI := by
  unfold Node.returns; cases n.ctx <;> rfl
@[simp] theorem Node.pState_returns (n : Node) (r : Result) : (n.returns r).pState = n.pState := by
  unfold Node.returns; cases n.ctx <;> rfl
@[simp] theorem Node.pGc_returns (n : Node) (r : Result) : (n.returns r).pGc = n.pGc := by
  unfold Node.returns; cases n.ctx <;> rfl
@[simp] theorem Node.pAcken_returns (n : Node) (r : Result) : (n.returns r).pAcken = n.pAcken := by
  unfold Node.returns; cases n.ctx <;> rfl
@[simp] theorem Node.pEvt_returns (n : Node) (r : Result) : (n.returns r).pEvt = n.pEvt := by
  unfold Node.returns; cases n.ctx <;> rfl
@[simp] theorem Node.pDr_returns (n : Node) (r : Result) : (n.returns r).pDr = n.pDr := by
  unfold Node.returns; cases n.ctx <;> rfl
@[simp] theorem Node.asyncEn_returns (n : Node) (r : Result) : (n.returns r).asyncEn = n.asyncEn := by
  unfold Node.returns; cases n.ctx <;> rfl
@[simp] theorem Node.ie_returns (n : Node) (r : Result) : (n.returns r).ie = n.ie := by
  unfold Node.returns; cases n.ctx <;> rfl
@[simp] theorem Node.ctx_returns (n : Node) (r : Result) : (n.returns r).ctx = n.ctx := by
  unfold Node.returns; cases n.ctx <;> rfl
@[simp] theorem Node.cnt_returns (n : Node) (r : Result) : (n.returns r).cnt = n.cnt := by
  unfold Node.returns; cases n.ctx <;> rfl
@[simp] theorem Node.acc_returns (n : Node) (r : Result) : (n.returns r).acc = n.acc := by
  unfold Node.returns; cases n.ctx <;> rfl
@[simp] theorem Node.done_returns (n : Node) (r : Result) : (n.returns r).done = n.done := by
  unfold Node.returns; cases n.ctx <;> rfl
@[simp] theorem Node.cb_returns (n : Node) (r : Result) : (n.returns r).cb = n.cb := by
  unfold Node.returns; cases n.ctx <;> rfl
@[simp] theorem Node.fired_returns (n : Node) (r : Result) : (n.returns r).fired = n.fired := by
  unfold Node.returns; cases n.ctx <;> rfl
@[simp] theorem Node.pbI_returns (n : Node) (r : Result) : (n.returns r).pbI = n.pbI := by
  unfold Node.returns; cases n.ctx <;> rfl
@[simp] theorem Node.pbAcc_returns (n : Node) (r : Result) : (n.returns r).pbAcc = n.pbAcc := by
  unfold Node.returns; cases n.ctx <;> rfl
@[simp] theorem Node.busy_returns (n : Node) (r : Result) : (n.returns r).busy = n.busy := by
  unfold Node.returns; cases n.ctx <;> rfl
@[simp] theorem Node.ret_returns (n : Node) (r : Result) : (n.returns r).ret = (match n.ctx with | .main => r | .irq => n.ret) := by
  unfold Node.returns; cases n.ctx <;> rfl
@[simp] theorem Node.cbRet_returns (n : Node) (r : Result) : (n.returns r).cbRet = (match n.ctx with | .main => n.cbRet | .irq => r) := by
  unfold Node.returns; cases n.ctx <;> rfl
@[simp] theorem Node.prog_returns (n : Node) (r : Result) : (n.returns r).prog = n.prog := by
  unfold Node.returns; cases n.ctx <;> rfl
@[simp] theorem Node.fns_returns (n : Node) (r : Result) : (n.returns r).fns = n.fns := by
  unfold Node.returns; cases n.ctx <;> rfl
@[simp] theorem Node.answers_returns (n : Node) (r : Result) : (n.returns r).answers = n.answers := by
  unfold Node.returns; cases n.ctx <;> rfl
@[simp] theorem Node.foreign_returns (n : Node) (r : Result) : (n.returns r).foreign = n.foreign := by
  unfold Node.returns; cases n.ctx <;> rfl

/-! ## Outcomes -/

@[simp] theorem andThen_next (s : State) (k : State → Out) : andThen (.next s) k = k s := rfl
@[simp] theorem andThen_refused (r : Refusal) (k : State → Out) : andThen (.refused r) k = .refused r := rfl
@[simp] theorem unlessRefused_none (k : Out) : unlessRefused none k = k := rfl
@[simp] theorem unlessRefused_some (r : Refusal) (k : Out) : unlessRefused (some r) k = .refused r := rfl
/-- A sequence answers a next state only through one. -/
theorem andThen_eq_next {o : Out} {k : State → Out} {t : State} : andThen o k = .next t ↔ ∃ s, o = .next s ∧ k s = .next t := by
  cases o <;> simp [andThen]
/-- A call answers a next state only where it is not refused. -/
theorem unlessRefused_eq_next {r : Option Refusal} {k : Out} {t : State} : unlessRefused r k = .next t ↔ r = none ∧ k = .next t := by
  cases r <;> simp [unlessRefused]

end Sys2Proof.Machine
end

