-- ==== Sys2Proof/Laws/Words.lean ====
section
/-! SUPPORT. Facts about the configuration's constants and about words, bytes and lanes. -/

namespace Sys2Proof

/-! ## The configuration (R10) -/

theorem Config.sla_ne_zero : Config.sla ≠ 0 := by
  intro h
  have := congrArg BitVec.toNat h
  have hi := Config.slaIndex.isLt
  simp only [Config.sla, BitVec.toNat_ofNat, BitVec.ofNat_eq_ofNat] at this
  omega

/-- EV_TIMEOUT is none of R96's codes (R98). -/
theorem Config.evTimeout_not_mem : Config.evTimeout ∉ Config.eventCodes := by
  unfold Config.evTimeout
  split
  · decide
  · assumption

theorem Config.evTimeout_ne {c : Byte} (h : c ∈ Config.eventCodes) : c ≠ Config.evTimeout := by
  rintro rfl; exact Config.evTimeout_not_mem h

theorem Config.evTimeout_beq {c : Byte} (h : c ∈ Config.eventCodes) : (Config.evTimeout == c) = false :=
  beq_false_of_ne (Config.evTimeout_ne h).symm

/-- The flag positions are distinct (R10, R92). -/
theorem Config.flagMap_distinct : Config.flagMap.Distinct := by
  simp [FlagMap.Distinct, Config.flagMap]

/-! ## Words and their bytes -/

theorem wordByte_eq (w : Word) (i k : Nat) (hk : k < 8) :
    (wordByte w i).getLsbD k = w.getLsbD (8 * i + k) := by
  simp [wordByte, hk]

/-- A word is its four bytes (R62). -/
@[simp] theorem word4_wordBytes (w : Word) :
    word4 (wordByte w 0) (wordByte w 1) (wordByte w 2) (wordByte w 3) = w := by
  apply BitVec.eq_of_getLsbD_eq
  intro i hi
  simp only [word4, wordByte, BitVec.getLsbD_append, BitVec.getLsbD_extractLsb']
  interval_cases i <;> simp

/-- Four bytes are the bytes of their word (R62). -/
theorem wordBytes_word4 (b0 b1 b2 b3 : Byte) : wordBytes (word4 b0 b1 b2 b3) = [b0, b1, b2, b3] := by
  simp only [wordBytes, List.cons.injEq, and_true]
  refine ⟨?_, ?_, ?_, ?_⟩ <;>
    (apply BitVec.eq_of_getLsbD_eq; intro i hi
     simp only [word4, wordByte, BitVec.getLsbD_append, BitVec.getLsbD_extractLsb']
     interval_cases i <;> simp)

@[simp] theorem half_halfBytes (v : BitVec 16) : (v.extractLsb' 8 8 ++ v.extractLsb' 0 8 : BitVec 16) = v := by
  apply BitVec.eq_of_getLsbD_eq
  intro i hi
  simp only [BitVec.getLsbD_append, BitVec.getLsbD_extractLsb']
  interval_cases i <;> simp

theorem halfBytes_append (b0 b1 : Byte) : halfBytes (b1 ++ b0 : BitVec 16) = [b0, b1] := by
  simp only [halfBytes, List.cons.injEq, and_true]
  refine ⟨?_, ?_⟩ <;>
    (apply BitVec.eq_of_getLsbD_eq; intro i hi
     simp only [BitVec.getLsbD_append, BitVec.getLsbD_extractLsb']
     interval_cases i <;> simp)

/-- The address byte's fields (R94). -/
@[simp] theorem extract_addrByte (a : BitVec 7) (w : Bool) : (addrByte a w).extractLsb' 1 7 = a := by
  apply BitVec.eq_of_getLsbD_eq
  intro i hi
  simp only [addrByte, BitVec.getLsbD_append, BitVec.getLsbD_extractLsb']
  interval_cases i <;> simp

@[simp] theorem direction_addrByte (a : BitVec 7) (w : Bool) : (addrByte a w).getLsbD 0 = w := by
  simp only [addrByte, BitVec.getLsbD_append]; simp

theorem addrByte_fields (b : Byte) : addrByte (b.extractLsb' 1 7) (b.getLsbD 0) = b := by
  apply BitVec.eq_of_getLsbD_eq
  intro i hi
  simp only [addrByte, BitVec.getLsbD_append, BitVec.getLsbD_extractLsb']
  interval_cases i <;> simp

/-- An address byte is the general call exactly for address 0 with the write bit (R94). -/
theorem addrByte_eq_zero (a : BitVec 7) : addrByte a false = 0 ↔ a = 0 := by
  constructor
  · intro h
    have := congrArg (fun b : Byte => b.extractLsb' 1 7) h
    simpa using this
  · rintro rfl; decide

/-- Operands narrower than their byte (R220, R231). -/
theorem setWidth_seven {b : Byte} (h : b.toNat < 128) : (b.setWidth 7).setWidth 8 = b := by
  apply BitVec.eq_of_toNat_eq
  simp only [BitVec.toNat_setWidth]
  omega

theorem setWidth_four {b : Byte} (h : b.toNat < 16) : (b.setWidth 4).setWidth 8 = b := by
  apply BitVec.eq_of_toNat_eq
  simp only [BitVec.toNat_setWidth]
  omega

/-- The Message word's fields (R91). -/
theorem msgWord_fields (f : BitVec 16) (a : BitVec 4) (rp : BitVec 12) :
    (msgWord f a rp).extractLsb' 16 16 = f ∧ (msgWord f a rp).extractLsb' 12 4 = a ∧
      (msgWord f a rp).extractLsb' 0 12 = rp := by
  refine ⟨?_, ?_, ?_⟩
  · apply BitVec.eq_of_getLsbD_eq; intro i hi
    simp only [msgWord, BitVec.getLsbD_append, BitVec.getLsbD_extractLsb']
    interval_cases i <;> simp
  · apply BitVec.eq_of_getLsbD_eq; intro i hi
    simp only [msgWord, BitVec.getLsbD_append, BitVec.getLsbD_extractLsb']
    interval_cases i <;> simp
  · apply BitVec.eq_of_getLsbD_eq; intro i hi
    simp only [msgWord, BitVec.getLsbD_append, BitVec.getLsbD_extractLsb']
    interval_cases i <;> simp

/-- Every word is the Message word of its fields (R91). -/
theorem msgWord_of_fields (w : Word) :
    msgWord (w.extractLsb' 16 16) (w.extractLsb' 12 4) (w.extractLsb' 0 12) = w := by
  apply BitVec.eq_of_getLsbD_eq
  intro i hi
  simp only [msgWord, BitVec.getLsbD_append, BitVec.getLsbD_extractLsb']
  interval_cases i <;> simp

namespace Machine

/-! ## Lanes (R12, R182) -/

@[simp] theorem lane_zero (i : Nat) : lane 0#32 i = 0#8 := by
  simp [lane, wordByte]

/-- Four lane stores, least-significant first, leave nothing of the word before them (R62, R182). -/
theorem setLane_four (w : Word) (b0 b1 b2 b3 : Byte) :
    setLane (setLane (setLane (setLane w 0 b0) 1 b1) 2 b2) 3 b3 = b3 ++ b2 ++ b1 ++ b0 := by
  apply BitVec.eq_of_getLsbD_eq
  intro i hi
  simp only [setLane, BitVec.getLsbD_or, BitVec.getLsbD_and, BitVec.getLsbD_not, BitVec.getLsbD_shiftLeft,
    BitVec.getLsbD_setWidth, BitVec.getLsbD_append]
  interval_cases i <;> simp

/-! ## Parity (R210) -/

/-- One fold of the parity computation is linear. -/
theorem xor_fold (a b : Word) (k : Nat) :
    (a ^^^ b) ^^^ ((a ^^^ b) >>> k) = (a ^^^ (a >>> k)) ^^^ (b ^^^ (b >>> k)) := by
  rw [BitVec.ushiftRight_xor_distrib]
  ac_rfl

/-- Parity is linear. -/
theorem parity31_xor (a b : Word) : parity31 (a ^^^ b) = (parity31 a ^^ parity31 b) := by
  have hm : (a ^^^ b) &&& 0xFFFFFFFE = (a &&& 0xFFFFFFFE) ^^^ (b &&& 0xFFFFFFFE) := by
    apply BitVec.eq_of_getLsbD_eq; intro i hi
    simp [Bool.and_xor_distrib_right]
  simp only [parity31, hm, xor_fold, BitVec.getLsbD_xor]

end Machine

end Sys2Proof
end

