-- ==== Sys2Proof/Laws/Ops.lean ====
section
/-! SUPPORT. What each shared operation can do, said once: the peripheral FSM's reactions, the four phase
primitives, a controller's phases, the waits, ENV's steps, the callback and the handler's run. -/

namespace Sys2Proof.Machine

/-! ## The peripheral FSM -/

/-- The codes the peripheral FSM latches by itself (R135 to R140). -/
def fsmCodes : List Byte := [0x60, 0x70, 0x80, 0x88, 0x90, 0x98, 0xA0]

/-- What a bus phase may change of a peripheral: P_STATE, P_GC, P_DR, and P_EVT to one of `fsmCodes`. -/
def Reaction (n n' : Node) : Prop :=
  ∃ ps gc dr e, n' = { n with pState := ps, pGc := gc, pDr := dr, pEvt := e } ∧
    (e = n.pEvt ∨ ∃ c ∈ fsmCodes, e = some c)

theorem Reaction.refl (n : Node) : Reaction n n := ⟨_, _, _, _, rfl, .inl rfl⟩

theorem Reaction.trans {n m k : Node} (h : Reaction n m) (h' : Reaction m k) : Reaction n k := by
  obtain ⟨ps, gc, dr, e, rfl, he⟩ := h
  obtain ⟨ps', gc', dr', e', rfl, he'⟩ := h'
  refine ⟨ps', gc', dr', e', rfl, ?_⟩
  rcases he' with rfl | hc
  · exact he
  · exact .inr hc

theorem seesStart_reaction (n : Node) (rep : Bool) : Reaction n (n.seesStart rep) := by
  unfold Node.seesStart
  split
  · exact ⟨.idle, _, _, some 0xA0, rfl, .inr ⟨_, by decide, rfl⟩⟩
  · exact .refl n

theorem seesAddress_reaction (n : Node) (a : Byte) : Reaction n (n.seesAddress a) := by
  unfold Node.seesAddress
  split
  · refine ⟨_, _, _, _, rfl, .inr ?_⟩
    split <;> exact ⟨_, by decide, rfl⟩
  · exact .refl n

theorem seesDataAt_reaction (d : Bool) (n : Node) (b : Byte) : Reaction n (n.seesDataAt d b) := by
  unfold Node.seesDataAt
  split
  · split
    · refine ⟨_, _, _, _, rfl, .inr ?_⟩
      split <;> exact ⟨_, by decide, rfl⟩
    · refine ⟨_, _, _, _, rfl, .inr ?_⟩
      split <;> exact ⟨_, by decide, rfl⟩
  · exact .refl n

theorem seesData_reaction (n : Node) (b : Byte) : Reaction n (n.seesData b) := seesDataAt_reaction _ n b

theorem seesStop_reaction (n : Node) : Reaction n n.seesStop := by
  unfold Node.seesStop
  split
  · exact ⟨.idle, _, _, some 0xA0, rfl, .inr ⟨_, by decide, rfl⟩⟩
  · exact .refl n

/-! A peripheral that is not addressed, or not matched, passes a phase by. -/

theorem seesStart_fresh (n : Node) : n.seesStart false = n := by
  simp [Node.seesStart]

theorem seesAddress_of_not_matched {n : Node} {a : Byte} (h : n.matchesAddress a = false) : n.seesAddress a = n := by
  simp [Node.seesAddress, h]

theorem seesAddress_of_matched {n : Node} {a : Byte} (h : n.matchesAddress a = true) :
    n.seesAddress a =
      { n with pState := .addressed, pGc := a == gcW, pEvt := some (if a == gcW then 0x70 else 0x60) } := by
  simp [Node.seesAddress, h]

theorem seesData_of_idle {n : Node} (h : n.pState = .idle) (b : Byte) : n.seesData b = n := by
  simp [Node.seesData, Node.seesDataAt, h]

theorem seesStop_of_idle {n : Node} (h : n.pState = .idle) : n.seesStop = n := by
  simp [Node.seesStop, h]

/-! ## The four phase primitives -/

theorem drawAnswer_eq_some {s t : State} {r : Byte} :
    drawAnswer s = some (r, t) ↔
      ∃ rs, s.self.answers = r :: rs ∧ t = s.mapSelf fun n => { n with answers := rs } := by
  unfold drawAnswer
  cases h : s.self.answers with
  | nil => simp
  | cons a rs => simp [eq_comm, and_comm]

theorem busStart_eq_some {rep : Bool} {s t : State} {r : Byte} (h : busStart rep s = some (r, t)) :
    (s.comp = .closed ∧ s.peer.holds = false ∧ r = (if rep then 0x10 else 0x08) ∧
      t = (s.emit (if rep then .Sr else .S)).mapPeer fun n => n.seesStart rep) ∨
    (s.comp = .openBus ∧ ∃ rs, s.self.answers = r :: rs ∧
      t = (s.emit (if rep then .Sr else .S)).mapSelf fun n => { n with answers := rs }) := by
  unfold busStart at h
  cases hc : s.comp <;> simp only [hc] at h
  · split at h
    · cases h
    · rename_i hh
      simp only [Option.some.injEq, Prod.mk.injEq] at h
      exact .inl ⟨rfl, by simpa using hh, h.1.symm, by rw [← h.2]; simp⟩
  · simp only [Option.map_eq_some_iff, Prod.exists, Prod.mk.injEq] at h
    obtain ⟨r', t', h', rfl, rfl⟩ := h
    obtain ⟨rs, hr, rfl⟩ := drawAnswer_eq_some.1 h'
    exact .inr ⟨rfl, rs, hr, by simp⟩

theorem busAddress_eq_some {a : Byte} {s t : State} {r : Byte} (h : busAddress a s = some (r, t)) :
    (s.comp = .closed ∧ s.peer.holds = false ∧ r = (if s.peer.matchesAddress a then 0x18 else 0x20) ∧
      t = (s.emit (.A a (s.peer.matchesAddress a))).mapPeer fun n => n.seesAddress a) ∨
    (s.comp = .openBus ∧ ∃ rs, s.self.answers = r :: rs ∧
      t = (s.emit (.A a (r == 0x18))).mapSelf fun n => { n with answers := rs }) := by
  unfold busAddress at h
  cases hc : s.comp <;> simp only [hc] at h
  · split at h
    · cases h
    · rename_i hh
      simp only [Option.some.injEq, Prod.mk.injEq] at h
      exact .inl ⟨rfl, by simpa using hh, h.1.symm, by rw [← h.2]; simp⟩
  · simp only [Option.map_eq_some_iff, Prod.exists, Prod.mk.injEq] at h
    obtain ⟨r', t', h', rfl, rfl⟩ := h
    obtain ⟨rs, hr, rfl⟩ := drawAnswer_eq_some.1 h'
    exact .inr ⟨rfl, rs, hr, by simp⟩

theorem busData_eq_some {b : Byte} {s t : State} {r : Byte} (h : busData b s = some (r, t)) :
    (s.comp = .closed ∧ s.peer.holds = false ∧ r = (if s.peer.acksData then 0x28 else 0x30) ∧
      t = (s.emit (.D b s.peer.acksData)).mapPeer fun n => n.seesData b) ∨
    (s.comp = .openBus ∧ ∃ rs, s.self.answers = r :: rs ∧
      t = (s.emit (.D b (r == 0x28))).mapSelf fun n => { n with answers := rs }) := by
  unfold busData at h
  cases hc : s.comp <;> simp only [hc] at h
  · split at h
    · cases h
    · rename_i hh
      simp only [Option.some.injEq, Prod.mk.injEq] at h
      exact .inl ⟨rfl, by simpa using hh, h.1.symm, by rw [← h.2]; simp⟩
  · simp only [Option.map_eq_some_iff, Prod.exists, Prod.mk.injEq] at h
    obtain ⟨r', t', h', rfl, rfl⟩ := h
    obtain ⟨rs, hr, rfl⟩ := drawAnswer_eq_some.1 h'
    exact .inr ⟨rfl, rs, hr, by simp⟩

theorem busStop_eq_some {s t : State} (h : busStop s = some t) :
    (s.comp = .closed ∧ s.peer.holds = false ∧ t = (s.emit .P).mapPeer Node.seesStop) ∨
    (s.comp = .openBus ∧ t = s.emit .P) := by
  unfold busStop at h
  cases hc : s.comp <;> simp only [hc] at h
  · split at h
    · cases h
    · rename_i hh
      cases h
      exact .inl ⟨rfl, by simpa using hh, by simp⟩
  · cases h
    exact .inr ⟨rfl, rfl⟩

/-! ## A controller's phases -/

/-- What a phase may change of the controller: C_STATE, C_OWN, CS_I, the operation in progress, its result
and the answers not yet used. -/
def Sequenced (n n' : Node) : Prop :=
  ∃ cs co ci bu re an,
    n' = { n with cState := cs, cOwn := co, csI := ci, busy := bu, ret := re, answers := an }

theorem Sequenced.refl (n : Node) : Sequenced n n := ⟨_, _, _, _, _, _, rfl⟩

theorem Sequenced.trans {n m k : Node} (h : Sequenced n m) (h' : Sequenced m k) : Sequenced n k := by
  obtain ⟨_, _, _, _, _, _, rfl⟩ := h
  obtain ⟨_, _, _, _, _, _, rfl⟩ := h'
  exact ⟨_, _, _, _, _, _, rfl⟩

theorem endWith_sequenced (r : Result) (n : Node) : Sequenced n (endWith r n) := by
  unfold endWith
  split
  · exact ⟨_, _, _, _, _, _, rfl⟩
  · split <;> exact ⟨_, _, _, _, _, _, rfl⟩

theorem toError_sequenced (r : Byte) (n : Node) : Sequenced n (toError r n) := ⟨_, _, _, _, _, _, rfl⟩

theorem finish_sequenced (r : Result) (n : Node) : Sequenced n (n.finish r) := ⟨_, _, _, _, _, _, rfl⟩

theorem afterStart_sequenced (t : CTask) (r : Byte) (n : Node) : Sequenced n (afterStart t r n) := by
  unfold afterStart
  split
  · exact ⟨_, _, _, _, _, _, rfl⟩
  · cases t
    · exact ⟨_, _, _, _, _, _, rfl⟩
    · exact Sequenced.trans ⟨_, _, _, _, _, _, rfl⟩ (endWith_sequenced _ _)

theorem afterAddress_sequenced (t : CTask) (r : Byte) (n : Node) : Sequenced n (afterAddress t r n) := by
  unfold afterAddress
  split
  · cases t <;> exact ⟨_, _, _, _, _, _, rfl⟩
  · cases t
    · exact (toError_sequenced r n).trans (finish_sequenced _ _)
    · exact (toError_sequenced r n).trans (endWith_sequenced _ _)

theorem afterData_sequenced (t : CTask) (r : Byte) (n : Node) : Sequenced n (afterData t r n) := by
  unfold afterData
  split
  · cases t
    · exact finish_sequenced _ _
    · dsimp only
      split
      · exact ⟨_, _, _, _, _, _, rfl⟩
      · exact endWith_sequenced _ _
  · cases t
    · exact (toError_sequenced r n).trans (finish_sequenced _ _)
    · exact (toError_sequenced r n).trans (endWith_sequenced _ _)

theorem afterStop_sequenced (r : Result) (n : Node) : Sequenced n (afterStop r n) := ⟨_, _, _, _, _, _, rfl⟩

/-- What a controller's phases leave of the system: the moving node's sequencer goes on, the peer reacts,
WIRE only grows, everything else is as before. -/
structure PhaseFrame (s t : State) : Prop where
  self : Sequenced s.self t.self
  peer : Reaction s.peer t.peer
  wire : s.wire <+: t.wire
  cblog : t.cblog = s.cblog
  comp : t.comp = s.comp
  sched : t.sched = s.sched
  cur : t.cur = s.cur

theorem PhaseFrame.refl (s : State) : PhaseFrame s s :=
  ⟨.refl _, .refl _, List.prefix_refl _, rfl, rfl, rfl, rfl⟩

theorem PhaseFrame.trans {s t u : State} (h : PhaseFrame s t) (h' : PhaseFrame t u) : PhaseFrame s u :=
  ⟨h.self.trans h'.self, h.peer.trans h'.peer, h.wire.trans h'.wire, h'.cblog.trans h.cblog, h'.comp.trans h.comp,
    h'.sched.trans h.sched, h'.cur.trans h.cur⟩

/-- A phase of the controller operation in progress: which one, what it answers and what follows. -/
theorem controllerPhase_eq_some {s t : State} (h : controllerPhase s = some t) :
    (∃ k rep r u, s.self.busy = .atStart k rep ∧ busStart rep s = some (r, u) ∧ t = u.mapSelf (afterStart k r)) ∨
    (∃ k r u, s.self.busy = .atAddress k ∧ busAddress (slaW s.self.sla) s = some (r, u) ∧
      t = u.mapSelf (afterAddress k r)) ∨
    (∃ k b r u, s.self.busy = .atData k b ∧ busData b s = some (r, u) ∧ t = u.mapSelf (afterData k r)) ∨
    (∃ r u, s.self.busy = .atStop r ∧ busStop s = some u ∧ t = u.mapSelf (afterStop r)) := by
  unfold controllerPhase at h
  cases hb : s.self.busy <;> simp only [hb, Option.map_eq_some_iff, Prod.exists, reduceCtorEq] at h
  · obtain ⟨r, u, hu, rfl⟩ := h
    exact .inl ⟨_, _, r, u, rfl, hu, rfl⟩
  · obtain ⟨r, u, hu, rfl⟩ := h
    exact .inr (.inl ⟨_, r, u, rfl, hu, rfl⟩)
  · obtain ⟨r, u, hu, rfl⟩ := h
    exact .inr (.inr (.inl ⟨_, _, r, u, rfl, hu, rfl⟩))
  · obtain ⟨u, hu, rfl⟩ := h
    exact .inr (.inr (.inr ⟨_, u, rfl, hu, rfl⟩))

theorem controllerPhase_frame {s t : State} (h : controllerPhase s = some t) : PhaseFrame s t := by
  obtain ⟨k, rep, r, u, -, hu, rfl⟩ | ⟨k, r, u, -, hu, rfl⟩ | ⟨k, b, r, u, -, hu, rfl⟩ | ⟨r, u, -, hu, rfl⟩ :=
    controllerPhase_eq_some h
  · rcases busStart_eq_some hu with ⟨_, _, _, rfl⟩ | ⟨_, rs, _, rfl⟩ <;> constructor <;>
      simp [seesStart_reaction, afterStart_sequenced, Reaction.refl]
    exact Sequenced.trans ⟨_, _, _, _, _, rs, rfl⟩ (afterStart_sequenced _ _ _)
  · rcases busAddress_eq_some hu with ⟨_, _, _, rfl⟩ | ⟨_, rs, _, rfl⟩ <;> constructor <;>
      simp [seesAddress_reaction, afterAddress_sequenced, Reaction.refl]
    exact Sequenced.trans ⟨_, _, _, _, _, rs, rfl⟩ (afterAddress_sequenced _ _ _)
  · rcases busData_eq_some hu with ⟨_, _, _, rfl⟩ | ⟨_, rs, _, rfl⟩ <;> constructor <;>
      simp [seesData_reaction, afterData_sequenced, Reaction.refl]
    exact Sequenced.trans ⟨_, _, _, _, _, rs, rfl⟩ (afterData_sequenced _ _ _)
  · rcases busStop_eq_some hu with ⟨_, _, rfl⟩ | ⟨_, rfl⟩ <;> constructor <;>
      simp [seesStop_reaction, afterStop_sequenced, Reaction.refl]

/-- One phase, or none: what every phase keeps, the next phase keeps. -/
theorem nextPhase_cases (s : State) :
    (controllerPhase s = none ∧ nextPhase s = s) ∨ controllerPhase s = some (nextPhase s) := by
  unfold nextPhase
  cases controllerPhase s <;> simp

theorem nextPhase_frame (s : State) : PhaseFrame s (nextPhase s) := by
  rcases nextPhase_cases s with ⟨-, h⟩ | h
  · rw [h]; exact .refl s
  · exact controllerPhase_frame h

/-- With no phase to put on the bus nothing changes. -/
theorem nextPhase_of_none {s : State} (h : controllerPhase s = none) : nextPhase s = s := by
  simp [nextPhase, h]

theorem nextPhase_of_some {s t : State} (h : controllerPhase s = some t) : nextPhase s = t := by
  simp [nextPhase, h]

/-- A main program inside no controller phase has none. -/
theorem controllerPhase_eq_none {s : State}
    (h : ∀ t rep b r, s.self.busy ≠ .atStart t rep ∧ s.self.busy ≠ .atAddress t ∧ s.self.busy ≠ .atData t b ∧
      s.self.busy ≠ .atStop r) : controllerPhase s = none := by
  unfold controllerPhase
  cases hb : s.self.busy with
  | atStart t rep => exact absurd hb (h t rep 0 .unit).1
  | atAddress t => exact absurd hb (h t false 0 .unit).2.1
  | atData t b => exact absurd hb (h t false b .unit).2.2.1
  | atStop r => exact absurd hb (h .call false 0 r).2.2.2
  | _ => rfl

/-! ### Each phase by composition, and what follows it in an operation of its own -/

theorem controllerPhase_of_idle {s : State} (h : s.self.busy = .idle) : controllerPhase s = none := by
  simp [controllerPhase, h]

theorem controllerPhase_start_open {s : State} {t : CTask} {rep : Bool} {r : Byte} {rs : List Byte}
    (hb : s.self.busy = .atStart t rep) (hc : s.comp = .openBus) (ha : s.self.answers = r :: rs) :
    controllerPhase s =
      some ((s.emit (if rep then .Sr else .S)).mapSelf fun n => afterStart t r { n with answers := rs }) := by
  simp [controllerPhase, hb, busStart, hc, drawAnswer, ha]

theorem controllerPhase_address_open {s : State} {t : CTask} {r : Byte} {rs : List Byte}
    (hb : s.self.busy = .atAddress t) (hc : s.comp = .openBus) (ha : s.self.answers = r :: rs) :
    controllerPhase s =
      some ((s.emit (.A (slaW s.self.sla) (r == 0x18))).mapSelf fun n => afterAddress t r { n with answers := rs }) := by
  simp [controllerPhase, hb, busAddress, hc, drawAnswer, ha]

theorem controllerPhase_data_open {s : State} {t : CTask} {b r : Byte} {rs : List Byte}
    (hb : s.self.busy = .atData t b) (hc : s.comp = .openBus) (ha : s.self.answers = r :: rs) :
    controllerPhase s =
      some ((s.emit (.D b (r == 0x28))).mapSelf fun n => afterData t r { n with answers := rs }) := by
  simp [controllerPhase, hb, busData, hc, drawAnswer, ha]

theorem controllerPhase_stop_open {s : State} {r : Result} (hb : s.self.busy = .atStop r) (hc : s.comp = .openBus) :
    controllerPhase s = some ((s.emit .P).mapSelf (afterStop r)) := by
  simp [controllerPhase, hb, busStop, hc]

theorem controllerPhase_start_closed {s : State} {t : CTask} {rep : Bool} (hb : s.self.busy = .atStart t rep)
    (hc : s.comp = .closed) (hh : s.peer.holds = false) :
    controllerPhase s =
      some (((s.emit (if rep then .Sr else .S)).mapPeer fun n => n.seesStart rep).mapSelf fun n =>
        afterStart t (if rep then 0x10 else 0x08) n) := by
  simp [controllerPhase, hb, busStart, hc, hh]

theorem controllerPhase_address_closed {s : State} {t : CTask} (hb : s.self.busy = .atAddress t)
    (hc : s.comp = .closed) (hh : s.peer.holds = false) :
    controllerPhase s =
      some (((s.emit (.A (slaW s.self.sla) (s.peer.matchesAddress (slaW s.self.sla)))).mapPeer fun n =>
        n.seesAddress (slaW s.self.sla)).mapSelf fun n =>
          afterAddress t (if s.peer.matchesAddress (slaW s.self.sla) then 0x18 else 0x20) n) := by
  simp [controllerPhase, hb, busAddress, hc, hh]

theorem controllerPhase_data_closed {s : State} {t : CTask} {b : Byte} (hb : s.self.busy = .atData t b)
    (hc : s.comp = .closed) (hh : s.peer.holds = false) :
    controllerPhase s =
      some (((s.emit (.D b s.peer.acksData)).mapPeer fun n => n.seesData b).mapSelf fun n =>
        afterData t (if s.peer.acksData then 0x28 else 0x30) n) := by
  simp [controllerPhase, hb, busData, hc, hh]

theorem controllerPhase_stop_closed {s : State} {r : Result} (hb : s.self.busy = .atStop r)
    (hc : s.comp = .closed) (hh : s.peer.holds = false) :
    controllerPhase s = some (((s.emit .P).mapPeer Node.seesStop).mapSelf (afterStop r)) := by
  simp [controllerPhase, hb, busStop, hc, hh]

/-- A peer that holds the bus lets no phase of a controller begin (R134). -/
theorem controllerPhase_of_held {s : State} (hc : s.comp = .closed) (hh : s.peer.holds = true) :
    controllerPhase s = none := by
  unfold controllerPhase
  split <;> simp [busStart, busAddress, busData, busStop, hc, hh]

/-- While ENV has given no answer no phase but the stop begins on the open bus (R120). -/
theorem controllerPhase_of_unanswered {s : State} (hc : s.comp = .openBus) (ha : s.self.answers = [])
    (hb : ∀ r, s.self.busy ≠ .atStop r) : controllerPhase s = none := by
  unfold controllerPhase
  split <;> simp_all [busStart, busAddress, busData, drawAnswer]

theorem afterStart_ok {r : Byte} (h : isStartOk r = true) (t : CTask) (n : Node) :
    afterStart t r n = { n with cOwn := true, cState := .address, busy := .atAddress t } := by
  simp [afterStart, h]

theorem afterStart_call_error {r : Byte} (h : isStartOk r = false) (n : Node) :
    afterStart .call r n = { n with cOwn := false, cState := .error, busy := .idle, ret := .code r } := by
  simp [afterStart, h, Node.finish]

theorem afterAddress_call (r : Byte) (n : Node) :
    afterAddress .call r n =
      { n with
        cState := if r = 0x18 then n.cState else .error, cOwn := n.cOwn && !(r == 0x38), busy := .idle,
        ret := .code r } := by
  by_cases h : r = 0x18
  · subst h; simp [afterAddress, Node.finish]
  · by_cases h' : r = 0x38
    · subst h'; simp [afterAddress, toError, Node.finish]
    · rw [afterAddress, if_neg h, if_neg h]
      simp only [toError, if_neg h', beq_false_of_ne h']
      simp [Node.finish]

theorem afterData_call (r : Byte) (n : Node) :
    afterData .call r n =
      { n with
        cState := if r = 0x28 then n.cState else .error, cOwn := n.cOwn && !(r == 0x38), busy := .idle,
        ret := .code r } := by
  by_cases h : r = 0x28
  · subst h; simp [afterData, Node.finish]
  · by_cases h' : r = 0x38
    · subst h'; simp [afterData, toError, Node.finish]
    · rw [afterData, if_neg h, if_neg h]
      simp only [toError, if_neg h', beq_false_of_ne h']
      simp [Node.finish]

/-- `send` goes on with byte 0 after its address is acknowledged (R160). -/
theorem afterAddress_send_ack (m : Word) (n : Node) :
    afterAddress (.send m) 0x18 n =
      { n with csI := 0, cState := .data, busy := .atData (.send m) (payloadByte m 0) } := by
  simp [afterAddress, toData]

/-- `send` stops at an address that is not acknowledged (R160, R161). -/
theorem afterAddress_send_nack {r : Byte} (h : r ≠ 0x18) (m : Word) (n : Node) :
    afterAddress (.send m) r n = endWith (.sent (some (.addressNotAcknowledged r))) (toError r n) := by
  rw [afterAddress, if_neg h]

/-- `send` goes on with the next byte after one of the first three (R160). -/
theorem afterData_send_more {n : Node} (h : n.csI.toNat < 3) (m : Word) :
    afterData (.send m) 0x28 n =
      { n with csI := n.csI + 1, cState := .data, busy := .atData (.send m) (payloadByte m (n.csI + 1)) } := by
  simp [afterData, h, toData]

/-- `send` ends with Ok after the fourth (R160). -/
theorem afterData_send_last {n : Node} (h : ¬ n.csI.toNat < 3) (m : Word) :
    afterData (.send m) 0x28 n = endWith (.sent none) n := by
  simp [afterData, h]

/-- `send` stops at a byte that is not acknowledged (R160, R161). -/
theorem afterData_send_nack {r : Byte} (h : r ≠ 0x28) (m : Word) (n : Node) :
    afterData (.send m) r n = endWith (.sent (some (.byteNotAcknowledged (n.csI.setWidth 2)))) (toError r n) := by
  rw [afterData, if_neg h]

theorem endWith_idle {n : Node} (h : n.cState = .idle) (r : Result) : endWith r n = n.finish r := by
  simp [endWith, h]

theorem endWith_owned {n : Node} (h : n.cState ≠ .idle) (ho : n.cOwn = true) (r : Result) :
    endWith r n = { n with cState := .stop, busy := .atStop r } := by
  simp [endWith, h, ho]

theorem endWith_not_owned {n : Node} (h : n.cState ≠ .idle) (ho : n.cOwn = false) (r : Result) :
    endWith r n = { n with cState := .idle }.finish r := by
  simp [endWith, h, ho]

/-! ## The waits -/

/-- What a wait may change: P_ACKEN, P_EVT (to none only), PB_I, PB_ACC, the operation and its result. -/
def Waited (n n' : Node) : Prop :=
  ∃ ak e pi pa bu re, n' = { n with pAcken := ak, pEvt := e, pbI := pi, pbAcc := pa, busy := bu, ret := re } ∧
    (e = n.pEvt ∨ e = none)

theorem Waited.refl (n : Node) : Waited n n := ⟨_, _, _, _, _, _, rfl, .inl rfl⟩

theorem recvAddressOnAt_waited (ab : Bool) (c : Byte) (n : Node) : Waited n (recvAddressOnAt ab c n) := by
  unfold recvAddressOnAt
  split
  · exact ⟨_, _, _, _, _, _, rfl, .inr rfl⟩
  · split <;> exact ⟨_, _, _, _, _, _, rfl, .inr rfl⟩

theorem recvDataOn_waited (c : Byte) (n : Node) : Waited n (recvDataOn c n) := by
  unfold recvDataOn
  split
  · dsimp only
    split <;> exact ⟨_, _, _, _, _, _, rfl, .inr rfl⟩
  · exact ⟨_, _, _, _, _, _, rfl, .inr rfl⟩

theorem observe_waited (n : Node) : Waited n (observe n) := by
  unfold observe
  split
  · exact .refl n
  · split
    · exact ⟨_, _, _, _, _, _, rfl, .inl rfl⟩
    · exact ⟨_, _, _, _, _, _, rfl, .inl rfl⟩
    · exact recvAddressOnAt_waited _ _ _
    · exact recvDataOn_waited _ _
    all_goals exact .refl n

theorem afterExpiry_waited (n : Node) : Waited n (afterExpiry n) := by
  unfold afterExpiry
  split
  · exact recvAddressOnAt_waited _ _ _
  · exact recvDataOn_waited _ _
  all_goals exact observe_waited n

theorem expire_waited (n : Node) : Waited n (expire n) := by
  unfold expire
  split
  · exact .refl n
  · split
    · exact ⟨_, _, _, _, _, _, rfl, .inl rfl⟩
    · exact ⟨_, _, _, _, _, _, rfl, .inl rfl⟩
    · exact ⟨_, _, _, _, _, _, rfl, .inl rfl⟩
    all_goals exact .refl n

/-- The expiry of a poll of `receive_blocking` is met by no match and no data (R98). -/
theorem recvAddressOnAt_evTimeout (ab : Bool) (n : Node) :
    recvAddressOnAt ab Config.evTimeout n =
      { n with
        pAcken := true, pEvt := none, ret := if ab then .message n.pbAcc else n.ret,
        busy := if ab then .idle else .recvAddress } := by
  have h : isAddrMatch Config.evTimeout = false := by
    simp only [isAddrMatch, Config.evTimeout_beq (c := 0x60) (by decide), Config.evTimeout_beq (c := 0x68) (by decide),
      Config.evTimeout_beq (c := 0x70) (by decide), Config.evTimeout_beq (c := 0x78) (by decide), Bool.or_false]
  cases ab <;> simp [recvAddressOnAt, h, Node.rearm, Node.finish]

theorem recvDataOn_evTimeout (n : Node) :
    recvDataOn Config.evTimeout n =
      { n with pAcken := true, pEvt := none, ret := .message n.pbAcc, busy := .idle } := by
  have h : isDataRx Config.evTimeout = false := by
    simp only [isDataRx, isDataRxAck, isDataRxNack, Config.evTimeout_beq (c := 0x80) (by decide),
      Config.evTimeout_beq (c := 0x88) (by decide), Config.evTimeout_beq (c := 0x90) (by decide),
      Config.evTimeout_beq (c := 0x98) (by decide), Bool.or_false]
  simp [recvDataOn, h, Node.rearm, Node.finish]

/-- A controller's operation is over, or stands at a phase that is not its start. -/
def Busy.afterPhase : Busy → Bool
  | .idle | .atAddress _ | .atData _ _ | .atStop _ => true
  | .atStart _ _ | .readByte | .pollEvent _ | .recvAddress | .recvAddressExpired | .recvData | .recvDataExpired => false

theorem afterExpiry_of_afterPhase {n : Node} (h : n.busy.afterPhase = true) : afterExpiry n = n := by
  unfold afterExpiry observe
  cases hb : n.busy <;> simp [Busy.afterPhase, hb] at h ⊢ <;> cases n.pEvt <;> rfl

theorem endWith_afterPhase (r : Result) (n : Node) : (endWith r n).busy.afterPhase = true := by
  unfold endWith
  split
  · rfl
  · split <;> rfl

/-- After a phase no wait of a peripheral is left to serve. -/
theorem controllerPhase_afterPhase {s t : State} (h : controllerPhase s = some t) : t.self.busy.afterPhase = true := by
  obtain ⟨k, rep, r, u, -, -, rfl⟩ | ⟨k, r, u, -, -, rfl⟩ | ⟨k, b, r, u, -, -, rfl⟩ | ⟨r, u, -, -, rfl⟩ :=
    controllerPhase_eq_some h <;> rw [State.self_mapSelf]
  · unfold afterStart
    split
    · rfl
    · cases k
      · rfl
      · exact endWith_afterPhase _ _
  · unfold afterAddress
    split <;> cases k <;> first | rfl | exact endWith_afterPhase _ _
  · unfold afterData
    split <;> cases k <;> first | rfl | exact endWith_afterPhase _ _ | skip
    dsimp only
    split
    · rfl
    · exact endWith_afterPhase _ _
  · rfl

/-- A main program inside no operation goes on with nothing. -/
theorem resume_of_idle {s : State} (h : s.self.busy = .idle) : resume s = s := by
  rw [resume, nextPhase_of_none (controllerPhase_of_idle h),
    s.mapSelf_congr (g := fun n => n) (afterExpiry_of_afterPhase (by rw [h]; rfl))]
  simp

/-- Going on with a controller's operation is its next phase. -/
theorem resume_of_phase {s t : State} (h : controllerPhase s = some t) : resume s = t := by
  rw [resume, nextPhase_of_some h,
    t.mapSelf_congr (g := fun n => n) (afterExpiry_of_afterPhase (controllerPhase_afterPhase h))]
  simp

/-- A controller's operation whose phase cannot begin spins (R134). -/
theorem resume_of_waiting {s : State} (h : controllerPhase s = none)
    (hb : (∃ t rep, s.self.busy = .atStart t rep) ∨ s.self.busy.afterPhase = true) : resume s = s := by
  have : afterExpiry s.self = s.self := by
    rcases hb with ⟨t, rep, hb⟩ | hb
    · unfold afterExpiry observe
      cases s.self.pEvt <;> simp [hb]
    · exact afterExpiry_of_afterPhase hb
  rw [resume, nextPhase_of_none h, s.mapSelf_congr (g := fun n => n) this]
  simp

/-- What going on with an operation can change: a controller's phase, then a peripheral's wait. -/
theorem resume_frame (s : State) :
    PhaseFrame s (nextPhase s) ∧ Waited (nextPhase s).self (resume s).self ∧ (resume s).peer = (nextPhase s).peer ∧
      resume s = (nextPhase s).mapSelf fun _ => (resume s).self := by
  refine ⟨nextPhase_frame s, ?_, ?_, ?_⟩
  · simpa [resume] using afterExpiry_waited (nextPhase s).self
  · simp [resume]
  · apply State.mapSelf_congr
    simp [resume]

/-- Nothing is observed while nothing is latched. -/
theorem observe_of_none {n : Node} (h : n.pEvt = none) : observe n = n := by
  simp [observe, h]

/-! ## ENV -/

theorem envEvent_of_closed {s : State} (h : s.comp = .closed) (c d : Byte) : envEvent c d s = s := by
  simp [envEvent, h]

/-- ENV's step latches the code at a listening peripheral, or hands an answer to a controller, or is none. -/
theorem envEvent_cases (c d : Byte) (s : State) :
    envEvent c d s = s ∨
    (s.self.role = .controller ∧ envEvent c d s = s.mapSelf fun n => { n with answers := n.answers ++ [c] }) ∨
    (s.self.role = .peripheral ∧ s.self.pEvt = none ∧
      envEvent c d s = s.mapSelf fun n => { n with pEvt := some c, pDr := if isDataRx c then d else n.pDr }) := by
  unfold envEvent
  split
  · split
    · rename_i h; exact .inr (.inr ⟨by assumption, by simpa using h, rfl⟩)
    · exact .inl rfl
  · exact .inr (.inl ⟨by assumption, rfl⟩)
  · exact .inl rfl
  · exact .inl rfl

/-- What a foreign controller's phases leave of the system. -/
structure ForeignFrame (s t : State) : Prop where
  self : ∃ ph, Reaction { s.self with foreign := ph } t.self
  peer : t.peer = s.peer
  wire : s.wire <+: t.wire
  cblog : t.cblog = s.cblog
  comp : t.comp = s.comp
  sched : t.sched = s.sched
  cur : t.cur = s.cur

theorem ForeignFrame.refl (s : State) : ForeignFrame s s :=
  ⟨⟨s.self.foreign, .refl _⟩, rfl, List.prefix_refl _, rfl, rfl, rfl, rfl⟩

theorem ForeignFrame.trans {s t u : State} (h : ForeignFrame s t) (h' : ForeignFrame t u) : ForeignFrame s u := by
  refine ⟨?_, h'.peer.trans h.peer, h.wire.trans h'.wire, h'.cblog.trans h.cblog, h'.comp.trans h.comp,
    h'.sched.trans h.sched, h'.cur.trans h.cur⟩
  obtain ⟨p1, ps, gc, dr, e, h1, he⟩ := h.self
  obtain ⟨p2, ps', gc', dr', e', h2, he'⟩ := h'.self
  rw [h1] at h2 he'
  refine ⟨p2, ps', gc', dr', e', h2, ?_⟩
  rcases he' with rfl | hc
  · exact he
  · exact .inr hc

theorem foreignPhase_frame {s t : State} (h : foreignPhase s = some t) : ForeignFrame s t := by
  unfold foreignPhase at h
  cases hc : s.comp <;> simp only [hc, reduceCtorEq] at h
  cases hf : s.self.foreign with
  | nil => simp [hf] at h
  | cons ph rest =>
    simp only [hf] at h
    split at h
    · cases h
    · cases ph <;> simp only [Option.some.injEq] at h <;> subst h <;> constructor <;> simp <;>
        exact ⟨rest, by first | exact seesStart_reaction _ _ | exact seesAddress_reaction _ _ |
          exact seesData_reaction _ _ | exact seesStop_reaction _⟩

theorem foreignGoesOn_frame (s : State) : ForeignFrame s (foreignGoesOn s) := by
  unfold foreignGoesOn
  cases h : foreignPhase s with
  | none => exact .refl s
  | some t => exact foreignPhase_frame h

theorem foreignBegins_frame (phs : List Phase) (s : State) : ForeignFrame s (foreignBegins phs s) := by
  unfold foreignBegins
  split
  · refine ForeignFrame.trans ?_ (foreignGoesOn_frame _)
    constructor <;> simp
    exact ⟨_, .refl _⟩
  · exact .refl s

/-- In the closed composition there is no foreign controller (R14). -/
theorem foreignGoesOn_of_closed {s : State} (h : s.comp = .closed) : foreignGoesOn s = s := by
  simp [foreignGoesOn, foreignPhase, h]

theorem foreignBegins_of_closed {s : State} (h : s.comp = .closed) (phs : List Phase) : foreignBegins phs s = s := by
  simp [foreignBegins, h]

/-! ### A foreign controller's phases one by one -/

theorem foreignPhase_start {s : State} {rest : List Phase} (hc : s.comp = .openBus)
    (hf : s.self.foreign = .start :: rest) (hh : s.self.holds = false) :
    foreignPhase s = some ((s.emit .S).mapSelf fun n => { n with foreign := rest }.seesStart false) := by
  simp [foreignPhase, hc, hf, hh]

theorem foreignPhase_address {s : State} {a : BitVec 7} {rest : List Phase} (hc : s.comp = .openBus)
    (hf : s.self.foreign = .address a :: rest) (hh : s.self.holds = false) :
    foreignPhase s = some ((s.emit (.A (slaW a) (s.self.matchesAddress (slaW a)))).mapSelf fun n =>
      { n with foreign := rest }.seesAddress (slaW a)) := by
  simp [foreignPhase, hc, hf, hh]

theorem foreignPhase_data {s : State} {a : Byte} {rest : List Phase} (hc : s.comp = .openBus)
    (hf : s.self.foreign = .data a :: rest) (hh : s.self.holds = false) :
    foreignPhase s = some ((s.emit (.D a s.self.acksData)).mapSelf fun n => { n with foreign := rest }.seesData a) := by
  simp [foreignPhase, hc, hf, hh]

theorem foreignPhase_stop {s : State} {rest : List Phase} (hc : s.comp = .openBus)
    (hf : s.self.foreign = .stop :: rest) (hh : s.self.holds = false) :
    foreignPhase s = some ((s.emit .P).mapSelf fun n => { n with foreign := rest }.seesStop) := by
  simp [foreignPhase, hc, hf, hh]

/-- What a foreign controller's phase puts on WIRE where no peripheral listens (log 26). -/
def Phase.unheard : Phase → Sym
  | .start => .S
  | .address a => .A (slaW a) false
  | .data b => .D b false
  | .stop => .P

theorem foreignPhase_elsewhere {s : State} {ph : Phase} {rest : List Phase} (hc : s.comp = .openBus)
    (hr : s.self.role ≠ .peripheral) (hf : s.self.foreign = ph :: rest) :
    foreignPhase s = some ((s.emit ph.unheard).mapSelf fun n => { n with foreign := rest }) := by
  have hb : (s.self.role == .peripheral) = false := beq_false_of_ne hr
  have hh : s.self.holds = false := by simp [Node.holds, hb]
  cases ph with
  | start => rw [foreignPhase_start hc hf hh]; simp [seesStart_fresh, Phase.unheard]
  | address a =>
    rw [foreignPhase_address hc hf hh, show s.self.matchesAddress (slaW a) = false by simp [Node.matchesAddress, hb]]
    exact congrArg some (State.mapSelf_congr _ (seesAddress_of_not_matched (by simp [Node.matchesAddress, hb])))
  | data b =>
    rw [foreignPhase_data hc hf hh, show s.self.acksData = false by simp [Node.acksData, hb]]
    exact congrArg some (State.mapSelf_congr _ (by simp [Node.seesData, Node.seesDataAt, hr]))
  | stop =>
    rw [foreignPhase_stop hc hf hh]
    exact congrArg some (State.mapSelf_congr _ (by simp [Node.seesStop, hr]))

theorem foreignPhase_of_held {s : State} (h : s.self.holds = true) : foreignPhase s = none := by
  unfold foreignPhase
  split <;> simp [h]

theorem foreignPhase_of_nil {s : State} (h : s.self.foreign = []) : foreignPhase s = none := by
  unfold foreignPhase
  split <;> simp_all

theorem foreignGoesOn_of_none {s : State} (h : foreignPhase s = none) : foreignGoesOn s = s := by
  simp [foreignGoesOn, h]

theorem foreignGoesOn_of_some {s t : State} (h : foreignPhase s = some t) : foreignGoesOn s = t := by
  simp [foreignGoesOn, h]

/-! ## The callback and the handler's run -/

/-- What one permitted call does in interrupt context (R197): the result, and DONE cleared by
`take_message`. -/
theorem callbackCall_permitted {i : Instr} {s : State} (hi : Permitted i = true) (hc : s.self.ctx = .irq)
    (hr : s.self.role = .peripheral) :
    ∃ r, callbackCall i s = .next (s.mapSelf fun n =>
      { n with done := n.done && !(i == .takeMessage), cbRet := r }) := by
  have hret : ∀ r, s.mapSelf (fun n => n.returns r) = s.mapSelf fun n => { n with cbRet := r } := fun r =>
    s.mapSelf_congr (by simp [Node.returns, hc])
  have hkeep : ∀ (v : Result) (k : Bool), k = false →
      s.mapSelf (fun n => { n with cbRet := v }) = s.mapSelf fun n => { n with done := n.done && !k, cbRet := v } :=
    fun v k hk => s.mapSelf_congr (by simp [hk])
  cases i <;> simp [Permitted] at hi
  case takeMessage =>
    simp only [callbackCall, execTakeMessage, refusedPeripheral, hr]
    refine ⟨.optMessage (if s.self.done then some s.self.acc else none), ?_⟩
    simp only [reduceCtorEq, if_false, not_true, ne_eq, unlessRefused_none]
    congr 1
    apply s.mapSelf_congr
    by_cases hd : s.self.done <;> simp [hd, Node.returns, hc]
  case messageReady =>
    simp only [callbackCall, execMessageReady, refusedPeripheral, hr]
    refine ⟨.bool s.self.done, ?_⟩
    simp only [reduceCtorEq, if_false, not_true, ne_eq, unlessRefused_none]
    congr 1
    apply s.mapSelf_congr
    simp [Node.returns, hc]
  all_goals
    simp only [callbackCall, execBuild, execBuildWithAux, execIsValid, execParity31, execGetFlags, execGetAux,
      execHasFlag, execDispatch, pureResult, hret]
    exact ⟨_, congrArg Host.Outcome.next (hkeep _ _ (by simp))⟩

/-- A body of permitted calls runs: its last result, and DONE kept exactly if it never took the message
(R196, R197). -/
theorem runCalls_permitted : ∀ (is : List Instr) (s : State), (∀ i ∈ is, Permitted i = true) →
    s.self.ctx = .irq → s.self.role = .peripheral →
    ∃ r, runCalls is s = .next (s.mapSelf fun n =>
      { n with done := n.done && !is.contains .takeMessage, cbRet := r })
  | [], s, _, _, _ => ⟨s.self.cbRet, by
      simp only [runCalls]
      congr 1
      rw [s.mapSelf_congr (f := fun n => { n with done := n.done && !([] : List Instr).contains .takeMessage, cbRet := s.self.cbRet }) (g := fun n => n) (by simp)]
      simp⟩
  | i :: is, s, hp, hc, hr => by
    obtain ⟨r, h1⟩ := callbackCall_permitted (hp i (by simp)) hc hr
    obtain ⟨r', h2⟩ := runCalls_permitted is (s.mapSelf fun n =>
      { n with done := n.done && !(i == .takeMessage), cbRet := r }) (fun j hj => hp j (by simp [hj]))
      (by simpa using hc) (by simpa using hr)
    refine ⟨r', ?_⟩
    simp only [runCalls, h1, andThen_next, h2, State.mapSelf_mapSelf]
    congr 1
    apply s.mapSelf_congr
    by_cases hi : i = .takeMessage
    · subst hi; simp
    · have h' : Instr.takeMessage ≠ i := fun h => hi h.symm
      simp [beq_false_of_ne hi, h']

/-- A call that is not permitted answers no next state. -/
theorem callbackCall_not_permitted {i : Instr} {s : State} (h : Permitted i = false) :
    callbackCall i s = .refused (if i.format = .hostop then .blockingInHandler else .unknownOperation) := by
  cases i <;> first | (simp [Permitted] at h; done) | rfl

/-- Whatever a body answers as a next state, only its result and DONE differ, and DONE is set only if it was. -/
theorem runCalls_eq_next : ∀ (is : List Instr) (s t : State), runCalls is s = .next t → s.self.ctx = .irq →
    s.self.role = .peripheral →
    ∃ d r, t = s.mapSelf (fun n => { n with done := d, cbRet := r }) ∧ (d = true → s.self.done = true)
  | is, s, t, h, hc, hr => by
    by_cases hp : ∀ i ∈ is, Permitted i = true
    · obtain ⟨r, h'⟩ := runCalls_permitted is s hp hc hr
      rw [h'] at h
      cases h
      exact ⟨s.self.done && !is.contains .takeMessage, r, s.mapSelf_congr rfl, by simp; tauto⟩
    · exfalso
      induction is generalizing s with
      | nil => simp at hp
      | cons i is ih =>
        simp only [runCalls, andThen_eq_next] at h
        obtain ⟨u, hu, h⟩ := h
        by_cases hi : Permitted i = true
        · obtain ⟨r, h1⟩ := callbackCall_permitted hi hc hr
          rw [h1] at hu
          cases hu
          exact ih _ h (by simpa using hc) (by simpa using hr) (by simpa [hi] using hp)
        · rw [callbackCall_not_permitted (by simpa using hi)] at hu
          cases hu

/-- The host's functions are no part of what a callback or a handler changes. -/
theorem Node.hostFn_of_fns {n m : Node} (h : n.fns = m.fns) (f : Byte) : n.hostFn f = m.hostFn f := by
  simp [Node.hostFn, h]

/-- Completion with no callback registered (R184, R185). -/
theorem completeMessage_of_none {s : State} (h : s.self.cb = none) :
    completeMessage s = .next (s.mapSelf fun n => { n with done := true, fired := true }) := by
  simp [completeMessage, invokeCallback, h]

/-- Completion with a callback of permitted calls (R184, R185, R196). -/
theorem completeMessage_of_some {s : State} {f : Byte} (h : s.self.cb = some f) (hc : s.self.ctx = .irq)
    (hr : s.self.role = .peripheral) (hp : ∀ i ∈ (s.self.hostFn f).calls s.self.acc, Permitted i = true) :
    ∃ r, completeMessage s = .next ((s.emitCb s.self.acc).mapSelf fun n =>
      { n with
        done := !((s.self.hostFn f).calls s.self.acc).contains .takeMessage, fired := true, cbRet := r }) := by
  obtain ⟨r, h'⟩ := runCalls_permitted _
    ((s.emitCb s.self.acc).mapSelf fun n => { n with done := true, fired := true }) hp (by simpa using hc) (by simpa using hr)
  refine ⟨r, ?_⟩
  simp only [completeMessage, invokeCallback, State.self_mapSelf, h, State.emitCb_mapSelf,
    Node.hostFn_of_fns (n := { s.self with done := true, cb := some f, fired := true }) (m := s.self) rfl]
  rw [h']
  simp

/-- Whatever a completion answers as a next state. -/
theorem completeMessage_eq_next {s t : State} (h : completeMessage s = .next t) (hc : s.self.ctx = .irq)
    (hr : s.self.role = .peripheral) :
    (s.self.cb = none ∧ t = s.mapSelf fun n => { n with done := true, fired := true }) ∨
    (s.self.cb.isSome = true ∧ ∃ d r,
      t = (s.emitCb s.self.acc).mapSelf fun n => { n with done := d, fired := true, cbRet := r }) := by
  cases hcb : s.self.cb with
  | none =>
    rw [completeMessage_of_none hcb] at h
    cases h
    exact .inl ⟨rfl, rfl⟩
  | some f =>
    simp only [completeMessage, invokeCallback, State.self_mapSelf, hcb, State.emitCb_mapSelf] at h
    obtain ⟨d, r, rfl, -⟩ := runCalls_eq_next _ _ _ h (by simpa using hc) (by simpa using hr)
    exact .inr ⟨rfl, d, r, by simp⟩

/-- One run of the handler whose body only changes the node: the change, between CTX = IRQ and the `rearm`
that ends every branch (R180, R255, R258). -/
theorem handlerRun_mapSelf (f : Node → Node) (ack : State → Bool) (s : State) :
    handlerRun (fun s => .next (s.mapSelf f)) ack s =
      .next (s.mapSelf fun n =>
        { (f { n with ctx := .irq }).rearm (ack (s.mapSelf fun n => f { n with ctx := .irq })) with ctx := .main }) := by
  simp [handlerRun, takeInterrupt, returnFromInterrupt]

/-- The default branch re-arms with ack and ignores (R186). -/
theorem handlerIgnores_eq {s : State} (h : s.self.ctx = .main) :
    handlerIgnores s = .next (s.mapSelf fun n => { n with pAcken := true, pEvt := none }) := by
  simp only [handlerIgnores, handlerRun, takeInterrupt, returnFromInterrupt, andThen_next, State.mapSelf_mapSelf]
  congr 1
  apply s.mapSelf_congr
  simp [Node.rearm, h.symm]

end Sys2Proof.Machine
end

