-- ==== Sys2Proof/Laws/Effect.lean ====
section
/-! SUPPORT. What an operation can do, said once: every next state of `exec` is one of the effects below, and
every next state of `step` comes from one of them, from a main program going on, or from a foreign
controller going on. A claim about all steps is proved by cases on these. -/

namespace Sys2Proof.Machine

/-- The next states of `exec` from `s`. -/
inductive Effect (i : Instr) (s : State) : State → Prop
  /-- nothing but a result (R192, R193, R210 to R222) -/
  | returns (hf : i.format = .hostop) (r : Result) : Effect i s (s.mapSelf fun n => n.returns r)
  /-- `take_message` (R193) -/
  | takes (hf : i.format = .hostop) (r : Result) : Effect i s (s.mapSelf fun n => { n with done := false }.returns r)
  /-- R230 -/
  | initController (hf : i.format = .hostop) (hz : Word) (hx : s.self.ctx ≠ .irq) (hr : s.self.role ≠ .peripheral) (ho : s.self.cOwn = false) :
      Effect i s (s.mapSelf fun n =>
        { n with role := .controller, busHz := hz, cState := .idle, cOwn := false }.returns .unit)
  /-- R231 -/
  | initPeripheral (a : BitVec 7) (hi : i = .initPeripheral a) (hx : s.self.ctx ≠ .irq) (hs : a ≠ 0)
      (hr : s.self.role ≠ .controller) :
      Effect i s (s.mapSelf fun n =>
        ({ n with
            role := .peripheral, sla := a, pState := .idle, pGc := false, pEvt := none, pAcken := true,
            asyncEn := false, cb := none }.resetAssembly).returns .unit)
  /-- R234, R235 -/
  | setsIE (hf : i.format = .hostop) (v : Bool) (r : Node → Result) : Effect i s (s.mapSelf fun n => { n with ie := v }.returns (r n))
  /-- R190 -/
  | enables (f : Byte) (hi : i = .enableAsync f) (hr : s.self.role = .peripheral) :
      Effect i s (s.mapSelf fun n =>
        ({ n with cb := some f, asyncEn := true }.resetAssembly.rearm true).returns .unit)
  /-- R191 -/
  | disables (hf : i.format = .hostop) : Effect i s (s.mapSelf fun n => { n with asyncEn := false }.returns .unit)
  /-- R130 -/
  | rearms (hf : i.format = .hostop) (ack : Bool) : Effect i s (s.mapSelf fun n => (n.rearm ack).returns .unit)
  /-- R122, R123, R160 -/
  | starts (hf : i.format = .hostop) (t : CTask) (rep : Bool) (hr : s.self.role = .controller)
      (hs : (rep = false ∧ s.self.cState = .idle) ∨
        (rep = true ∧ (s.self.cState = .address ∨ s.self.cState = .data) ∧ s.self.cOwn = true)) :
      Effect i s (nextPhase
        (s.mapSelf fun n => { n with cState := .start, busy := .atStart t rep }))
  /-- R126 -/
  | writes (hf : i.format = .hostop) (b : Byte) (hr : s.self.role = .controller) (hs : s.self.cState = .address ∨ s.self.cState = .data)
      (ho : s.self.cOwn = true) : Effect i s (nextPhase (s.mapSelf (toData .call b)))
  /-- R127 -/
  | ends (hf : i.format = .hostop) (hr : s.self.role = .controller) :
      Effect i s (nextPhase (s.mapSelf (endWith .unit)))
  /-- R131 -/
  | readsByte (hf : i.format = .hostop) (ack : Bool) (hr : s.self.role = .peripheral) :
      Effect i s (s.mapSelf fun n => observe { n.rearm ack with busy := .readByte })
  /-- R132 -/
  | polls (hf : i.format = .hostop) (timeout : Word) (hr : s.self.role = .peripheral) :
      Effect i s (s.mapSelf fun n => observe { n with busy := .pollEvent timeout })
  /-- R170 -/
  | receives (hf : i.format = .hostop) (hr : s.self.role = .peripheral) :
      Effect i s (s.mapSelf fun n => observe { n with pbAcc := 0, pbI := 0, busy := .recvAddress })
  /-- R120, R143 -/
  | event (c d : Byte) (hc : c ∈ Config.eventCodes) : Effect i s (envEvent c d s)
  /-- R132 -/
  | expires : Effect i s (s.mapSelf expire)
  /-- R91, R93, R94 -/
  | begins (phs : List Phase) : Effect i s (foreignBegins phs s)
  /-- a handler step that is not enabled (R250) -/
  | masked (hf : i.format = .irq) : Effect i s s
  /-- R181 -/
  | resets (hf : i.format = .irq) (he : s.self.irqEnabled = true) :
      Effect i s (s.mapSelf fun n =>
        { n with cnt := 0, acc := 0, done := false, fired := false, pAcken := true, pEvt := none })
  /-- R183 -/
  | stores (hf : i.format = .irq) (he : s.self.irqEnabled = true) (hn : s.self.cnt.toNat < 3) (ack : Bool) :
      Effect i s (s.mapSelf fun n =>
        { n with acc := setLane n.acc n.cnt.toNat n.pDr, cnt := n.cnt + 1, pAcken := ack, pEvt := none })
  /-- R184 without a callback -/
  | completes (hf : i.format = .irq) (he : s.self.irqEnabled = true) (hn : s.self.cnt.toNat < 4) :
      Effect i s (s.mapSelf fun n =>
        { n with
          acc := setLane n.acc n.cnt.toNat n.pDr, cnt := n.cnt + 1, done := true, fired := true, pAcken := true,
          pEvt := none })
  /-- R184 with a callback -/
  | callsBack (hf : i.format = .irq) (he : s.self.irqEnabled = true) (hn : s.self.cnt.toNat < 4) (hcb : s.self.cb.isSome = true)
      (d : Bool) (r : Result) :
      Effect i s ((s.emitCb (setLane s.self.acc s.self.cnt.toNat s.self.pDr)).mapSelf fun n =>
        { n with
          acc := setLane n.acc n.cnt.toNat n.pDr, cnt := n.cnt + 1, done := d, fired := true, pAcken := true,
          pEvt := none, cbRet := r })
  /-- R185's guard, without a callback -/
  | stopCompletes (hf : i.format = .irq) (he : s.self.irqEnabled = true) (hn : s.self.cnt = 4) (hfd : s.self.fired = false) :
      Effect i s (s.mapSelf fun n => { n with done := true, fired := true, pAcken := true, pEvt := none })
  /-- R185's guard, with a callback -/
  | stopCallsBack (hf : i.format = .irq) (he : s.self.irqEnabled = true) (hn : s.self.cnt = 4) (hfd : s.self.fired = false)
      (hcb : s.self.cb.isSome = true) (d : Bool) (r : Result) :
      Effect i s ((s.emitCb s.self.acc).mapSelf fun n =>
        { n with done := d, fired := true, pAcken := true, pEvt := none, cbRet := r })
  /-- R185, R186 -/
  | ignores (hf : i.format = .irq) (he : s.self.irqEnabled = true) :
      Effect i s (s.mapSelf fun n => { n with pAcken := true, pEvt := none })

/-- Two accounts of one next state. -/
theorem Effect.of_eq {i : Instr} {s t u : State} (h : Effect i s t) (e : t = u) : Effect i s u := e ▸ h

theorem refusedController_eq_none {n : Node} :
    refusedController n = none ↔ n.role = .controller ∧ n.ctx = .main := by
  unfold refusedController
  cases n.role <;> cases n.ctx <;> simp

theorem refusedPeripheral_eq_none {n : Node} : refusedPeripheral n = none ↔ n.role = .peripheral := by
  unfold refusedPeripheral
  cases n.role <;> simp

theorem refusedPeripheralMain_eq_none {n : Node} :
    refusedPeripheralMain n = none ↔ n.role = .peripheral ∧ n.ctx = .main := by
  unfold refusedPeripheralMain
  cases n.role <;> cases n.ctx <;> simp

theorem refusedPolling_eq_none {n : Node} :
    refusedPolling n = none ↔ (n.role = .peripheral ∧ n.ctx = .main) ∧ n.asyncEn = false := by
  rw [← refusedPeripheralMain_eq_none]
  unfold refusedPolling
  cases refusedPeripheralMain n <;> cases n.asyncEn <;> simp

/-! ## The meanings with several ends -/

theorem execBeginAsController_effect {w : Bool} {s t : State} (h : execBeginAsController w s = .next t) : Effect (.beginAsController w) s t := by
  obtain ⟨hr, h⟩ := unlessRefused_eq_next.1 h
  have hr := (refusedController_eq_none.1 hr).1
  split at h
  · cases h
  · split at h
    · rename_i hc
      cases h
      exact .starts rfl .call false hr (.inl ⟨rfl, hc⟩)
    · split at h
      · rename_i hc ho
        cases h
        exact .starts rfl .call true hr (.inr ⟨rfl, .inl hc, ho⟩)
      · cases h
    · split at h
      · rename_i hc ho
        cases h
        exact .starts rfl .call true hr (.inr ⟨rfl, .inr hc, ho⟩)
      · cases h
    all_goals cases h

theorem execWriteByte_effect {b : Byte} {s t : State} (h : execWriteByte b s = .next t) : Effect (.writeByte b) s t := by
  obtain ⟨hr, h⟩ := unlessRefused_eq_next.1 h
  have hr := (refusedController_eq_none.1 hr).1
  split at h
  · split at h
    · rename_i hc ho
      cases h
      exact .writes rfl b hr (.inl hc) ho
    · cases h
  · split at h
    · rename_i hc ho
      cases h
      exact .writes rfl b hr (.inr hc) ho
    · cases h
  all_goals cases h

theorem execSend_effect {m : Word} {s t : State} (h : execSend m s = .next t) : Effect (.send m) s t := by
  obtain ⟨hr, h⟩ := unlessRefused_eq_next.1 h
  have hr := (refusedController_eq_none.1 hr).1
  split at h
  · cases h
  · rename_i hc
    cases h
    exact .starts rfl (.send m) false hr (.inl ⟨rfl, by simpa using hc⟩)

theorem execReadByte_effect {a : Bool} {s t : State} (h : execReadByte a s = .next t) : Effect (.readByte a) s t := by
  unfold execReadByte at h
  split at h
  · cases h
  · obtain ⟨hr, h⟩ := unlessRefused_eq_next.1 h
    cases h
    exact .readsByte rfl a (refusedPolling_eq_none.1 hr).1.1

theorem execInitController_effect {hz : Word} {s t : State} (h : execInitController hz s = .next t) : Effect (.initController hz) s t := by
  simp only [execInitController] at h
  split at h
  · cases h
  · rename_i hx
    split at h
    · cases h
    · rename_i hr
      cases h
      exact .initController rfl hz hx (fun h => hr (.inl h)) (by simpa using fun h => hr (.inr h))

theorem execInitPeripheral_effect {sla : BitVec 7} {s t : State} (h : execInitPeripheral sla s = .next t) :
    Effect (.initPeripheral sla) s t := by
  simp only [execInitPeripheral] at h
  split at h
  · cases h
  · rename_i hx
    split at h
    · cases h
    · rename_i hs
      split at h
      · cases h
      · rename_i hr
        split at h
        · cases h
        · cases h
          exact .initPeripheral _ rfl hx hs hr

theorem execTakeMessage_effect {s t : State} (h : execTakeMessage s = .next t) : Effect .takeMessage s t := by
  obtain ⟨hr, h⟩ := unlessRefused_eq_next.1 h
  cases h
  by_cases hd : s.self.done = true
  · exact (Effect.takes rfl (.optMessage (some s.self.acc))).of_eq (s.mapSelf_congr (by simp [hd]))
  · exact (Effect.returns rfl (.optMessage none)).of_eq (s.mapSelf_congr (by simp [hd]))

theorem irqTaken_enabled {n : Node} {c : Byte} (h : n.irqTaken c = true) :
    n.irqEnabled = true ∧ n.ctx = .main ∧ n.role = .peripheral := by
  simp only [Node.irqTaken, Node.irqEnabled, Bool.and_eq_true, beq_iff_eq] at h ⊢
  tauto

/-- A run whose body only changes the node's assembly. -/
theorem handlerRun_effect {f : Node → Node} {s : State} (a : Bool)
    {ack : State → Bool} (ha : ack (s.mapSelf fun n => f { n with ctx := .irq }) = a)
    (hf : f { s.self with ctx := .irq } = { f s.self with ctx := .irq }) (hm : (f s.self).ctx = .main) :
    handlerRun (fun s => .next (s.mapSelf f)) ack s =
      .next (s.mapSelf fun n => { f n with pAcken := a, pEvt := none }) := by
  rw [handlerRun_mapSelf, ha]
  congr 1
  apply s.mapSelf_congr
  simp only [hf, Node.rearm]
  cases hn : f s.self
  simp_all

theorem execIrqAddrMatch_effect {g a : Bool} {s t : State} (h : execIrqAddrMatch g a s = .next t) : Effect (.irqAddrMatch g a) s t := by
  unfold execIrqAddrMatch at h
  split at h
  · rename_i hi
    obtain ⟨he, hc, -⟩ := irqTaken_enabled hi
    rw [handlerRun_effect true rfl (by simp [Node.resetAssembly]) (by simpa using hc)] at h
    cases h
    exact (Effect.resets rfl he).of_eq (s.mapSelf_congr rfl)
  · cases h; exact .masked rfl

theorem handlerIgnores_effect {i : Instr} {s t : State} (hf : i.format = .irq) (he : s.self.irqEnabled = true) (hc : s.self.ctx = .main)
    (h : handlerIgnores s = .next t) : Effect i s t := by
  rw [handlerIgnores_eq hc] at h
  cases h
  exact .ignores hf he

theorem execIrqDataAck_effect {g : Bool} {s t : State} (h : execIrqDataAck g s = .next t) : Effect (.irqDataAck g) s t := by
  unfold execIrqDataAck at h
  split at h
  · rename_i hi
    obtain ⟨he, hc, -⟩ := irqTaken_enabled hi
    split at h
    · rename_i hn
      rw [handlerRun_effect _ rfl (by simp [Node.storeByte]) (by simpa using hc)] at h
      cases h
      exact (Effect.stores rfl he hn _).of_eq (s.mapSelf_congr rfl)
    · exact handlerIgnores_effect rfl he hc h
  · cases h; exact .masked rfl

theorem execIrqDataNack_effect {g : Bool} {s t : State} (h : execIrqDataNack g s = .next t) : Effect (.irqDataNack g) s t := by
  unfold execIrqDataNack at h
  split at h
  · rename_i hi
    obtain ⟨he, hc, hr⟩ := irqTaken_enabled hi
    split at h
    · rename_i hn
      obtain ⟨u, hu, h⟩ := andThen_eq_next.1 h
      cases h
      rcases completeMessage_eq_next hu (by simp [takeInterrupt]) (by simp [takeInterrupt, hr]) with
        ⟨-, rfl⟩ | ⟨hcb, d, r, rfl⟩
      · refine (Effect.completes rfl he hn).of_eq ?_
        simp only [returnFromInterrupt, takeInterrupt, State.mapSelf_mapSelf]
        apply s.mapSelf_congr
        simp [Node.storeByte, Node.rearm, hc]
      · refine (Effect.callsBack rfl he hn (by simpa [takeInterrupt] using hcb) d r).of_eq ?_
        simp only [returnFromInterrupt, takeInterrupt, State.mapSelf_mapSelf, State.emitCb_mapSelf, State.self_mapSelf,
          Node.acc_storeByte]
        apply State.mapSelf_congr
        simp [Node.storeByte, Node.rearm, hc]
    · exact handlerIgnores_effect rfl he hc h
  · cases h; exact .masked rfl

theorem execIrqStop_effect {s t : State} (h : execIrqStop s = .next t) : Effect .irqStop s t := by
  unfold execIrqStop at h
  split at h
  · rename_i hi
    obtain ⟨he, hc, hr⟩ := irqTaken_enabled hi
    obtain ⟨u, hu, h⟩ := andThen_eq_next.1 h
    cases h
    by_cases hg : s.self.cnt = 4 ∧ s.self.fired = false
    · simp only [takeInterrupt, State.self_mapSelf, if_pos hg] at hu
      rcases completeMessage_eq_next hu (by simp) (by simp [hr]) with ⟨-, rfl⟩ | ⟨hcb, d, r, rfl⟩
      · refine (Effect.stopCompletes rfl he hg.1 hg.2).of_eq ?_
        simp only [returnFromInterrupt, State.mapSelf_mapSelf]
        apply s.mapSelf_congr
        simp [Node.rearm, hc]
      · refine (Effect.stopCallsBack rfl he hg.1 hg.2 (by simpa using hcb) d r).of_eq ?_
        simp only [returnFromInterrupt, State.mapSelf_mapSelf, State.emitCb_mapSelf, State.self_mapSelf]
        apply State.mapSelf_congr
        simp [Node.rearm, hc]
    · simp only [takeInterrupt, State.self_mapSelf, if_neg hg] at hu
      cases hu
      refine (Effect.ignores rfl he).of_eq ?_
      simp only [returnFromInterrupt, State.mapSelf_mapSelf]
      apply s.mapSelf_congr
      simp [Node.rearm, hc]
  · cases h; exact .masked rfl

theorem execIrqOther_effect {c : Byte} {s t : State} (h : execIrqOther c s = .next t) : Effect (.irqOther c) s t := by
  unfold execIrqOther at h
  split at h
  · rename_i hi
    obtain ⟨he, hc, -⟩ := irqTaken_enabled hi
    exact handlerIgnores_effect rfl he hc h
  · cases h; exact .masked rfl

theorem execAddr_effect {a : BitVec 7} {w : Bool} {s t : State} (h : execAddr a w s = .next t) : Effect (.addr a w) s t := by
  unfold execAddr at h
  split at h <;> cases h
  exact .begins _

/-- Every next state of `exec` is an effect. -/
theorem exec_effect {i : Instr} {s t : State} (h : exec i s = .next t) : Effect i s t := by
  cases i
  case initController => exact execInitController_effect h
  case initPeripheral => exact execInitPeripheral_effect h
  case beginAsController => exact execBeginAsController_effect h
  case writeByte => exact execWriteByte_effect h
  case readByte => exact execReadByte_effect h
  case endTransaction =>
    obtain ⟨hr, h⟩ := unlessRefused_eq_next.1 h
    cases h
    exact .ends rfl (refusedController_eq_none.1 hr).1
  case pollEvent T =>
    obtain ⟨hr, h⟩ := unlessRefused_eq_next.1 h
    cases h
    exact .polls rfl T (refusedPolling_eq_none.1 hr).1.1
  case rearm ack =>
    obtain ⟨hr, h⟩ := unlessRefused_eq_next.1 h
    cases h
    exact .rearms rfl ack
  case send => exact execSend_effect h
  case receiveBlocking =>
    obtain ⟨hr, h⟩ := unlessRefused_eq_next.1 h
    cases h
    exact .receives rfl (refusedPolling_eq_none.1 hr).1.1
  case enableAsync f =>
    obtain ⟨hr, h⟩ := unlessRefused_eq_next.1 h
    cases h
    exact .enables f rfl (refusedPeripheralMain_eq_none.1 hr).1
  case disableAsync =>
    obtain ⟨hr, h⟩ := unlessRefused_eq_next.1 h
    cases h
    exact .disables rfl
  case messageReady =>
    obtain ⟨hr, h⟩ := unlessRefused_eq_next.1 h
    cases h
    exact (Effect.returns rfl (.bool s.self.done)).of_eq (s.mapSelf_congr rfl)
  case takeMessage => exact execTakeMessage_effect h
  case irqDisable =>
    obtain ⟨hr, h⟩ := unlessRefused_eq_next.1 h
    cases h
    exact .setsIE rfl false fun n => .bool n.ie
  case irqRestore v =>
    obtain ⟨hr, h⟩ := unlessRefused_eq_next.1 h
    cases h
    exact .setsIE rfl v fun _ => .unit
  case evTimeout => cases h; exact .expires
  case irqAddrMatch => exact execIrqAddrMatch_effect h
  case irqDataAck => exact execIrqDataAck_effect h
  case irqDataNack => exact execIrqDataNack_effect h
  case irqStop => exact execIrqStop_effect h
  case irqOther => exact execIrqOther_effect h
  case msg => cases h; exact .begins _
  case addr => exact execAddr_effect h
  case frame => cases h; exact .begins _
  all_goals first
    | (cases h; exact .returns rfl _)
    | (cases h; exact .event _ _ (by decide))

/-! ## Steps -/

/-- What taking the turn, and a call off a main program, changes. -/
def Turned (s u : State) : Prop :=
  ∃ pa pb sc c, u = { s with a := { s.a with prog := pa }, b := { s.b with prog := pb }, sched := sc, cur := c }

theorem turned_refl (s : State) (sc : List Turn) (c : NodeId) : Turned s { s with sched := sc, cur := c } :=
  ⟨s.a.prog, s.b.prog, sc, c, rfl⟩

theorem Turned.call {s u : State} (h : Turned s u) (p : List (List Byte)) :
    Turned s (u.mapSelf fun n => { n with prog := p }) := by
  obtain ⟨pa, pb, sc, c, rfl⟩ := h
  cases c
  · exact ⟨p, pb, sc, .a, rfl⟩
  · exact ⟨pa, p, sc, .b, rfl⟩

theorem irqBranch_format (cnt : BitVec 3) (c : Byte) : (irqBranch cnt c).format = .irq := by
  unfold irqBranch
  repeat' split
  all_goals rfl

/-- A format's decoder gives operations of that format. -/
theorem decode_format {f : Format} {cnt : BitVec 3} {bs rest : List Byte} {i : Instr}
    (h : decode f cnt bs = .ok (i, rest)) : i.format = f := by
  cases f
  case hostop =>
    simp only [decode, decodeHostop] at h
    split at h
    · simp only [decodeSelector] at h
      split at h <;>
        (try simp only [readWordOp, readByteOp, readSevenOp, readBoolOp, readHalfOp, readHalfByteOp, readWordNibbleOp]
          at h) <;>
        (repeat' split at h) <;> cases h <;> rfl
    · cases h
  case evt =>
    simp only [decode, decodeEvt] at h
    split at h
    · simp only [decodeEvent] at h
      split at h <;> (try simp only [readByteOp] at h) <;> (repeat' split at h) <;> cases h <;> rfl
    · cases h
  case irq =>
    simp only [decode, decodeIrq] at h
    split at h
    · cases h
      exact irqBranch_format cnt _
    · cases h
  case msg =>
    simp only [decode, decodeMsg] at h
    split at h <;> cases h
    rfl
  case addr =>
    simp only [decode, decodeAddr] at h
    split at h <;> cases h
    rfl
  case frame =>
    simp only [decode, decodeFrame] at h
    split at h
    · split at h <;> cases h
      rfl
    · cases h

/-- Where ENV's byte is no row, it is neither a code of the table nor EV_TIMEOUT. -/
theorem decode_unlisted {f : EnvFormat} {cnt : BitVec 3} {bs : List Byte}
    (h : decode f.format cnt bs = .error .unlistedEvent) : bs.getD 0 0 ≠ Config.evTimeout := by
  cases f <;> simp only [EnvFormat.format, decode] at h
  · simp only [decodeEvt] at h
    split at h
    · rintro he
      simp only [List.getD_cons_zero] at he
      subst he
      simp only [decodeEvent] at h
      split at h <;> (try simp only [readByteOp] at h) <;> (repeat' split at h) <;> simp_all
    · cases h
  all_goals
    exfalso
    simp only [decodeMsg, decodeAddr, decodeFrame] at h
    (repeat' split at h) <;> cases h

/-- What a step is, once the turn is taken: an operation, a main program going on, ENV presenting a code as it
is, a foreign controller going on, or no step of the agent. -/
theorem step_cases {s t : State} (h : step s = .next t) :
    ∃ u, Turned s u ∧
      ((∃ i, exec i u = .next t ∧ (i.format = .irq → ∃ n r, s.sched = .irq n :: r) ∧
          (i.format = .hostop → u.self.busy = .idle ∧ u.self.ctx ≠ .irq)) ∨
        t = resume u ∨
        (∃ c d, t = envEvent c d u ∧ (c = Config.evTimeout → ∃ n r, s.sched = .inject n c d :: r)) ∨
        t = foreignGoesOn u ∨ t = u) := by
  cases hs : s.sched with
  | nil =>
    simp only [step, fetch, hs, Host.Outcome.next.injEq] at h
    exact ⟨_, turned_refl s s.sched s.cur, .inr (.inr (.inr (.inr h.symm)))⟩
  | cons turn rest =>
    cases turn with
    | main n =>
      simp only [step, fetch, hs, Turn.node] at h
      have hu := turned_refl s rest n
      generalize { s with sched := rest, cur := n } = u at h hu
      by_cases hx : u.self.ctx = .irq
      · simp only [fetchCall, if_pos hx, Host.Outcome.next.injEq] at h
        exact ⟨u, hu, .inr (.inr (.inr (.inr h.symm)))⟩
      · by_cases hb : u.self.busy = .idle
        · simp only [fetchCall, if_neg hx, hb, ne_eq, not_true_eq_false, if_false] at h
          cases hp : u.self.prog with
          | nil =>
            simp only [hp, Host.Outcome.next.injEq] at h
            exact ⟨u, hu, .inr (.inr (.inr (.inr h.symm)))⟩
          | cons bs calls =>
            simp only [hp] at h
            cases hd : decode .hostop u.self.cnt bs with
            | error e => simp [hd] at h
            | ok p =>
              simp only [hd] at h
              exact ⟨_, hu.call calls, .inl ⟨p.1, h, fun he => by simp [decode_format hd] at he, fun _ => by
                simpa using ⟨hb, hx⟩⟩⟩
        · simp only [fetchCall, if_neg hx, ne_eq, hb, not_false_eq_true, if_true, Host.Outcome.next.injEq] at h
          exact ⟨u, hu, .inr (.inl h.symm)⟩
    | irq n =>
      simp only [step, fetch, hs, Turn.node] at h
      have hu := turned_refl s rest n
      generalize { s with sched := rest, cur := n } = u at h hu
      cases he : u.self.pEvt with
      | none =>
        simp only [fetchIrq, he, Host.Outcome.next.injEq] at h
        exact ⟨u, hu, .inr (.inr (.inr (.inr h.symm)))⟩
      | some c =>
        by_cases hi : u.self.irqEnabled = true
        · simp only [fetchIrq, he, if_pos hi] at h
          exact ⟨u, hu, .inl ⟨_, h, fun _ => ⟨_, _, rfl⟩, fun he => by rw [irqBranch_format] at he; cases he⟩⟩
        · simp only [fetchIrq, he, if_neg hi, Host.Outcome.next.injEq] at h
          exact ⟨u, hu, .inr (.inr (.inr (.inr h.symm)))⟩
    | env n f bs =>
      simp only [step, fetch, hs, Turn.node] at h
      have hu := turned_refl s rest n
      generalize { s with sched := rest, cur := n } = u at h hu
      cases hd : decode f.format u.self.cnt bs with
      | ok p =>
        simp only [fetchEnv, hd] at h
        exact ⟨u, hu, .inl ⟨p.1, h, fun he => by (rw [decode_format hd] at he; cases f <;> cases he), fun he => by
          (rw [decode_format hd] at he; cases f <;> cases he)⟩⟩
      | error e =>
        cases e <;> simp only [fetchEnv, hd, Host.Outcome.next.injEq, reduceCtorEq] at h
        case unlistedEvent =>
          exact ⟨u, hu, .inr (.inr (.inl ⟨_, _, h.symm, fun he => absurd he (decode_unlisted hd)⟩))⟩
        all_goals exact ⟨u, hu, .inr (.inr (.inr (.inr h.symm)))⟩
    | inject n c d =>
      simp only [step, fetch, hs, Host.Outcome.next.injEq] at h
      exact ⟨_, turned_refl s rest n, .inr (.inr (.inl ⟨c, d, h.symm, fun _ => ⟨n, rest, rfl⟩⟩))⟩
    | foreign n =>
      simp only [step, fetch, hs, Host.Outcome.next.injEq] at h
      exact ⟨_, turned_refl s rest n, .inr (.inr (.inr (.inl h.symm)))⟩

end Sys2Proof.Machine
end

