-- ==== Sys2Proof/Laws/PerInstr.lean ====
section
/-! SUPPORT. The round trip, constructor by constructor: an operation's bytes, read in its own format, give it
back (R90, R101). -/

namespace Sys2Proof.Laws

open Sys2Proof

namespace RoundTrip

/-- Reading the bytes of `i`, with any bytes after them, gives `i` and those bytes; a handler branch is read
under a byte counter at which some code selects it (R180). -/
def Statement (i : Instr) : Prop :=
  ∀ (cnt : BitVec 3) (rest : List Byte), WellFormed i = true →
    (i.format = .irq → ∃ c, irqBranch cnt c = i) → decode i.format cnt (encode i ++ rest) = .ok (i, rest)

/-- The selector and operand readers, unfolded on bytes that are given. -/
theorem hostop_of {cnt : BitVec 3} {op : Byte} {bs rest : List Byte} {i : Instr}
    (h : decodeSelector op.toNat bs = .ok (i, rest)) :
    decode .hostop cnt (op :: bs) = .ok (i, rest) := by
  simp [decode, decodeHostop, h]

/-- EV_TIMEOUT's byte is read as EV_TIMEOUT, whatever value it has (R98). -/
theorem decodeEvent_evTimeout (bs : List Byte) : decodeEvent Config.evTimeout bs = .ok (.evTimeout, bs) := by
  have hop : ∀ k : Nat, BitVec.ofNat 8 k ∈ Config.eventCodes → Config.evTimeout.toNat ≠ k := fun k hk h => by
    have : Config.evTimeout = BitVec.ofNat 8 k := by rw [← h]; simp
    exact Config.evTimeout_not_mem (this ▸ hk)
  unfold decodeEvent
  split <;> first | (rename_i h; exact absurd h (hop _ (by decide))) | simp

/-- The guard a handler branch was selected under (R183, R184). -/
theorem irqBranch_dataAck {cnt : BitVec 3} {c : Byte} {g : Bool} (h : irqBranch cnt c = .irqDataAck g) :
    cnt.toNat < 3 := by
  simp only [irqBranch] at h
  repeat' split at h
  all_goals first | cases h; done | skip
  rename_i hc
  exact hc.2

theorem irqBranch_dataNack {cnt : BitVec 3} {c : Byte} {g : Bool} (h : irqBranch cnt c = .irqDataNack g) :
    cnt.toNat < 4 := by
  simp only [irqBranch] at h
  repeat' split at h
  all_goals first | cases h; done | skip
  rename_i hc
  exact hc.2

theorem irqBranch_other {cnt : BitVec 3} {c code : Byte} (h : irqBranch cnt c = .irqOther code) : c = code := by
  simp only [irqBranch] at h
  repeat' split at h
  all_goals cases h
  rfl

theorem initController (busHz : Word) : Statement (.initController busHz) := fun _ rest _ _ =>
  hostop_of (by simp [decodeSelector, wordBytes, readWordOp])

theorem initPeripheral (sla : BitVec 7) : Statement (.initPeripheral sla) := fun _ rest _ _ =>
  hostop_of (by
    have := sla.isLt
    simp [decodeSelector, readSevenOp]
    omega)

theorem beginAsController (write : Bool) : Statement (.beginAsController write) := fun _ rest _ _ =>
  hostop_of (by cases write <;> simp [decodeSelector, boolByte, readBoolOp])

theorem writeByte (b : Byte) : Statement (.writeByte b) := fun _ rest _ _ =>
  hostop_of (by simp [decodeSelector, readByteOp])

theorem readByte (sendAck : Bool) : Statement (.readByte sendAck) := fun _ rest _ _ =>
  hostop_of (by cases sendAck <;> simp [decodeSelector, boolByte, readBoolOp])

theorem endTransaction : Statement .endTransaction := fun _ _ _ _ => hostop_of rfl

theorem pollEvent (timeout : Word) : Statement (.pollEvent timeout) := fun _ rest _ _ =>
  hostop_of (by simp [decodeSelector, wordBytes, readWordOp])

theorem rearm (ack : Bool) : Statement (.rearm ack) := fun _ rest _ _ =>
  hostop_of (by cases ack <;> simp [decodeSelector, boolByte, readBoolOp])

theorem send (message : Word) : Statement (.send message) := fun _ rest _ _ =>
  hostop_of (by simp [decodeSelector, wordBytes, readWordOp])

theorem receiveBlocking : Statement .receiveBlocking := fun _ _ _ _ => hostop_of rfl

theorem enableAsync (callback : Byte) : Statement (.enableAsync callback) := fun _ rest _ _ =>
  hostop_of (by simp [decodeSelector, readByteOp])

theorem disableAsync : Statement .disableAsync := fun _ _ _ _ => hostop_of rfl

theorem messageReady : Statement .messageReady := fun _ _ _ _ => hostop_of rfl

theorem takeMessage : Statement .takeMessage := fun _ _ _ _ => hostop_of rfl

theorem irqDisable : Statement .irqDisable := fun _ _ _ _ => hostop_of rfl

theorem irqRestore (s : Bool) : Statement (.irqRestore s) := fun _ rest _ _ =>
  hostop_of (by cases s <;> simp [decodeSelector, boolByte, readBoolOp])

theorem build (flags : BitVec 16) : Statement (.build flags) := fun _ rest _ _ =>
  hostop_of (by simp [decodeSelector, halfBytes, readHalfOp])

theorem buildWithAux (flags : BitVec 16) (aux : Byte) : Statement (.buildWithAux flags aux) := fun _ rest _ _ =>
  hostop_of (by simp [decodeSelector, halfBytes, readHalfByteOp])

theorem isValid (message : Word) : Statement (.isValid message) := fun _ rest _ _ =>
  hostop_of (by simp [decodeSelector, wordBytes, readWordOp])

theorem parity31 (w : Word) : Statement (.parity31 w) := fun _ rest _ _ =>
  hostop_of (by simp [decodeSelector, wordBytes, readWordOp])

theorem getFlags (m : Word) : Statement (.getFlags m) := fun _ rest _ _ =>
  hostop_of (by simp [decodeSelector, wordBytes, readWordOp])

theorem getAux (m : Word) : Statement (.getAux m) := fun _ rest _ _ =>
  hostop_of (by simp [decodeSelector, wordBytes, readWordOp])

theorem hasFlag (m : Word) (i : BitVec 4) : Statement (.hasFlag m i) := fun _ rest _ _ =>
  hostop_of (by
    have := i.isLt
    simp [decodeSelector, wordBytes, readWordNibbleOp]
    omega)

theorem dispatch (m : Word) : Statement (.dispatch m) := fun _ rest _ _ =>
  hostop_of (by simp [decodeSelector, wordBytes, readWordOp])

theorem evStart : Statement .evStart := fun _ _ _ _ => rfl

theorem evRstart : Statement .evRstart := fun _ _ _ _ => rfl

theorem evSlawAck : Statement .evSlawAck := fun _ _ _ _ => rfl

theorem evSlawNack : Statement .evSlawNack := fun _ _ _ _ => rfl

theorem evTxdAck : Statement .evTxdAck := fun _ _ _ _ => rfl

theorem evTxdNack : Statement .evTxdNack := fun _ _ _ _ => rfl

theorem evArbLost : Statement .evArbLost := fun _ _ _ _ => rfl

theorem evOwnMatch : Statement .evOwnMatch := fun _ _ _ _ => rfl

theorem evOwnMatchArb : Statement .evOwnMatchArb := fun _ _ _ _ => rfl

theorem evGcMatch : Statement .evGcMatch := fun _ _ _ _ => rfl

theorem evGcMatchArb : Statement .evGcMatchArb := fun _ _ _ _ => rfl

theorem evRxdAckOwn (d : Byte) : Statement (.evRxdAckOwn d) := fun _ _ _ _ => rfl

theorem evRxdNackOwn (d : Byte) : Statement (.evRxdNackOwn d) := fun _ _ _ _ => rfl

theorem evRxdAckGc (d : Byte) : Statement (.evRxdAckGc d) := fun _ _ _ _ => rfl

theorem evRxdNackGc (d : Byte) : Statement (.evRxdNackGc d) := fun _ _ _ _ => rfl

theorem evStopRs : Statement .evStopRs := fun _ _ _ _ => rfl

theorem evTimeout : Statement .evTimeout := fun _ rest _ _ => decodeEvent_evTimeout rest

theorem irqAddrMatch (g a : Bool) : Statement (.irqAddrMatch g a) := fun _ _ _ _ => by
  cases g <;> cases a <;> rfl

theorem irqDataAck (g : Bool) : Statement (.irqDataAck g) := fun _ _ _ hi => by
  obtain ⟨c, hc⟩ := hi rfl
  have := irqBranch_dataAck hc
  cases g <;> simp [Instr.format, decode, encode, decodeIrq, irqBranch, dataAckCode, this]

theorem irqDataNack (g : Bool) : Statement (.irqDataNack g) := fun _ _ _ hi => by
  obtain ⟨c, hc⟩ := hi rfl
  have := irqBranch_dataNack hc
  cases g <;> simp [Instr.format, decode, encode, decodeIrq, irqBranch, dataNackCode, this]

theorem irqStop : Statement .irqStop := fun _ _ _ _ => rfl

theorem irqOther (code : Byte) : Statement (.irqOther code) := fun _ _ _ hi => by
  obtain ⟨c, hc⟩ := hi rfl
  obtain rfl := irqBranch_other hc
  simp only [Instr.format, decode, encode, decodeIrq, List.cons_append, hc, List.nil_append]

theorem msg (f : BitVec 16) (a : BitVec 4) (rp : BitVec 12) : Statement (.msg f a rp) := fun _ _ _ _ => by
  obtain ⟨h1, h2, h3⟩ := msgWord_fields f a rp
  simp only [Instr.format, decode, encode, decodeMsg, wordBytes, List.cons_append, List.nil_append, word4_wordBytes,
    h1, h2, h3]

theorem addr (a : BitVec 7) (w : Bool) : Statement (.addr a w) := fun _ _ _ _ => by
  simp only [Instr.format, decode, encode, decodeAddr, List.cons_append, List.nil_append, extract_addrByte,
    direction_addrByte]

theorem frame (a : BitVec 7) (m : Word) : Statement (.frame a m) := fun _ _ _ _ => by
  simp only [Instr.format, decode, encode, decodeFrame, wordBytes, List.cons_append, List.nil_append, extract_addrByte,
    direction_addrByte, word4_wordBytes, Bool.false_eq_true, if_false]

end RoundTrip

end Sys2Proof.Laws
end

