-- ==== Sys2Proof/Tests/Slice0.lean ====
section
/-! SUPPORT. The model's own tests. Expected values come from spec/: the encodings of 30_encoding.md, the
vectors of 95_test_vectors.md part 2 (section numbers below), the rules named. Reference parameter values
(REFCFG, SLA = 0x2A, the flag positions) are written into the tests' states, never into the model. The
last part gives, for each obligation with hypotheses, a state and operands that meet them. -/

namespace Sys2Proof.Tests

open Sys2Proof Sys2Proof.Machine

/-! ## Helpers -/

/-- A configured controller and a configured peripheral at SLA = 0x2A. -/
def ctl : Node := { Node.reset with role := .controller, sla := 0x2A }
def per : Node := { Node.reset with role := .peripheral, sla := 0x2A }

/-- The controller owns an open transaction. -/
def ctlOpen (c : CState) (answers : List Byte) : Node := { ctl with cState := c, cOwn := true, answers := answers }

/-- The peripheral takes interrupts and has `c` latched. -/
def ready (c : Byte) (n : Node) : Node := { n with role := .peripheral, asyncEn := true, ie := true, pEvt := some c }

/-- The assembly registers of a peripheral. -/
def asm (cnt : BitVec 3) (acc : Word) (d f : Bool) : Node := { per with cnt := cnt, acc := acc, done := d, fired := f }

/-- Node A alone with ENV (R15). -/
def alone (n : Node) : State := { State.reset with a := n, comp := .openBus }

/-- Nodes A and B on one bus (R15). -/
def link (a b : Node) : State := { State.reset with a := a, b := b }

/-- What a next state shows; nothing for a stop. -/
def see {α : Type} (o : Out) (f : State → α) : Option α :=
  match o with
  | .next s => some (f s)
  | .fault _ => none
  | .refused _ => none

/-- Why a call is refused. -/
def refusal (o : Out) : Option Refusal :=
  match o with
  | .next _ => none
  | .fault _ => none
  | .refused r => some r

/-- The operation read and nothing left, or why not. -/
def dec (f : Format) (cnt : BitVec 3) (bs : List Byte) : Option Instr :=
  match decode f cnt bs with
  | .ok (i, []) => some i
  | .ok (_, _ :: _) => none
  | .error _ => none

/-- The main program goes on `k` times with the operation it is inside. -/
def onward (k : Nat) (o : Out) : Out :=
  match o with
  | .next s => .next (resume^[k] s)
  | .fault r => .fault r
  | .refused r => .refused r

def rejected (f : Format) (bs : List Byte) : Option DecodeError :=
  match decode f 0 bs with
  | .ok _ => none
  | .error e => some e

/-! ## WellFormed: each check with a term it refuses -/

theorem test_wf_other_is_no_earlier_branch :
    WellFormed (.irqOther 0x60) = false ∧ WellFormed (.irqOther 0x68) = false ∧ WellFormed (.irqOther 0x70) = false ∧
      WellFormed (.irqOther 0x78) = false ∧ WellFormed (.irqOther 0xA0) = false ∧ WellFormed (.irqOther 0x80) = true := by
  decide
theorem test_ill_formed_is_not_decoded :
    rejected .hostop [0x02, 0x80] = some .badOperand ∧ rejected .hostop [0x17, 0, 0, 0, 0, 16] = some .badOperand := by
  decide

/-! ## Decoding: words written out from 30_encoding.md (R101, R96, R91, R94, R93) -/

theorem test_decode_hostop_link :
    dec .hostop 0 [0x01, 0xA0, 0x86, 0x01, 0x00] = some (.initController 100000) ∧
    dec .hostop 0 [0x02, 0x2A] = some (.initPeripheral 0x2A) ∧
    dec .hostop 0 [0x0F] = some .irqDisable ∧
    dec .hostop 0 [0x10, 0x01] = some (.irqRestore true) := by
  decide
theorem test_decode_hostop_transport :
    dec .hostop 0 [0x03, 0x01] = some (.beginAsController true) ∧
    dec .hostop 0 [0x04, 0xA5] = some (.writeByte 0xA5) ∧
    dec .hostop 0 [0x05, 0x00] = some (.readByte false) ∧
    dec .hostop 0 [0x06] = some .endTransaction ∧
    dec .hostop 0 [0x07, 0x10, 0x00, 0x00, 0x00] = some (.pollEvent 16) ∧
    dec .hostop 0 [0x08, 0x01] = some (.rearm true) := by
  decide
theorem test_decode_hostop_paths :
    dec .hostop 0 [0x09, 0x01, 0x30, 0x00, 0x04] = some (.send 0x04003001) ∧
    dec .hostop 0 [0x0A] = some .receiveBlocking ∧
    dec .hostop 0 [0x0B, 0x07] = some (.enableAsync 7) ∧
    dec .hostop 0 [0x0C] = some .disableAsync ∧
    dec .hostop 0 [0x0D] = some .messageReady ∧
    dec .hostop 0 [0x0E] = some .takeMessage := by
  decide
theorem test_decode_hostop_framing :
    dec .hostop 0 [0x11, 0x00, 0x80] = some (.build 0x8000) ∧
    dec .hostop 0 [0x12, 0x00, 0x04, 0x03] = some (.buildWithAux 0x0400 3) ∧
    dec .hostop 0 [0x13, 0x01, 0x00, 0x00, 0x80] = some (.isValid 0x80000001) ∧
    dec .hostop 0 [0x14, 0x00, 0x00, 0x00, 0x80] = some (.parity31 0x80000000) ∧
    dec .hostop 0 [0x15, 0x01, 0x30, 0x00, 0x04] = some (.getFlags 0x04003001) ∧
    dec .hostop 0 [0x16, 0x01, 0x30, 0x00, 0x04] = some (.getAux 0x04003001) ∧
    dec .hostop 0 [0x17, 0x01, 0x30, 0x00, 0x04, 0x0A] = some (.hasFlag 0x04003001 10) ∧
    dec .hostop 0 [0x18, 0x01, 0x30, 0x00, 0x04] = some (.dispatch 0x04003001) := by
  decide
theorem test_decode_hostop_reserved :
    rejected .hostop [0x00] = some .unknownOperation ∧
    rejected .hostop [0x19] = some .unknownOperation ∧
    rejected .hostop [0xFF] = some .unknownOperation ∧
    rejected .hostop [0x09, 0x01] = some .truncated := by
  decide
theorem test_decode_evt_controller :
    dec .evt 0 [0x08] = some .evStart ∧
    dec .evt 0 [0x10] = some .evRstart ∧
    dec .evt 0 [0x18] = some .evSlawAck ∧
    dec .evt 0 [0x20] = some .evSlawNack ∧
    dec .evt 0 [0x28] = some .evTxdAck ∧
    dec .evt 0 [0x30] = some .evTxdNack ∧
    dec .evt 0 [0x38] = some .evArbLost := by
  decide
theorem test_decode_evt_peripheral :
    dec .evt 0 [0x60] = some .evOwnMatch ∧
    dec .evt 0 [0x68] = some .evOwnMatchArb ∧
    dec .evt 0 [0x70] = some .evGcMatch ∧
    dec .evt 0 [0x78] = some .evGcMatchArb ∧
    dec .evt 0 [0x80, 0x7E] = some (.evRxdAckOwn 0x7E) ∧
    dec .evt 0 [0x88, 0x7E] = some (.evRxdNackOwn 0x7E) ∧
    dec .evt 0 [0x90, 0x7E] = some (.evRxdAckGc 0x7E) ∧
    dec .evt 0 [0x98, 0x7E] = some (.evRxdNackGc 0x7E) ∧
    dec .evt 0 [0xA0] = some .evStopRs := by
  decide
theorem test_decode_irq :
    dec .irq 0 [0b01100000] = some (.irqAddrMatch false false) ∧
    dec .irq 7 [0b01111000] = some (.irqAddrMatch true true) ∧
    dec .irq 2 [0b10010000] = some (.irqDataAck true) ∧
    dec .irq 3 [0b10000000] = some (.irqOther 0x80) ∧
    dec .irq 3 [0b10001000] = some (.irqDataNack false) ∧
    dec .irq 4 [0b10001000] = some (.irqOther 0x88) ∧
    dec .irq 0 [0b10100000] = some .irqStop ∧
    dec .irq 0 [0x61] = some (.irqOther 0x61) := by
  decide
theorem test_decode_formats :
    dec .msg 0 [0x01, 0x30, 0x00, 0x04] = some (.msg 0x0400 3 1) ∧
    dec .msg 0 [0x02, 0x30, 0x00, 0x04] = some (.msg 0x0400 3 2) ∧
    dec .addr 0 [0b01010101] = some (.addr 0x2A true) ∧
    dec .frame 0 [0x54, 0x01, 0x30, 0x00, 0x04] = some (.frame 0x2A 0x04003001) ∧
    rejected .frame [0x55, 0, 0, 0, 0] = some .readDirection ∧
    rejected .msg [0x01, 0x30, 0x00] = some .truncated := by
  decide
theorem test_decode_table_words :
    decodeTableWord 8 0x09 = some (.send 0) ∧
    decodeTableWord 8 0x08 = some (.rearm false) ∧
    decodeTableWord 8 0x20 = some .evSlawNack ∧
    decodeTableWord 8 0x60 = some (.irqAddrMatch false false) ∧
    decodeTableWord 8 0x90 = some (.evRxdAckGc 0) ∧
    decodeTableWord 8 0x54 = some (.irqOther 0x54) ∧
    decodeTableWord 32 0x04003001 = some (.msg 0x0400 3 1) ∧
    decodeTableWord 16 0x09 = none := by
  decide
theorem test_decode_evt_timeout : decode .evt 0 [Config.evTimeout] = .ok (.evTimeout, []) :=
  Laws.RoundTrip.decodeEvent_evTimeout []
theorem test_every_branch_encodes_its_code :
    encode (.irqAddrMatch true false) = [0x70] ∧ encode (.irqDataAck true) = [0x90] ∧ encode (.irqDataNack false) = [0x88] ∧
      encode (.irqOther 0x38) = [0x38] := by
  decide

/-! ## Message Framing (vectors 2.1 to 2.4) -/

theorem test_parity31 :
    see (exec (.parity31 0x04003000) State.reset) (·.a.ret) = some (.bit true) ∧
    see (exec (.parity31 0x7FFFFFFF) State.reset) (·.a.ret) = some (.bit false) := by
  decide
theorem test_build :
    see (exec (.build 0x8000) State.reset) (·.a.ret) = some (.message 0x80000001) ∧
    see (exec (.build 0xC000) State.reset) (·.a.ret) = some (.message 0xC0000000) := by
  decide
theorem test_build_with_aux :
    see (exec (.buildWithAux 0x0400 0x13) State.reset) (·.a.ret) = some (.message 0x04003001) ∧
    see (exec (.buildWithAux 0xFFFF 0xF) State.reset) (·.a.ret) = some (.message 0xFFFFF000) := by
  decide
theorem test_is_valid :
    isValidAt .refcfg 0x04003001 = true ∧
    isValidAt .refcfg 0x04000001 = false ∧
    isValidAt .refcfg 0x60000000 = false ∧
    isValidAt .refcfg 0x88000000 = true ∧
    isValidAt .refcfg 0x80000100 = true ∧
    isValidAt .refcfg 0xFFFFFFFF = false := by
  decide
theorem test_get_flags_get_aux :
    see (exec (.getFlags 0x04003001) State.reset) (·.a.ret) = some (.flags 0x0400) ∧
    see (exec (.getAux 0x94007000) State.reset) (·.a.ret) = some (.aux 7) := by
  decide
theorem test_has_flag :
    see (exec (.hasFlag 0x04003001 10) State.reset) (·.a.ret) = some (.bool true) ∧
    see (exec (.hasFlag 0x04003001 15) State.reset) (·.a.ret) = some (.bool false) := by
  decide

/-! ## Link Configuration (vectors 2.12, R230 to R235) -/

theorem test_init_controller :
    see (exec (.initController 100000) State.reset) (fun s => (s.a.role, s.a.busHz, s.a.cState, s.a.cOwn)) =
      some (.controller, 100000, .idle, false) ∧
    refusal (exec (.initController 100000) (alone (ctlOpen .data []))) = some .reinitBusy := by
  decide
theorem test_init_peripheral :
    see (exec (.initPeripheral 0x2A) State.reset) (fun s => (s.a.role, s.a.sla, s.a.pAcken, s.a.cb)) =
      some (.peripheral, 0x2A, true, none) ∧
    refusal (exec (.initPeripheral 0) State.reset) = some .badAddress := by
  decide
theorem test_irq_disable :
    see (exec .irqDisable (alone { per with ie := true })) (fun s => (s.a.ret, s.a.ie)) = some (.bool true, false) ∧
    see (exec .irqDisable (alone per)) (fun s => (s.a.ret, s.a.ie)) = some (.bool false, false) := by
  decide
theorem test_irq_restore :
    see (exec (.irqRestore true) (alone per)) (·.a.ie) = some true ∧
    see (exec (.irqRestore false) (alone { per with ie := true })) (·.a.ie) = some false := by
  decide
theorem test_calls_refused_by_role :
    refusal (exec (.send 0x80000001) State.reset) = some .notConfigured ∧
    refusal (exec (.enableAsync 0) (alone ctl)) = some .wrongRole ∧
    refusal (exec (.send 0x80000001) (alone per)) = some .wrongRole ∧
    refusal (exec .receiveBlocking (alone { per with ctx := .irq })) = some .blockingInHandler := by
  decide

/-! ## Bus Transport, controller (vectors 2.5) -/

theorem test_begin_fresh :
    see (onward 1 (exec (.beginAsController true) (alone { ctl with answers := [0x08, 0x18] })))
        (fun s => (s.a.ret, s.wire, s.a.cState, s.a.cOwn)) =
      some (.code 0x18, [.S, .A 0x54 true], .address, true) ∧
    see (onward 1 (exec (.beginAsController true) (alone { ctl with answers := [0x08, 0x38] })))
        (fun s => (s.a.ret, s.wire, s.a.cState, s.a.cOwn)) =
      some (.code 0x38, [.S, .A 0x54 false], .error, false) := by
  decide
theorem test_begin_repeated_or_refused :
    see (onward 1 (exec (.beginAsController true) (alone (ctlOpen .data [0x10, 0x18])))) (fun s => (s.a.ret, s.wire)) =
      some (.code 0x18, [.Sr, .A 0x54 true]) ∧
    refusal (exec (.beginAsController false) (alone ctl)) = some .readDirection := by
  decide
theorem test_write_byte :
    see (exec (.writeByte 0xA5) (alone (ctlOpen .address [0x28]))) (fun s => (s.a.ret, s.wire, s.a.cState, s.a.cOwn)) =
      some (.code 0x28, [.D 0xA5 true], .data, true) ∧
    see (exec (.writeByte 0xFF) (alone (ctlOpen .data [0x38]))) (fun s => (s.a.ret, s.wire, s.a.cState, s.a.cOwn)) =
      some (.code 0x38, [.D 0xFF false], .error, false) := by
  decide
theorem test_end :
    see (exec .endTransaction (alone (ctlOpen .error []))) (fun s => (s.wire, s.a.cState, s.a.cOwn)) =
      some ([.P], .idle, false) ∧
    see (exec .endTransaction (alone { ctl with cState := .error })) (fun s => (s.wire, s.a.cState)) = some ([], .idle) := by
  decide

/-! ## Bus Transport, peripheral (vectors 2.6, 2.7) -/

theorem test_fsm_address :
    (per.seesAddress 0x54).pEvt = some 0x60 ∧
    (per.seesAddress 0x00).pEvt = some 0x70 ∧
    (per.seesAddress 0x56).pEvt = none ∧
    ({ per with pAcken := false }.seesAddress 0x54).pState = .idle := by
  decide
theorem test_fsm_data :
    ({ per with pState := .addressed }.seesData 0x7E).pEvt = some 0x80 ∧
    ({ per with pState := .addressed, pGc := true }.seesData 0x7E).pEvt = some 0x90 ∧
    ({ per with pState := .addressed, pAcken := false }.seesDataAt true 0x7E).pState = .idle ∧
    ({ per with pState := .addressed, pAcken := false, pGc := true }.seesDataAt false 0x7E).pEvt = some 0x98 ∧
    (per.seesData 0x7E).pDr = 0 := by
  decide
theorem test_fsm_start_stop :
    ({ per with pState := .addressed }.seesStop).pEvt = some 0xA0 ∧
    ({ per with pState := .addressed }.seesStart true).pState = .idle ∧
    (per.seesStop).pEvt = none ∧
    (per.seesStart false).pEvt = none := by
  decide
theorem test_rearm :
    see (exec (.rearm false) (alone { per with pEvt := some 0x60 })) (fun s => (s.a.pEvt, s.a.pAcken)) = some (none, false) ∧
    refusal (exec (.rearm true) (alone ctl)) = some .wrongRole := by
  decide
theorem test_poll_event :
    see (exec (.pollEvent 5) (alone { per with pEvt := some 0xA0 })) (fun s => (s.a.ret, s.a.pEvt)) =
      some (.code 0xA0, some 0xA0) ∧
    see (exec (.pollEvent 5) (alone per)) (fun s => s.a.busy) = some (.pollEvent 5) := by
  decide
theorem test_read_byte :
    see (exec (.readByte false) (alone { per with pEvt := some 0x80 })) (fun s => (s.a.busy, s.a.pAcken, s.a.pEvt)) =
      some (.readByte, false, none) ∧
    refusal (exec (.readByte true) (alone { per with asyncEn := true })) = some .pollWhileAsync := by
  decide
theorem test_read_byte_returns_the_data_register :
    (resume (alone { per with busy := .readByte, pEvt := some 0x88, pDr := 0x99 })).a.ret = .byte 0x99 ∧
    (resume (alone { per with busy := .readByte, pDr := 0x99 })).a.busy = .readByte := by
  decide

/-! ## Send and receive paths (vectors 2.8, 2.11) -/

theorem test_send_ok :
    see (onward 6 (exec (.send 0x80000001) (alone { ctl with answers := [0x08, 0x18, 0x28, 0x28, 0x28, 0x28] })))
        (fun s => (s.a.ret, s.wire)) =
      some (.sent none, [.S, .A 0x54 true, .D 0x01 true, .D 0x00 true, .D 0x00 true, .D 0x80 true, .P]) := by
  decide
theorem test_send_third_byte :
    see (onward 5 (exec (.send 0x04003001) (alone { ctl with answers := [0x08, 0x18, 0x28, 0x28, 0x30] })))
        (fun s => (s.a.ret, s.wire)) =
      some (.sent (some (.byteNotAcknowledged 2)), [.S, .A 0x54 true, .D 0x01 true, .D 0x30 true, .D 0x00 false, .P]) := by
  decide
theorem test_receive_blocking :
    see (exec .receiveBlocking (alone { per with pbAcc := 0x99 })) (fun s => (s.a.busy, s.a.pbAcc)) =
      some (.recvAddress, 0) ∧
    (resume (alone { per with busy := .recvData, pbI := 3, pbAcc := 0x00000001, pEvt := some 0x98, pDr := 0x80 })).a.ret =
      .message 0x80000001 := by
  decide
theorem test_is_valid_of_received_words :
    isValidAt .refcfg 0x00000003 = true ∧
    isValidAt .refcfg 0xC0000001 = false := by
  decide
theorem test_receive_blocking_arms :
    (recvDataOn 0x80 { per with busy := .recvData, pbI := 2 }).pAcken = false ∧
    (recvDataOn 0x81 { per with busy := .recvData, pbI := 3, pbAcc := 0x00030201 }).ret = .message 0x00030201 := by
  decide

/-! ## The reassembly handler (vectors 2.9) -/

theorem test_irq_addr_match :
    see (exec (.irqAddrMatch true false) (alone (ready 0x70 (asm 4 0x80000001 true true))))
        (fun s => (s.a.cnt, s.a.acc, s.a.done, s.a.fired)) = some (0, 0, false, false) ∧
    see (exec (.irqAddrMatch true false) (alone (ready 0x60 (asm 2 0xBBAA false false)))) (·.a.cnt) = some 2 := by
  decide
theorem test_irq_data_ack :
    see (exec (.irqDataAck false) (alone (ready 0x80 { asm 2 0x0000BBAA false false with pDr := 0xCC })))
        (fun s => (s.a.cnt, s.a.acc, s.a.pAcken, s.a.pEvt)) = some (3, 0x00CCBBAA, false, none) ∧
    see (exec (.irqDataAck true) (alone (ready 0x90 { asm 1 0x000000AA false false with pDr := 0xBB })))
        (fun s => (s.a.cnt, s.a.acc, s.a.pAcken)) = some (2, 0x0000BBAA, true) := by
  decide
theorem test_irq_data_nack :
    see (exec (.irqDataNack false) (alone (ready 0x88
          { asm 3 0x00CCBBAA false false with pDr := 0xDD, cb := some 0 })))
        (fun s => (s.a.cnt, s.a.acc, s.a.done, s.cblog)) = some (4, 0xDDCCBBAA, true, [0xDDCCBBAA]) ∧
    see (exec (.irqDataNack true) (alone (ready 0x98 { asm 1 0x0000005A true true with pDr := 0x5B })))
        (fun s => (s.a.cnt, s.a.acc, s.cblog)) = some (2, 0x00005B5A, []) := by
  decide
theorem test_irq_stop :
    see (exec .irqStop (alone (ready 0xA0 { asm 4 0xDDCCBBAA false false with cb := some 0 })))
        (fun s => (s.a.done, s.a.fired, s.cblog)) = some (true, true, [0xDDCCBBAA]) ∧
    see (exec .irqStop (alone (ready 0xA0 (asm 4 0xDDCCBBAA false true)))) (fun s => (s.a.done, s.a.pEvt)) = some (false, none) := by
  decide
theorem test_irq_other :
    see (exec (.irqOther 0x80) (alone (ready 0x80 { asm 3 0x00CCBBAA false false with pDr := 0xDD })))
        (fun s => (s.a.cnt, s.a.acc, s.a.pAcken, s.a.pEvt)) = some (3, 0x00CCBBAA, true, none) ∧
    see (exec (.irqOther 0x61) (alone { ready 0x61 per with ie := false })) (·.a.pEvt) = some (some 0x61) := by
  decide
theorem test_callback_takes_the_message :
    see (exec (.irqDataNack false) (alone (ready 0x88 { asm 3 0 false false with
          cb := some 0, fns := [{ cases := [], otherwise := [.takeMessage] }] })))
        (fun s => (s.a.done, s.a.fired, s.a.ctx)) = some (false, true, .main) ∧
    refusal (exec (.irqDataNack false) (alone (ready 0x88 { asm 3 0 false false with
          cb := some 0, fns := [{ cases := [], otherwise := [.receiveBlocking] }] }))) = some .blockingInHandler := by
  decide

/-! ## The asynchronous path's host operations (vectors 2.10) -/

theorem test_enable_async :
    see (exec (.enableAsync 7) (alone { asm 2 0x0000BBAA false false with pEvt := some 0x80, cb := some 1 }))
        (fun s => (s.a.cb, s.a.cnt, s.a.acc, s.a.pEvt, s.a.asyncEn)) = some (some 7, 0, 0, none, true) := by
  decide
theorem test_disable_async :
    see (exec .disableAsync (alone { asm 4 1 true true with asyncEn := true })) (fun s => (s.a.asyncEn, s.a.done)) =
      some (false, true) := by
  decide
theorem test_message_ready :
    see (exec .messageReady (alone (asm 4 0xDDCCBBAA true true))) (·.a.ret) = some (.bool true) ∧
    see (exec .messageReady (alone (asm 2 0x0000BBAA false false))) (·.a.ret) = some (.bool false) := by
  decide
theorem test_take_message :
    see (exec .takeMessage (alone (asm 4 0xDDCCBBAA true true))) (fun s => (s.a.ret, s.a.done, s.a.acc)) =
      some (.optMessage (some 0xDDCCBBAA), false, 0xDDCCBBAA) ∧
    see (exec .takeMessage (alone (asm 2 0x0000BBAA false false))) (·.a.ret) = some (.optMessage none) := by
  decide

/-! ## ENV's steps (R120, R132, R143, log 7, log 8) -/

theorem test_event_latched :
    see (exec .evStopRs (alone per)) (·.a.pEvt) = some (some 0xA0) ∧
    see (exec (.evRxdNackGc 0x5A) (alone per)) (fun s => (s.a.pEvt, s.a.pDr)) = some (some 0x98, 0x5A) ∧
    see (exec .evOwnMatch (alone { per with pEvt := some 0xA0 })) (·.a.pEvt) = some (some 0xA0) := by
  decide
theorem test_event_answers_a_controller :
    see (exec .evTxdNack (alone { ctl with answers := [0x28] })) (·.a.answers) = some [0x28, 0x30] ∧
    see (exec .evTxdNack (link per ctl)) (·.a.pEvt) = some none := by
  decide
theorem test_addr :
    see (exec (.addr 0x2A false) (alone per)) (fun s => (s.wire, s.a.pEvt)) = some ([.A 0x54 true], some 0x60) ∧
    refusal (exec (.addr 0x2A true) (alone per)) = some .readDirection := by
  decide
theorem test_msg :
    see (exec (.msg 0x0400 3 1) (alone { per with pState := .addressed })) (fun s => (s.wire, s.a.pDr, s.a.foreign)) =
      some ([.D 0x01 true], 0x01, [.data 0x30, .data 0x00, .data 0x04]) := by
  decide
theorem test_frame :
    see (exec (.frame 0x2B 0x04003001) (alone per)) (fun s => (foreignGoesOn^[6] s).wire) =
      some [.S, .A 0x56 false, .D 0x01 false, .D 0x30 false, .D 0x00 false, .D 0x04 false, .P] ∧
    see (exec (.frame 0x00 0x04003001) (alone per)) (fun s => ((foreignGoesOn^[6] s).wire, (foreignGoesOn s).a.pEvt)) =
      some ([.S, .A 0x00 true], some 0x70) := by
  decide

/-! ## One step -/

theorem test_step_runs_a_placed_word :
    see (step (State.reset.withFetchWord 8 0x01)) (·.a.role) = some .controller ∧
    see (step (State.reset.withFetchWord 8 0x88)) (fun s => (s.a.cnt, s.a.done)) = some (1, true) := by
  decide
theorem test_step_refuses_an_unknown_operation :
    refusal (step (State.reset.withFetchWord 8 0)) = none ∧
    refusal (step { State.reset with sched := [.main .a], a := { State.reset.a with prog := [[0x19]] } }) =
      some .unknownOperation := by
  decide

theorem test_ev_timeout_ends_a_poll :
    see (exec .evTimeout (alone { per with busy := .pollEvent 5 })) (fun s => (s.a.ret, s.a.busy)) =
      some (.code Config.evTimeout, .idle) ∧
    see (exec .evTimeout (alone { per with busy := .pollEvent 5, pEvt := some 0xA0 })) (·.a.busy) = some (.pollEvent 5) :=
  ⟨rfl, rfl⟩
theorem test_ev_timeout_in_stage_two :
    see (onward 1 (exec .evTimeout (alone { per with busy := .recvData, pbI := 2, pbAcc := 0x0201 }))) (fun s => (s.a.ret, s.a.busy)) =
      some (.message 0x0201, .idle) := by
  have h : exec .evTimeout (alone { per with busy := .recvData, pbI := 2, pbAcc := 0x0201 }) =
      .next (alone { per with busy := .recvDataExpired, pbI := 2, pbAcc := 0x0201 }) := rfl
  have h' : resume (alone { per with busy := .recvDataExpired, pbI := 2, pbAcc := 0x0201 }) =
      (alone { per with busy := .recvDataExpired, pbI := 2, pbAcc := 0x0201 }).mapSelf (recvDataOn Config.evTimeout) := rfl
  simp only [h, onward, Function.iterate_one, h', see, State.mapSelf, State.mapNode, recvDataOn_evTimeout]
  rfl
theorem test_env_injects_any_byte :
    see (step { alone per with sched := [.inject .a 0x61 0x7E] }) (fun s => (s.a.pEvt, s.a.pDr)) = some (some 0x61, 0) ∧
      see (step { alone per with sched := [.inject .a 0x98 0x7E] }) (fun s => (s.a.pEvt, s.a.pDr)) = some (some 0x98, 0x7E) := by
  decide
theorem test_dispatch_of_zero :
    see (exec (.dispatch 0) State.reset) (·.a.ret) = some (.optMessage (some 0)) := by
  have h : ∀ k : Fin 16, flagAt 0 k = false := by decide
  have hv : isValid 0 = true := by
    simp only [isValid, isValidAt, conflict, soundWithoutAux, h]
    decide
  simp only [exec, execDispatch, dispatch, hv, if_true]
  rfl

/-! ## Witnesses: states and operands that meet the obligations' hypotheses -/

/-- A controller about to send and a listening asynchronous peripheral. -/
def asyncPer : Node :=
  { per with asyncEn := true, ie := true, cb := some 0, fns := [{ cases := [], otherwise := [.takeMessage] }] }

/-- A node that meets the invariant. -/
theorem ctl_inv : ctl.Inv := by
  refine ⟨⟨?_, ?_, ?_, ?_, ?_⟩, ⟨?_, ?_, ?_⟩, ?_, ?_, ?_, ?_⟩ <;> simp [ctl, Node.reset]
theorem per_inv : per.Inv := by
  refine ⟨⟨?_, ?_, ?_, ?_, ?_⟩, ⟨?_, ?_, ?_⟩, ?_, ?_, ?_, ?_⟩ <;> simp [per, Node.reset]

/-- A turn of the controller's main program, with nothing to call. -/
def linked : State := { link ctl per with sched := [.main .a] }

theorem witness_StepKeepsTheInvariant :
    linked.Inv ∧ linked.NoTimeoutLatched ∧ (∀ n d turns, linked.sched ≠ .inject n Config.evTimeout d :: turns) ∧
      ∃ t, step linked = .next t :=
  ⟨⟨ctl_inv, per_inv⟩, fun n => by cases n <;> simp [linked, link, State.node, ctl, per, Node.reset],
    fun n d turns => by simp [linked], _, rfl⟩
theorem witness_StepKeepsTheAssemblyInvariant :
    (∃ t, exec (.initPeripheral 0x01) State.reset = .next t) ∧ (∃ t, exec (.initPeripheral 0x7F) State.reset = .next t) ∧
      linked.a.AssemblyInv ∧ linked.b.AssemblyInv ∧ ∃ t, step linked = .next t :=
  ⟨⟨_, rfl⟩, ⟨_, rfl⟩, ctl_inv.assembly, per_inv.assembly, _, rfl⟩
theorem witness_ClosedBusKeepsStartsAndStopsBalanced :
    linked.Inv ∧ linked.comp = .closed ∧ linked.Balanced ∧ ∃ t, step linked = .next t :=
  ⟨⟨ctl_inv, per_inv⟩, rfl, rfl, _, rfl⟩
theorem witness_OnlyTheHandlerCallsBack :
    ∃ t, step { alone (ready 0x88 (asm 3 0 false false)) with sched := [.irq .a] } = .next t := ⟨_, rfl⟩
theorem witness_RolesNeverChange : (∃ t, step linked = .next t) ∧ (linked.node .a).role ≠ .none ∧ (linked.node .b).role ≠ .none :=
  ⟨⟨_, rfl⟩, by decide, by decide⟩
theorem witness_MainContextNeverWritesTheAssembly :
    Instr.takeMessage.format = .hostop ∧ (∀ c, Instr.takeMessage ≠ .enableAsync c) ∧ (∀ a, Instr.takeMessage ≠ .initPeripheral a) ∧
      ∃ t, exec .takeMessage (alone (asm 4 1 true true)) = .next t :=
  ⟨rfl, by simp, by simp, _, rfl⟩
theorem witness_ClosedPeripheralProducesItsOwnCodes :
    let s : State := { link ctl { per with pEvt := some 0xA0 } with sched := [.main .b] }
    s.comp = .closed ∧ (∀ n c, (s.node n).pEvt = some c → c ∈ [0x60, 0x70, 0x80, 0x88, 0x90, 0x98, 0xA0]) ∧
      ∃ t, step s = .next t := by
  refine ⟨rfl, fun n c h => ?_, _, rfl⟩
  cases n <;> simp [link, State.node, ctl, per, State.reset, Node.reset] at h
  simp [← h]
theorem witness_DecodingAnEncodedOperationGivesItBack :
    (WellFormed (.irqDataAck true) = true ∧ ∃ c, irqBranch 2 c = .irqDataAck true) ∧
      (WellFormed (.irqDataNack false) = true ∧ ∃ c, irqBranch 3 c = .irqDataNack false) ∧
      (WellFormed (.irqOther 0x80) = true ∧ ∃ c, irqBranch 3 c = .irqOther 0x80) ∧ WellFormed (.hasFlag 0 15) = true :=
  ⟨⟨rfl, 0x90, rfl⟩, ⟨rfl, 0x88, rfl⟩, ⟨rfl, 0x80, rfl⟩, rfl⟩
theorem witness_EncodingADecodedOperationGivesItBack :
    decode .hostop 0 [0x18, 1, 0, 0, 0, 9] = .ok (.dispatch 1, [9]) ∧ decode .irq 4 [0x98, 9] = .ok (.irqOther 0x98, [9]) := by
  decide
theorem witness_StepRunsTheMainProgramsNextCall :
    let s : State := { alone { ctl with prog := [[0x06], [0x19]] } with sched := [.main .a] }
    let u : State := { s with a := { ctl with prog := [[0x09, 0x01]] } }
    s.sched = .main .a :: [] ∧ (s.node .a).ctx = .main ∧ (s.node .a).busy = .idle ∧ (s.node .a).prog = [0x06] :: [[0x19]] ∧
      decode .hostop (s.node .a).cnt [0x06] = .ok (.endTransaction, []) ∧ 0x18 < (0x19 : Byte).toNat ∧ (0x00 : Byte).toNat = 0 ∧
      decode .hostop (u.node .a).cnt [0x09, 0x01] = .error .truncated ∧ u.sched = .main .a :: [] ∧ (u.node .a).busy = .idle := by
  decide
theorem witness_StepRunsTheMainProgramsNextCall_rest :
    let s : State := { alone ctl with sched := [.main .a] }
    let u : State := { alone { per with busy := .readByte } with sched := [.main .a] }
    s.sched = .main .a :: [] ∧ (s.node .a).ctx = .main ∧ (s.node .a).busy = .idle ∧ (s.node .a).prog = [] ∧
      u.sched = .main .a :: [] ∧ (u.node .a).ctx = .main ∧ (u.node .a).busy ≠ .idle := by
  decide
theorem witness_StepRunsTheSelectedHandlerBranch :
    ((alone (ready 0x80 per)).node .a).Ready 0x80 ∧ ∀ c, ¬ (State.reset.node .a).Ready c :=
  ⟨⟨rfl, rfl, rfl, rfl, rfl⟩, fun c h => by cases h.1⟩
theorem witness_HandlerBranchesAreSelectedByCodeAndCount :
    (0x90 : Byte) ∈ ([0x80, 0x90] : List Byte) ∧ (2 : BitVec 3).toNat < 3 ∧ (0x88 : Byte) ∈ ([0x88, 0x98] : List Byte) ∧ (3 : BitVec 3).toNat < 4 ∧
      (0x80 : Byte) ∉ ([0x60, 0x68, 0x70, 0x78, 0xA0] : List Byte) ∧ 3 ≤ (3 : BitVec 3).toNat ∧ 4 ≤ (4 : BitVec 3).toNat ∧
      (0x78 : Byte) ∈ ([0x60, 0x68, 0x70, 0x78] : List Byte) := by
  decide
theorem witness_StepPresentsWhatEnvGives :
    let s : State := { alone per with sched := [.env .a .evt [0x61, 0]] }
    let u : State := { alone per with sched := [.env .a .frame [0x55, 0, 0, 0, 0]] }
    let v : State := { alone per with sched := [.env .a .frame [0x54, 0]] }
    s.sched = .env .a .evt [0x61, 0] :: [] ∧ decode .addr (s.node .a).cnt [0x54] = .ok (.addr 0x2A false, []) ∧
      (0x61 : Byte) ∉ Config.eventCodes ∧ (0x62 : Byte) ∉ Config.eventCodes ∧ s.comp = .openBus ∧
      (s.node .a).role = .peripheral ∧ (s.node .a).pEvt = none ∧ u.sched = .env .a .frame [0x55, 0, 0, 0, 0] :: [] ∧
      (0x55 : Byte).getLsbD 0 = true ∧ v.sched = .env .a .frame [0x54, 0] :: [] ∧
      decode EnvFormat.frame.format (v.node .a).cnt [0x54, 0] = .error .truncated ∧
      ({ s with sched := [.foreign .a] } : State).sched = .foreign .a :: [] := by
  decide
theorem witness_StepPresentsWhatEnvGives_inject :
    ({ alone per with sched := [.inject .a Config.evTimeout 0] } : State).sched = .inject .a Config.evTimeout 0 :: [] := rfl
/-- Of two codes outside the table at least one is not EV_TIMEOUT. -/
theorem witness_StepPresentsWhatEnvGives_code : (0x61 : Byte) ≠ Config.evTimeout ∨ (0x62 : Byte) ≠ Config.evTimeout := by
  by_cases h : (0x61 : Byte) = Config.evTimeout
  · exact .inr (h ▸ by decide)
  · exact .inl h
theorem witness_AddressMatchResetsTheAssembly :
    (alone (ready 0x60 per)).self.Ready 0x60 ∧ (alone (ready 0x78 per)).self.Ready 0x78 :=
  ⟨⟨rfl, rfl, rfl, rfl, rfl⟩, ⟨rfl, rfl, rfl, rfl, rfl⟩⟩
theorem witness_AcknowledgedByteIsStoredInItsLane :
    (alone (ready 0x90 (asm 2 0 false false))).self.Ready 0x90 ∧ (alone (ready 0x90 (asm 2 0 false false))).self.cnt.toNat < 3 :=
  ⟨⟨rfl, rfl, rfl, rfl, rfl⟩, by decide⟩
theorem witness_LaneStoreReplacesOneLane : (0 : Nat) < 4 ∧ (3 : Nat) < 4 := by decide
theorem witness_LastByteCompletesTheMessage :
    let s := alone (ready 0x98 (asm 3 0x00CCBBAA false false))
    let u := alone (ready 0x88 { asyncPer with cnt := 0 })
    s.self.Ready 0x98 ∧ s.self.cnt.toNat < 4 ∧ s.self.cb = none ∧ u.self.Ready 0x88 ∧ u.self.cnt.toNat < 4 ∧
      u.self.cb = some 0 ∧ ∀ i ∈ (u.self.hostFn 0).calls (setLane u.self.acc u.self.cnt.toNat u.self.pDr), Permitted i = true :=
  ⟨⟨rfl, rfl, rfl, rfl, rfl⟩, by decide, rfl, ⟨rfl, rfl, rfl, rfl, rfl⟩, by decide, rfl, by decide⟩
theorem witness_StopCompletesOnlyAnUnfiredMessage :
    let s := alone (ready 0xA0 (asm 4 1 false false))
    let u := alone (ready 0xA0 { asyncPer with cnt := 4 })
    let v := alone (ready 0xA0 (asm 4 1 true true))
    s.self.Ready 0xA0 ∧ s.self.cnt = 4 ∧ s.self.fired = false ∧ s.self.cb = none ∧ u.self.Ready 0xA0 ∧ u.self.cnt = 4 ∧
      u.self.fired = false ∧ u.self.cb = some 0 ∧ (∀ i ∈ (u.self.hostFn 0).calls u.self.acc, Permitted i = true) ∧
      v.self.Ready 0xA0 ∧ ¬ (v.self.cnt = 4 ∧ v.self.fired = false) :=
  ⟨⟨rfl, rfl, rfl, rfl, rfl⟩, rfl, rfl, rfl, ⟨rfl, rfl, rfl, rfl, rfl⟩, rfl, rfl, rfl, by decide, ⟨rfl, rfl, rfl, rfl, rfl⟩, by decide⟩
theorem witness_StopBranchOnlyRearmsUnderTheAssemblyInvariants :
    (alone (ready 0xA0 (asm 4 1 true true))).self.AssemblyInv ∧ (alone (ready 0xA0 (asm 4 1 true true))).self.Ready 0xA0 := by
  refine ⟨⟨by decide, ?_, by decide, by decide, by decide⟩, ⟨rfl, rfl, rfl, rfl, rfl⟩⟩
  intro i h h'
  have : (alone (ready 0xA0 (asm 4 1 true true))).self.cnt.toNat = 4 := by decide
  omega
theorem witness_OtherEventsAreIgnored :
    let s := alone (ready 0x80 (asm 3 0 false false))
    let u := alone (ready 0x98 (asm 4 0 true true))
    s.self.Ready 0x80 ∧ 3 ≤ s.self.cnt.toNat ∧ u.self.Ready 0x98 ∧ 4 ≤ u.self.cnt.toNat ∧
      (alone (ready 0x61 per)).self.Ready 0x61 ∧ (0x61 : Byte) ∉ ([0x60, 0x68, 0x70, 0x78, 0xA0] : List Byte) :=
  ⟨⟨rfl, rfl, rfl, rfl, rfl⟩, by decide, ⟨rfl, rfl, rfl, rfl, rfl⟩, by decide, ⟨rfl, rfl, rfl, rfl, rfl⟩, by decide⟩
theorem witness_CallbackMayNotCallOtherOperations :
    let s := alone (ready 0x88 { asm 3 0 false false with
      cb := some 0, fns := [{ cases := [], otherwise := [.takeMessage, .receiveBlocking, .messageReady] }] })
    s.self.Ready 0x88 ∧ s.self.cnt.toNat < 4 ∧ s.self.cb = some 0 ∧
      (s.self.hostFn 0).calls (setLane s.self.acc s.self.cnt.toNat s.self.pDr) =
        [.takeMessage] ++ .receiveBlocking :: [.messageReady] ∧
      Permitted .takeMessage = true ∧ Instr.receiveBlocking.format = .hostop ∧ Permitted .receiveBlocking = false :=
  ⟨⟨rfl, rfl, rfl, rfl, rfl⟩, by decide, rfl, by decide, rfl, rfl, rfl⟩
theorem witness_FiveEventsYieldOneCallback :
    let turns : List Turn := [.env .a .evt [0x60], .irq .a, .env .a .evt [0x80, 1], .irq .a,
      .env .a .evt [0x90, 0], .irq .a, .env .a .evt [0x80, 0], .irq .a, .env .a .evt [0x98, 0x80], .irq .a]
    let s : State := { alone asyncPer with sched := turns }
    let u : State := { alone { asyncPer with cb := none } with sched := turns }
    s.comp = .openBus ∧ (s.node .a).role = .peripheral ∧ (s.node .a).asyncEn = true ∧ (s.node .a).ie = true ∧
      (s.node .a).ctx = .main ∧ (s.node .a).pEvt = none ∧ (s.node .a).cb = some 0 ∧
      (∀ i ∈ ((s.node .a).hostFn 0).calls 0x80000001, Permitted i = true) ∧ (u.node .a).asyncEn = true ∧
      (u.node .a).ie = true ∧ (u.node .a).cb = none := by
  decide
theorem witness_LatchedEventHoldsTheBus :
    let s := link ctl { per with pEvt := some 0x80 }
    let u := link (ctlOpen .data []) { per with pEvt := some 0x80 }
    let o := alone (ctlOpen .address [])
    s.comp = .closed ∧ (s.peer.role == .peripheral && s.peer.pEvt.isSome) = true ∧ s.self.CanControl ∧ s.self.cState = .idle ∧
      u.comp = .closed ∧ (u.peer.role == .peripheral && u.peer.pEvt.isSome) = true ∧ u.self.CanControl ∧ u.self.cState = .data ∧
      u.self.cOwn = true ∧ u.self.cState ≠ .idle ∧
      (link { ctl with busy := .atStop .unit } { per with pEvt := some 0x80 }).self.busy = .atStop .unit ∧
      o.comp = .openBus ∧ o.self.answers = [] ∧ o.self.CanControl ∧ o.self.cState = .address ∧ o.self.cOwn = true :=
  ⟨rfl, rfl, ⟨rfl, rfl⟩, rfl, rfl, rfl, ⟨rfl, rfl⟩, rfl, rfl, by decide, rfl, rfl, rfl, ⟨rfl, rfl⟩, rfl, rfl⟩
/-- The lifted hold: each phase, for a call of its own and a `send`, at the first and the last byte. -/
theorem witness_LatchedEventHoldsTheBus_lifted :
    ∀ b ∈ ([.atStart .call true, .atStart (.send 1) false, .atAddress .call, .atAddress (.send 1), .atData .call 0xA5,
        .atData (.send 1) 0, .atStop .unit] : List Busy),
      ∀ i ∈ ([0, 2, 3] : List (BitVec 3)), ∀ q ∈ ([.idle, .addressed] : List PState), ∀ k ∈ ([false, true] : List Bool),
      let s := link { ctlOpen .data [] with busy := b, csI := i } { per with pState := q, pAcken := k }
      s.self.busy = b ∧ s.comp = .closed ∧ (s.peer.role == .peripheral && s.peer.pEvt.isSome) = false ∧
        s.self.cState = .data ∧ s.self.cOwn = true ∧ s.self.csI = i ∧ s.peer.pState = q ∧ s.peer.pAcken = k := by
  decide
/-- ENV's answer, one of each kind a clause names. -/
theorem witness_LatchedEventHoldsTheBus_answered :
    ∀ r ∈ ([0x08, 0x10, 0x18, 0x20, 0x28, 0x30, 0x38, 0xFF] : List Byte), ∀ i ∈ ([2, 3] : List (BitVec 3)),
      let s := alone { ctlOpen .data [r, 0x18] with busy := .atData (.send 1) 0, csI := i }
      s.self.busy = .atData (.send 1) 0 ∧ s.comp = .openBus ∧ s.self.answers = r :: [0x18] ∧ s.self.cState = .data ∧
        s.self.cOwn = true ∧ s.self.csI = i := by
  decide
theorem witness_BeginSendsStartAndAddress :
    let s := alone { ctl with answers := [0x08, 0x18] }
    let u := alone (ctlOpen .address [0x10, 0x38])
    let v := alone { ctl with answers := [0x38, 0x00] }
    s.self.CanControl ∧ s.comp = .openBus ∧ s.self.answers = 0x08 :: 0x18 :: [] ∧ s.self.cState = .idle ∧
      u.self.CanControl ∧ u.self.answers = 0x10 :: 0x38 :: [] ∧ u.self.cState = .address ∧ u.self.cOwn = true ∧
      v.self.CanControl ∧ v.self.answers = 0x38 :: 0x00 :: [] ∧ ¬ ((0x38 : Byte) = 0x08 ∨ (0x38 : Byte) = 0x10) :=
  ⟨⟨rfl, rfl⟩, rfl, rfl, rfl, ⟨rfl, rfl⟩, rfl, rfl, rfl, ⟨rfl, rfl⟩, rfl, by decide⟩
theorem witness_BeginAddressesTheListeningPeripheral :
    let s := link ctl per
    let r := link (ctlOpen .data []) per
    s.comp = .closed ∧ ¬ (s.peer.role = .peripheral ∧ s.peer.pEvt.isSome = true) ∧ s.self.CanControl ∧ s.self.cState = .idle ∧
      ¬ (r.peer.role = .peripheral ∧ r.peer.pEvt.isSome = true) ∧ r.self.CanControl ∧ r.self.cState = .data ∧
      r.self.cOwn = true ∧ ¬ (r.peer.role = .peripheral ∧ r.peer.pState = .addressed) :=
  ⟨rfl, by decide, ⟨rfl, rfl⟩, rfl, by decide, ⟨rfl, rfl⟩, rfl, rfl, by decide⟩
theorem witness_BeginAddressesTheListeningPeripheral_address :
    let c : Node := { ctlOpen .address [] with busy := .atAddress .call }
    let s := link c per
    let u := link c { per with sla := 0x2B }
    let v := link c { per with pAcken := false }
    s.comp = .closed ∧ ¬ (s.peer.role = .peripheral ∧ s.peer.pEvt.isSome = true) ∧ s.self.busy = .atAddress .call ∧
      s.peer.role = .peripheral ∧ s.peer.pAcken = true ∧ slaW s.self.sla = slaW s.peer.sla ∧
      u.self.busy = .atAddress .call ∧ ¬ (slaW u.self.sla = slaW u.peer.sla ∨ slaW u.self.sla = 0) ∧
      v.self.busy = .atAddress .call ∧ ¬ (v.peer.role = .peripheral ∧ v.peer.pAcken = true) := by
  decide
theorem witness_RepeatedStartRaisesTheStopEvent :
    let s := link (ctlOpen .data []) { per with pState := .addressed }
    s.self.CanControl ∧ s.comp = .closed ∧ s.self.cState = .data ∧ s.self.cOwn = true ∧ s.peer.role = .peripheral ∧
      s.peer.pState = .addressed ∧ s.peer.pEvt = none :=
  ⟨⟨rfl, rfl⟩, rfl, rfl, rfl, rfl, rfl, rfl⟩
theorem witness_WriteByteDeliversToThePeripheral :
    let s := link (ctlOpen .data []) { per with pState := .addressed }
    let u := link (ctlOpen .address []) { per with pState := .addressed, pAcken := false }
    let v := link (ctlOpen .address []) per
    s.self.CanControl ∧ s.comp = .closed ∧ s.self.cState = .data ∧ s.self.cOwn = true ∧
      ¬ (s.peer.role = .peripheral ∧ s.peer.pEvt.isSome = true) ∧ s.peer.pState = .addressed ∧ s.peer.pAcken = true ∧
      u.self.CanControl ∧ u.self.cState = .address ∧ u.peer.pState = .addressed ∧ u.peer.pAcken = false ∧
      v.self.CanControl ∧ ¬ (v.peer.role = .peripheral ∧ v.peer.pState = .addressed) :=
  ⟨⟨rfl, rfl⟩, rfl, rfl, rfl, by decide, rfl, rfl, ⟨rfl, rfl⟩, rfl, rfl, rfl, ⟨rfl, rfl⟩, by decide⟩
theorem witness_WriteByteReturnsTheAnswer :
    let s := alone (ctlOpen .data [0x38])
    s.self.CanControl ∧ s.comp = .openBus ∧ s.self.cState = .data ∧ s.self.cOwn = true ∧ s.self.answers = 0x38 :: [] :=
  ⟨⟨rfl, rfl⟩, rfl, rfl, rfl, rfl⟩
theorem witness_EndReleasesTheBusOnce :
    let s := alone ctl
    let u := alone { ctl with cState := .error }
    let v := alone (ctlOpen .data [])
    let w := link (ctlOpen .error []) { per with pState := .addressed }
    s.self.CanControl ∧ s.self.cState = .idle ∧ u.self.CanControl ∧ u.self.cState ≠ .idle ∧ u.self.cOwn = false ∧
      v.self.CanControl ∧ v.self.cState ≠ .idle ∧ v.self.cOwn = true ∧ v.comp = .openBus ∧ w.self.CanControl ∧
      w.self.cState ≠ .idle ∧ w.self.cOwn = true ∧ w.comp = .closed ∧ ¬ (w.peer.role = .peripheral ∧ w.peer.pEvt.isSome = true) :=
  ⟨⟨rfl, rfl⟩, rfl, ⟨rfl, rfl⟩, by decide, rfl, ⟨rfl, rfl⟩, by decide, rfl, rfl, ⟨rfl, rfl⟩, by decide, rfl, rfl, by decide⟩
theorem witness_ErrorStateAcceptsOnlyEnd :
    let s := alone (ctlOpen .error [])
    s.self.CanControl ∧ s.self.cState = .error ∧ ¬ ((s.self.cState = .address ∨ s.self.cState = .data) ∧ s.self.cOwn = true) ∧
      s.self.cState ≠ .idle :=
  ⟨⟨rfl, rfl⟩, rfl, by decide, by decide⟩
theorem witness_RearmArmsAndClears : (alone per).self.role = .peripheral ∧ (alone { per with ctx := .irq }).self.role = .peripheral := by
  decide
theorem witness_ReadByteArmsThenWaits :
    (alone per).self.CanServe ∧ (alone per).self.asyncEn = false ∧
      (alone { per with busy := .readByte }).self.busy = .readByte ∧ (alone { per with busy := .readByte }).self.pEvt = none ∧
      (alone { per with busy := .readByte, pEvt := some 0x88 }).self.pEvt = some 0x88 :=
  ⟨⟨rfl, rfl⟩, rfl, rfl, rfl, rfl⟩
theorem witness_PollEventObservesOrExpires :
    (alone { per with pEvt := some 0xA0 }).self.CanServe ∧ (alone { per with pEvt := some 0xA0 }).self.asyncEn = false ∧
      (alone { per with pEvt := some 0xA0 }).self.pEvt = some 0xA0 ∧ (alone per).self.pEvt = none ∧
      (alone { per with busy := .pollEvent 0 }).self.busy = .pollEvent 0 :=
  ⟨⟨rfl, rfl⟩, rfl, rfl, rfl, rfl⟩
theorem witness_SendOverAnAcknowledgingBusSucceeds :
    let s := alone { ctl with answers := [0x10, 0x18, 0x28, 0x28, 0x28, 0x28] }
    s.self.CanControl ∧ s.comp = .openBus ∧ s.self.cState = .idle ∧
      s.self.answers = 0x10 :: 0x18 :: 0x28 :: 0x28 :: 0x28 :: 0x28 :: [] :=
  ⟨⟨rfl, rfl⟩, rfl, rfl, rfl⟩
theorem witness_SendNamesTheByteNotAcknowledged :
    let s := alone { ctl with answers := [0x08, 0x18, 0x30] }
    let u := alone { ctl with answers := [0x08, 0x18, 0x28, 0x28, 0x28, 0x38] }
    s.self.CanControl ∧ s.comp = .openBus ∧ s.self.cState = .idle ∧ 0 < 4 ∧
      s.self.answers = 0x08 :: 0x18 :: (List.replicate 0 0x28 ++ 0x30 :: []) ∧ (0x30 : Byte) ≠ 0x28 ∧
      u.self.CanControl ∧ 3 < 4 ∧ u.self.answers = 0x08 :: 0x18 :: (List.replicate 3 0x28 ++ 0x38 :: []) ∧ (0x38 : Byte) ≠ 0x28 :=
  ⟨⟨rfl, rfl⟩, rfl, rfl, by decide, rfl, by decide, ⟨rfl, rfl⟩, by decide, rfl, by decide⟩
theorem witness_SendReportsTheAddressAnswer :
    let s := alone { ctl with answers := [0x08, 0x38] }
    let v := alone { ctl with answers := [0x18] }
    s.self.CanControl ∧ s.comp = .openBus ∧ s.self.cState = .idle ∧ (0x38 : Byte) ≠ 0x18 ∧ s.self.answers = 0x08 :: 0x38 :: [] ∧
      v.self.CanControl ∧ v.self.cState = .idle ∧ v.self.answers = 0x18 :: [] ∧
      ¬ ((0x18 : Byte) = 0x08 ∨ (0x18 : Byte) = 0x10) :=
  ⟨⟨rfl, rfl⟩, rfl, rfl, by decide, rfl, ⟨rfl, rfl⟩, rfl, rfl, by decide⟩
theorem witness_SendReportsTheAddressAnswer_closed :
    let s := link ctl Node.reset
    let u := link ctl { per with sla := 0x2B }
    let v := link ctl { per with pAcken := false }
    s.self.CanControl ∧ s.comp = .closed ∧ s.self.cState = .idle ∧ s.peer.role ≠ .peripheral ∧ u.self.CanControl ∧
      u.peer.pEvt = none ∧ u.peer.pState = .idle ∧ slaW u.self.sla ≠ slaW u.peer.sla ∧ slaW u.self.sla ≠ 0 ∧
      v.peer.pEvt = none ∧ v.peer.pState = .idle ∧ v.peer.pAcken = false :=
  ⟨⟨rfl, rfl⟩, rfl, rfl, by decide, ⟨rfl, rfl⟩, rfl, rfl, by decide, by decide, rfl, rfl, rfl⟩
/-- Node A's main program waits in read_byte, the event is latched, and it has every turn. -/
def fairRun : Execution where
  state k := if k = 0 then alone { per with busy := .readByte, pEvt := some 0x80 } else alone { per with pEvt := some 0x80, ret := .byte 0 }
  turn _ := .main .a
  runs k := by cases k <;> rfl
theorem witness_FairExecutionsEndTheirWaits :
    fairRun.Fair ∧ (∀ j, ((fairRun.state j).node .a).ctx = .main) ∧ ((fairRun.state 0).node .a).busy = .readByte ∧
      (∀ j, 0 ≤ j → ((fairRun.state j).node .a).busy = .readByte → (fairRun.state j).waitOver .a = true) ∧
      (fairRun.state 0).waitOver (fairRun.state 0).cur = true := by
  refine ⟨⟨fun n k => ⟨k, le_refl k, ?_⟩, fun n k => ⟨k, le_refl k, .inr ?_⟩⟩, ?_, rfl, ?_, rfl⟩
  · cases n
    · exact .inl rfl
    · cases k <;> exact .inr rfl
  · cases n <;> cases k <;> rfl
  · intro j; cases j <;> rfl
  · intro j _ h
    cases j with
    | zero => rfl
    | succ => cases h
theorem witness_SendDeliversAndReportsByteThree :
    ∀ b ∈ ([some 0, none] : List (Option Byte)),
    let s : State := { link { ctl with prog := [encode (.send 0x04003001)] } { asyncPer with cb := b } with
      sched := [.main .a, .main .a, .irq .b, .main .a, .irq .b, .main .a, .irq .b, .main .a, .irq .b, .main .a, .irq .b,
        .main .a, .irq .b] }
    s.comp = .closed ∧ (s.node .a).CanControl ∧ (s.node .a).cState = .idle ∧ (s.node .a).busy = .idle ∧
      (s.node .a).prog = encode (.send 0x04003001) :: [] ∧ (s.node .a).sla ≠ 0 ∧ (s.node .b).sla = (s.node .a).sla ∧
      (s.node .b).CanServe ∧ (s.node .b).asyncEn = true ∧ (s.node .b).ie = true ∧
      (s.node .b).pAcken = true ∧ (s.node .b).pEvt = none ∧ (s.node .b).pState = .idle ∧ (s.node .b).cb = b ∧
      ∀ i ∈ (asyncPer.hostFn 0).calls 0x04003001, Permitted i = true :=
  fun _ _ => ⟨rfl, ⟨rfl, rfl⟩, rfl, rfl, rfl, (by decide : (0x2A : BitVec 7) ≠ 0), rfl, ⟨rfl, rfl⟩, rfl, rfl, rfl, rfl, rfl, rfl, by decide⟩
theorem witness_SendDeliversAndReportsByteThree_blocking :
    let s : State := { link { ctl with prog := [encode (.send 0x80000001)] } { per with prog := [encode .receiveBlocking] } with
      sched := [.main .b, .main .a, .main .a, .main .b, .main .a, .main .b, .main .a, .main .b, .main .a, .main .b, .main .a,
        .main .b, .main .a] }
    s.comp = .closed ∧ (s.node .a).CanControl ∧ (s.node .a).cState = .idle ∧ (s.node .a).busy = .idle ∧
      (s.node .a).prog = encode (.send 0x80000001) :: [] ∧ (s.node .a).sla ≠ 0 ∧ (s.node .b).sla = (s.node .a).sla ∧
      (s.node .b).CanServe ∧ (s.node .b).asyncEn = false ∧ (s.node .b).busy = .idle ∧
      (s.node .b).prog = encode .receiveBlocking :: [] ∧ (s.node .b).pAcken = true ∧ (s.node .b).pEvt = none ∧
      (s.node .b).pState = .idle :=
  ⟨rfl, ⟨rfl, rfl⟩, rfl, rfl, rfl, by decide, rfl, ⟨rfl, rfl⟩, rfl, rfl, rfl, rfl, rfl, rfl⟩
theorem witness_BlockingReceiveAssemblesFourBytes :
    let s : State := { alone { per with prog := [encode .receiveBlocking] } with
      sched := [.main .a, .env .a .evt [0x70], .main .a, .env .a .evt [0x88, 1], .main .a, .env .a .evt [0x90, 2],
        .main .a, .env .a .evt [0x80, 3], .main .a, .env .a .evt [0x98, 4], .main .a] }
    let u := alone { per with pEvt := some 0x78 }
    s.self.CanServe ∧ s.self.asyncEn = false ∧ s.self.pEvt = none ∧ s.comp = .openBus ∧ (s.node .a).CanServe ∧
      (s.node .a).busy = .idle ∧ (s.node .a).prog = encode .receiveBlocking :: [] ∧
      (0x78 : Byte) ∈ ([0x60, 0x68, 0x70, 0x78] : List Byte) ∧ u.self.CanServe ∧ u.self.asyncEn = false ∧ u.self.pEvt = some 0x78 :=
  ⟨⟨rfl, rfl⟩, rfl, rfl, rfl, ⟨rfl, rfl⟩, rfl, rfl, by decide, ⟨rfl, rfl⟩, rfl, rfl⟩
theorem witness_BlockingReceiveAssemblesFourBytes_bytes :
    (∀ k ∈ ([0, 2, 3] : List (BitVec 3)), ∀ c ∈ ([0x80, 0x98] : List Byte),
      let s := alone { per with busy := .recvData, pEvt := some c, pbI := k }
      c ∈ ([0x80, 0x88, 0x90, 0x98] : List Byte) ∧ s.self.busy = .recvData ∧ s.self.pEvt = some c ∧
        (s.self.pbI.toNat < 3 ∨ s.self.pbI = 3)) ∧
      (0x60 : Byte) ∈ ([0x60, 0x68, 0x70, 0x78] : List Byte) ∧
      (alone { per with busy := .recvAddress, pEvt := some 0x60 }).self.busy = .recvAddress := by
  decide
theorem witness_BlockingReceiveMeetsUnexpectedEvents :
    let s := alone { per with busy := .recvData, pEvt := some 0x60 }
    let u := alone { per with busy := .recvAddress, pEvt := some 0xA0 }
    s.self.busy = .recvData ∧ s.self.pEvt = some 0x60 ∧ (0x60 : Byte) ∉ ([0x80, 0x88, 0x90, 0x98] : List Byte) ∧
      u.self.busy = .recvAddress ∧ u.self.pEvt = some 0xA0 ∧ (0xA0 : Byte) ∉ ([0x60, 0x68, 0x70, 0x78] : List Byte) ∧
      (alone { per with busy := .recvData }).self.pEvt = none ∧ (alone { per with busy := .recvAddress }).self.pEvt = none ∧
      s.self.pEvt.isSome = true ∧ (alone { per with busy := .recvDataExpired }).self.busy = .recvDataExpired ∧
      (alone { per with busy := .recvAddressExpired, pEvt := some 0x60 }).self.busy = .recvAddressExpired := by
  decide
theorem witness_BlockingReceiveMeetsUnexpectedEvents_call :
    let s := alone { per with pEvt := some 0xA0 }
    s.self.CanServe ∧ s.self.asyncEn = false ∧ s.self.pEvt = some 0xA0 ∧ (0xA0 : Byte) ∉ ([0x60, 0x68, 0x70, 0x78] : List Byte) :=
  ⟨⟨rfl, rfl⟩, rfl, rfl, by decide⟩
theorem witness_EnableAndDisableAsync :
    (alone (asm 2 1 false false)).self.CanServe ∧ (alone { per with asyncEn := true }).self.CanServe := ⟨⟨rfl, rfl⟩, ⟨rfl, rfl⟩⟩
theorem witness_ForeignPhasesGoOn_elsewhere :
    ∀ ph ∈ ([.start, .address 0x2A, .data 0xA5, .stop] : List Phase), ∀ r ∈ ([.controller, .none] : List Role),
      let s := alone { ctlOpen .data [] with role := r, foreign := [ph] }
      s.comp = .openBus ∧ s.self.role ≠ .peripheral ∧ s.self.foreign = ph :: [] := by
  decide
theorem witness_ForeignPhasesGoOn_still :
    (link ctl per).comp = .closed ∧ (alone per).self.foreign = [] ∧ (alone { per with pEvt := some 0x60 }).self.role = .peripheral ∧
      (alone { per with pEvt := some 0x60 }).self.pEvt.isSome = true := by
  decide
theorem witness_ForeignPhasesGoOn :
    ∀ ph ∈ ([.start, .address 0, .address 0x2A, .address 0x2B, .data 0xA5, .stop] : List Phase),
      ∀ k ∈ ([false, true] : List Bool), ∀ q ∈ ([.idle, .addressed] : List PState),
      let s := alone { per with foreign := [ph], pAcken := k, pState := q }
      s.comp = .openBus ∧ s.self.role = .peripheral ∧ s.self.pEvt = none ∧ s.self.foreign = ph :: [] ∧ s.self.pAcken = k ∧
        s.self.pState = q ∧ s.self.sla = 0x2A := by
  decide
theorem witness_TakeMessageTakesEachCompletionOnce :
    (alone (asm 4 1 true true)).self.role = .peripheral ∧ (alone (asm 4 1 true true)).self.done = true ∧
      (alone (asm 2 1 false false)).self.done = false := by
  decide
theorem witness_InitControllerConfigures :
    State.reset.self.ctx = .main ∧ State.reset.self.role ≠ .peripheral ∧ State.reset.self.cOwn = false := by
  decide
theorem witness_InitPeripheralConfigures :
    State.reset.self.ctx = .main ∧ (1 : BitVec 7) ≠ 0 ∧ (127 : BitVec 7) ≠ 0 ∧ State.reset.self.role = .none ∧
      (alone per).self.role = .peripheral ∧ (alone per).self.pState = .idle ∧ (alone per).self.pEvt = none := by
  decide
theorem witness_ReconfigurationNeedsAQuietMoment :
    (alone (ctlOpen .data [])).self.ctx = .main ∧ (0x2A : BitVec 7) ≠ 0 ∧ (alone (ctlOpen .data [])).self.cOwn = true ∧
      (alone per).self.role = .peripheral ∧ (alone ctl).self.role = .controller ∧
      (alone { per with pState := .addressed }).self.pState = .addressed ∧
      (alone { per with pEvt := some 0xA0 }).self.pEvt.isSome = true := by
  decide
theorem witness_CriticalSectionSavesAndRestoresIE : (alone { per with ie := true, pEvt := some 0x80 }).self.CanServe := ⟨rfl, rfl⟩
theorem witness_RefusedCallsAreRefusedByName :
    State.reset.self.role = .none ∧ (alone ctl).self.CanControl ∧ (alone per).self.CanServe ∧
      (alone { per with asyncEn := true }).self.CanServe ∧ (alone { per with asyncEn := true }).self.asyncEn = true ∧
      (alone per).comp = .openBus ∧ (alone per).self.role = .peripheral ∧ pureValue .receiveBlocking = none :=
  ⟨rfl, ⟨rfl, rfl⟩, ⟨rfl, rfl⟩, ⟨rfl, rfl⟩, rfl, rfl, rfl, rfl⟩
theorem witness_OneFlippedBitIsAlwaysCaught : (31 : Nat) < 32 ∧ isValidAt .refcfg 0x80000100 = true := by decide
theorem witness_ValidityOfEveryWord :
    (0x80000001 : Word).extractLsb' 12 20 = (0x80000007 : Word).extractLsb' 12 20 ∧
      (0x80000001 : Word).getLsbD 0 = (0x80000007 : Word).getLsbD 0 ∧ parity31 0x80000001 = parity31 0x80000007 := by
  decide
theorem witness_PureFunctionsRunInEveryState : pureValue (.getAux 0x94007000) = some (.aux 7) := by decide
theorem witness_EnvEventsAreLatchedOrAnswer :
    eventOf (.evRxdAckOwn 0x7E) = some (0x80, 0x7E) ∧ (alone ctl).comp = .openBus ∧ (alone ctl).self.role = .controller ∧
      (alone per).self.role = .peripheral ∧ (alone per).self.pEvt = none ∧ (alone { per with pEvt := some 0x61 }).self.pEvt.isSome = true := by
  decide
theorem witness_ForeignPhasesReachThePeripheral :
    ∀ k ∈ ([false, true] : List Bool), ∀ q ∈ ([.idle, .addressed] : List PState),
      let s := alone { per with pAcken := k, pState := q }
      s.comp = .openBus ∧ s.self.role = .peripheral ∧ s.self.pEvt = none ∧ s.self.foreign = [] ∧ s.self.pAcken = k ∧
        s.self.pState = q ∧ (0x2A : BitVec 7) = s.self.sla ∧ (0x2B : BitVec 7) ≠ s.self.sla ∧ (0x2B : BitVec 7) ≠ 0 := by
  decide
theorem witness_DeaddressOnNackNeverReachesTheAssembly :
    let s := alone { asm 3 0x00CCBBAA false false with asyncEn := true, ie := true, pState := .addressed, pAcken := false }
    let u := alone { asm 4 0xDDCCBBAA true true with asyncEn := true, ie := true, pState := .addressed }
    s.self.AssemblyInv ∧ s.self.irqEnabled = true ∧ s.self.pEvt = none ∧ s.self.pState = .addressed ∧
      u.self.irqEnabled = true ∧ u.self.pAcken = true ∧ u.self.cnt = 4 ∧ u.self.pState = .addressed ∧
      (alone { asm 4 0 true true with asyncEn := true, ie := true }).self.pState = .idle := by
  refine ⟨⟨by decide, ?_, by decide, by decide, by decide⟩, rfl, rfl, rfl, rfl, rfl, rfl, rfl, rfl⟩
  intro i h h'
  have hc : (alone { asm 3 0x00CCBBAA false false with
    asyncEn := true, ie := true, pState := .addressed, pAcken := false }).self.cnt.toNat = 3 := by decide
  obtain rfl : i = 3 := by omega
  decide
end Sys2Proof.Tests
end

section
/-! SUPPORT. The family 00_scope.md: what each kind of turn comes to, when a wait's condition lets its main
program go on, what a lane store writes, which words are valid; and the five statements, assembled from these. -/

namespace Sys2Proof.Machine

/-! ## Lanes (R12, R182) -/

/-- The bits one lane covers. -/
theorem getLsbD_laneMask (k : Nat) : (0xFF : Word).getLsbD k = decide (k < 8) := by
  have hmask : (0xFF : Word) = (BitVec.allOnes 8).setWidth 32 := by decide
  rw [hmask, BitVec.getLsbD_setWidth, BitVec.getLsbD_allOnes, ← Bool.decide_and, decide_eq_decide]
  omega

/-- A lane store, bit by bit: the lane's bits are the byte's, the others the word's. -/
theorem getLsbD_setLane (w : Word) (i : Nat) (b : Byte) {p : Nat} (hp : p < 32) :
    (setLane w i b).getLsbD p = if 8 * i ≤ p ∧ p < 8 * i + 8 then b.getLsbD (p - 8 * i) else w.getLsbD p := by
  simp only [setLane, BitVec.getLsbD_or, BitVec.getLsbD_and, BitVec.getLsbD_not, BitVec.getLsbD_shiftLeft,
    BitVec.getLsbD_setWidth, getLsbD_laneMask, hp, decide_true, Bool.true_and]
  split
  case isTrue hin =>
    have hlow : ¬ p < 8 * i ∧ p - 8 * i < 8 ∧ p - 8 * i < 32 := by omega
    simp [hlow]
  case isFalse hout =>
    by_cases hbelow : p < 8 * i
    · simp [hbelow]
    · have habove : 8 ≤ p - 8 * i := by omega
      simp [Nat.not_lt.2 habove, BitVec.getLsbD_of_ge b _ habove]

theorem lane_setLane_same (w : Word) (b : Byte) {i : Nat} (hi : i < 4) : lane (setLane w i b) i = b := by
  apply BitVec.eq_of_getLsbD_eq
  intro k hk
  rw [lane, wordByte_eq _ _ _ hk, getLsbD_setLane _ _ _ (by omega), if_pos (by omega), Nat.add_sub_cancel_left]

theorem lane_setLane_ne (w : Word) (b : Byte) {i j : Nat} (hj : j < 4) (hij : j ≠ i) :
    lane (setLane w i b) j = lane w j := by
  apply BitVec.eq_of_getLsbD_eq
  intro k hk
  rw [lane, lane, wordByte_eq _ _ _ hk, wordByte_eq _ _ _ hk, getLsbD_setLane _ _ _ (by omega), if_neg (by omega)]

/-! ## Validity (R213, R215) -/

theorem conflict_eq_false_iff (fm : FlagMap) (m : Word) :
    conflict fm m = false ↔
      ¬ (flagAt m fm.fwd = true ∧ flagAt m fm.rev = true) ∧ ¬ (flagAt m fm.blink = true ∧ flagAt m fm.fwd = true) ∧
        ¬ (flagAt m fm.blink = true ∧ flagAt m fm.rev = true) ∧ ¬ (flagAt m fm.opn = true ∧ flagAt m fm.close = true) := by
  simp only [conflict, Bool.or_eq_false_iff, and_assoc]
  simp only [Bool.eq_false_iff, ne_eq, Bool.and_eq_true]

theorem soundWithoutAux_eq_false_iff (fm : FlagMap) (m : Word) :
    soundWithoutAux fm m = false ↔ flagAt m fm.sound = false ∨ auxOf m ≠ 0 := by
  simp only [soundWithoutAux, Bool.and_eq_false_iff, beq_eq_false_iff_ne]

/-- `is_valid` is the conjunction of its three tests (R215). -/
theorem isValidAt_iff (fm : FlagMap) (m : Word) :
    isValidAt fm m = true ↔
      conflict fm m = false ∧ soundWithoutAux fm m = false ∧ m.getLsbD 0 = parity31 m := by
  unfold isValidAt
  cases conflict fm m <;> cases soundWithoutAux fm m <;> simp

/-- Words that agree in flags and aux agree in each of those bits. -/
theorem getLsbD_congr_of_upper {m k : Word} (h : m.extractLsb' 12 20 = k.extractLsb' 12 20) {p : Nat} (hp : p < 20) :
    m.getLsbD (12 + p) = k.getLsbD (12 + p) := by
  have hbit := congrArg (fun v : BitVec 20 => v.getLsbD p) h
  simpa only [BitVec.getLsbD_extractLsb', hp, decide_true, Bool.true_and] using hbit

theorem flagAt_congr {m k : Word} (h : m.extractLsb' 12 20 = k.extractLsb' 12 20) (i : Fin 16) :
    flagAt m i = flagAt k i := by
  have hbit := getLsbD_congr_of_upper h (p := 4 + i) (by omega)
  rwa [← Nat.add_assoc] at hbit

theorem auxOf_congr {m k : Word} (h : m.extractLsb' 12 20 = k.extractLsb' 12 20) : auxOf m = auxOf k := by
  apply BitVec.eq_of_getLsbD_eq
  intro p hp
  simp only [auxOf, BitVec.getLsbD_extractLsb', getLsbD_congr_of_upper h (p := p) (by omega)]

/-- Validity reads flags, aux, the parity bit and the parity (R215, R219). -/
theorem isValidAt_congr (fm : FlagMap) {m k : Word} (h : m.extractLsb' 12 20 = k.extractLsb' 12 20)
    (hbit : m.getLsbD 0 = k.getLsbD 0) (hpar : parity31 m = parity31 k) : isValidAt fm m = isValidAt fm k := by
  rw [Bool.eq_iff_iff, isValidAt_iff, isValidAt_iff]
  simp only [conflict, soundWithoutAux, flagAt_congr h, auxOf_congr h, hbit, hpar]

/-- A word with no flag set is valid exactly with the right parity bit. -/
theorem isValidAt_of_no_flags (fm : FlagMap) {m : Word} (h : ∀ i : Fin 16, flagAt m i = false) :
    isValidAt fm m = (m.getLsbD 0 == parity31 m) := by
  rw [Bool.eq_iff_iff, isValidAt_iff]
  simp [conflict, soundWithoutAux, h]

theorem isValidAt_of_wrong_parity (fm : FlagMap) {m : Word} (h : m.getLsbD 0 ≠ parity31 m) :
    isValidAt fm m = false := by
  rw [Bool.eq_false_iff, ne_eq, isValidAt_iff]
  exact fun hv => h hv.2.2

/-! ## What a turn comes to (R14, R71) -/

@[simp] theorem State.self_turnOf (s : State) (n : NodeId) (turns : List Turn) : (s.turnOf n turns).self = s.node n := rfl

section
variable {s : State} {n : NodeId} {turns : List Turn}

theorem fetch_main (hs : s.sched = .main n :: turns) : fetch s = fetchCall (s.turnOf n turns) := by
  simp only [fetch, hs, Turn.node, State.turnOf]

theorem fetch_env {f : EnvFormat} {bs : List Byte} (hs : s.sched = .env n f bs :: turns) :
    fetch s = fetchEnv f bs (s.turnOf n turns) := by
  simp only [fetch, hs, Turn.node, State.turnOf]

theorem fetchCall_of_inside (hx : s.self.ctx = .main) (hb : s.self.busy ≠ .idle) : fetchCall s = .goOn s := by
  simp [fetchCall, hx, hb]

theorem fetchCall_of_done (hx : s.self.ctx = .main) (hb : s.self.busy = .idle) (hp : s.self.prog = []) :
    fetchCall s = .idle s := by
  simp [fetchCall, hx, hb, hp]

theorem fetchCall_of_call {bs rest : List Byte} {calls : List (List Byte)} {i : Instr} (hx : s.self.ctx = .main)
    (hb : s.self.busy = .idle) (hp : s.self.prog = bs :: calls) (hd : decode .hostop s.self.cnt bs = .ok (i, rest)) :
    fetchCall s = .run i (s.mapSelf fun x => { x with prog := calls }) := by
  simp [fetchCall, hx, hb, hp, hd]

theorem fetchCall_of_no_operation {bs : List Byte} {calls : List (List Byte)} {e : DecodeError}
    (hx : s.self.ctx = .main) (hb : s.self.busy = .idle) (hp : s.self.prog = bs :: calls)
    (hd : decode .hostop s.self.cnt bs = .error e) : fetchCall s = .reject .unknownOperation := by
  simp [fetchCall, hx, hb, hp, hd]

/-- A main program inside an operation goes on with it at its turn (R71). -/
theorem step_main_of_inside (hs : s.sched = .main n :: turns) (hx : (s.node n).ctx = .main)
    (hb : (s.node n).busy ≠ .idle) : step s = .next (resume (s.turnOf n turns)) := by
  simp only [step, fetch_main hs, fetchCall_of_inside (s := s.turnOf n turns) hx hb]

/-- Its next call is executed with the turn and the call taken off. -/
theorem step_main_of_call {bs rest : List Byte} {calls : List (List Byte)} {i : Instr}
    (hs : s.sched = .main n :: turns) (hx : (s.node n).ctx = .main) (hb : (s.node n).busy = .idle)
    (hp : (s.node n).prog = bs :: calls) (hd : decode .hostop (s.node n).cnt bs = .ok (i, rest)) :
    step s = exec i ((s.turnOf n turns).mapNode n fun x => { x with prog := calls }) := by
  simp only [step, fetch_main hs, fetchCall_of_call (s := s.turnOf n turns) hx hb hp hd]
  rfl

/-- A call that is no operation of R101 is refused (R104 (e)). -/
theorem step_main_of_no_operation {bs : List Byte} {calls : List (List Byte)} {e : DecodeError}
    (hs : s.sched = .main n :: turns) (hx : (s.node n).ctx = .main) (hb : (s.node n).busy = .idle)
    (hp : (s.node n).prog = bs :: calls) (hd : decode .hostop (s.node n).cnt bs = .error e) :
    step s = .refused .unknownOperation := by
  simp only [step, fetch_main hs, fetchCall_of_no_operation (s := s.turnOf n turns) hx hb hp hd]

/-- With no call left its turn passes. -/
theorem step_main_of_done (hs : s.sched = .main n :: turns) (hx : (s.node n).ctx = .main)
    (hb : (s.node n).busy = .idle) (hp : (s.node n).prog = []) : step s = .next (s.turnOf n turns) := by
  simp only [step, fetch_main hs, fetchCall_of_done (s := s.turnOf n turns) hx hb hp]

section
variable {f : EnvFormat} {bs : List Byte}

/-- ENV presents a row of the table as that row's step (R14). -/
theorem step_env_of_row {i : Instr} {rest : List Byte} (hs : s.sched = .env n f bs :: turns)
    (hd : decode f.format (s.node n).cnt bs = .ok (i, rest)) : step s = exec i (s.turnOf n turns) := by
  simp only [step, fetch_env hs, fetchEnv, State.self_turnOf, hd]

/-- A code that is no row is presented all the same (R99, R143). -/
theorem step_env_of_unlisted (hs : s.sched = .env n f bs :: turns)
    (hd : decode f.format (s.node n).cnt bs = .error .unlistedEvent) :
    step s = .next (envEvent (bs.getD 0 0) (bs.getD 1 0) (s.turnOf n turns)) := by
  simp only [step, fetch_env hs, fetchEnv, State.self_turnOf, hd]

theorem step_env_of_readDirection (hs : s.sched = .env n f bs :: turns)
    (hd : decode f.format (s.node n).cnt bs = .error .readDirection) : step s = .refused .readDirection := by
  simp only [step, fetch_env hs, fetchEnv, State.self_turnOf, hd]

theorem step_env_of_truncated (hs : s.sched = .env n f bs :: turns)
    (hd : decode f.format (s.node n).cnt bs = .error .truncated) : step s = .next (s.turnOf n turns) := by
  simp only [step, fetch_env hs, fetchEnv, State.self_turnOf, hd]

end

theorem step_inject {c d : Byte} (hs : s.sched = .inject n c d :: turns) :
    step s = .next (envEvent c d (s.turnOf n turns)) := by
  simp only [step, fetch, hs, Turn.node, State.turnOf]

theorem step_foreign (hs : s.sched = .foreign n :: turns) : step s = .next (foreignGoesOn (s.turnOf n turns)) := by
  simp only [step, fetch, hs, Turn.node, State.turnOf]

end

/-! ## Bytes that are no operation (R104, R99) -/

/-- R101's selectors are 0x01 to 0x18. -/
theorem decode_hostop_of_no_selector (cnt : BitVec 3) {op : Byte} (rest : List Byte)
    (h : op.toNat = 0 ∨ 0x18 < op.toNat) : decode .hostop cnt (op :: rest) = .error .unknownOperation := by
  simp only [decode, decodeHostop, decodeSelector]
  split
  case h_25 => rfl
  all_goals omega

theorem toNat_ne_of_not_event {c : Byte} (h : c ∉ Config.eventCodes) {k : Nat}
    (hk : BitVec.ofNat 8 k ∈ Config.eventCodes) : c.toNat ≠ k := by
  rintro rfl
  exact h (by simpa using hk)

/-- A code that is no row of the table is unlisted, whatever follows it (R99). -/
theorem decode_evt_of_unlisted (cnt : BitVec 3) {c : Byte} (rest : List Byte) (h : c ∉ Config.eventCodes)
    (ht : c ≠ Config.evTimeout) : decode .evt cnt (c :: rest) = .error .unlistedEvent := by
  simp only [decode, decodeEvt, decodeEvent]
  split
  case h_17 => exact if_neg ht
  all_goals exact absurd ‹_› (toNat_ne_of_not_event h (by decide))

theorem isDataRx_of_not_event {c : Byte} (h : c ∉ Config.eventCodes) : isDataRx c = false := by
  rw [Bool.eq_false_iff]
  intro hd
  have hmem : c = 0x80 ∨ c = 0x90 ∨ c = 0x88 ∨ c = 0x98 := by
    simpa [isDataRx, isDataRxAck, isDataRxNack, or_assoc] using hd
  rcases hmem with rfl | rfl | rfl | rfl <;> exact h (by decide)

/-- The read bit refuses a FRAME (R104 (d)). -/
theorem decode_frame_of_readBit (cnt : BitVec 3) {a : Byte} (b0 b1 b2 b3 : Byte) (rest : List Byte)
    (h : a.getLsbD 0 = true) : decode .frame cnt (a :: b0 :: b1 :: b2 :: b3 :: rest) = .error .readDirection := by
  simp only [decode, decodeFrame, h, if_true]

/-- A listening peripheral latches what ENV presents (R143). -/
theorem envEvent_of_listening {s : State} (c d : Byte) (hc : s.comp = .openBus) (hr : s.self.role = .peripheral)
    (he : s.self.pEvt = none) :
    envEvent c d s = s.mapSelf fun n => { n with pEvt := some c, pDr := if isDataRx c then d else n.pDr } := by
  simp [envEvent, hc, hr, he]

/-- A code of no row leaves P_DR as it is. -/
theorem envEvent_of_listening_unlisted {s : State} {c : Byte} (d : Byte) (h : c ∉ Config.eventCodes)
    (hc : s.comp = .openBus) (hr : s.self.role = .peripheral) (he : s.self.pEvt = none) :
    envEvent c d s = s.mapSelf fun n => { n with pEvt := some c } := by
  simp [envEvent_of_listening c d hc hr he, isDataRx_of_not_event h]

/-! ## Waits that are over (R131, R134) -/

/-- A phase puts exactly one symbol on WIRE (R52, R120). -/
theorem controllerPhase_wire {s t : State} (h : controllerPhase s = some t) : ∃ y, t.wire = s.wire ++ [y] := by
  obtain ⟨k, rep, r, u, -, hu, rfl⟩ | ⟨k, r, u, -, hu, rfl⟩ | ⟨k, b, r, u, -, hu, rfl⟩ | ⟨r, u, -, hu, rfl⟩ :=
    controllerPhase_eq_some h
  · rcases busStart_eq_some hu with ⟨-, -, -, rfl⟩ | ⟨-, rs, -, rfl⟩ <;> simp
  · rcases busAddress_eq_some hu with ⟨-, -, -, rfl⟩ | ⟨-, rs, -, rfl⟩ <;> simp
  · rcases busData_eq_some hu with ⟨-, -, -, rfl⟩ | ⟨-, rs, -, rfl⟩ <;> simp
  · rcases busStop_eq_some hu with ⟨-, -, rfl⟩ | ⟨-, rfl⟩ <;> simp

theorem resume_ne_of_phase {s t : State} (h : controllerPhase s = some t) : resume s ≠ s := by
  obtain ⟨y, hy⟩ := controllerPhase_wire h
  rw [resume_of_phase h]
  rintro rfl
  simp at hy

/-- The main program stands before a phase of a controller's operation. -/
def Busy.atPhase : Busy → Bool
  | .atStart _ _ | .atAddress _ | .atData _ _ | .atStop _ => true
  | .idle | .readByte | .pollEvent _ | .recvAddress | .recvAddressExpired | .recvData | .recvDataExpired => false

/-- Where a controller's wait is over its next phase can begin (R134, R120). -/
theorem controllerPhase_of_waitOver {s : State} (hp : s.self.busy.atPhase = true) (hw : s.waitOver s.cur = true) :
    ∃ t, controllerPhase s = some t := by
  have hself : s.node s.cur = s.self := rfl
  have hpeer : s.node s.cur.other = s.peer := rfl
  simp only [State.waitOver, hself, hpeer] at hw
  cases hc : s.comp with
  | closed =>
    cases hb : s.self.busy <;> simp only [hb, hc, Busy.atPhase, reduceCtorEq, Bool.not_eq_true'] at hw hp
    case atStart => exact ⟨_, controllerPhase_start_closed hb hc hw⟩
    case atAddress => exact ⟨_, controllerPhase_address_closed hb hc hw⟩
    case atData => exact ⟨_, controllerPhase_data_closed hb hc hw⟩
    case atStop => exact ⟨_, controllerPhase_stop_closed hb hc hw⟩
  | openBus =>
    cases hb : s.self.busy <;> simp only [hb, hc, Busy.atPhase, reduceCtorEq, Bool.not_eq_true', List.isEmpty_eq_false_iff,
      List.ne_nil_iff_exists_cons] at hw hp
    case atStart => obtain ⟨r, rs, ha⟩ := hw; exact ⟨_, controllerPhase_start_open hb hc ha⟩
    case atAddress => obtain ⟨r, rs, ha⟩ := hw; exact ⟨_, controllerPhase_address_open hb hc ha⟩
    case atData => obtain ⟨r, rs, ha⟩ := hw; exact ⟨_, controllerPhase_data_open hb hc ha⟩
    case atStop => exact ⟨_, controllerPhase_stop_open hb hc⟩

theorem controllerPhase_of_not_atPhase {s : State} (hp : s.self.busy.atPhase = false) : controllerPhase s = none :=
  controllerPhase_eq_none fun t rep b r => by
    refine ⟨?_, ?_, ?_, ?_⟩ <;> (intro h; simp [h, Busy.atPhase] at hp)

/-- Stage 1 leaves nothing latched. -/
theorem pEvt_recvAddressOn (c : Byte) (n : Node) : (recvAddressOn c n).pEvt = none := by
  unfold recvAddressOn recvAddressOnAt
  split
  · rfl
  · split <;> rfl

/-- Stage 2 leaves nothing latched. -/
theorem pEvt_recvDataOn (c : Byte) (n : Node) : (recvDataOn c n).pEvt = none := by
  unfold recvDataOn
  split
  · dsimp only
    split <;> rfl
  · rfl

/-- A peripheral's wait that is over changes the node. -/
theorem afterExpiry_ne_of_waitOver {s : State} (hp : s.self.busy.atPhase = false) (hw : s.waitOver s.cur = true) :
    afterExpiry s.self ≠ s.self := by
  have hself : s.node s.cur = s.self := rfl
  simp only [State.waitOver, hself] at hw
  generalize s.self = n at hw hp
  intro h
  cases hb : n.busy <;> simp only [hb, Busy.atPhase, reduceCtorEq, Option.isSome_iff_exists] at hw hp
  case recvAddressExpired =>
    have hbusy := congrArg Node.busy h
    simp only [afterExpiry, hb, recvAddressOn, recvAddressOnAt_evTimeout] at hbusy
    split at hbusy <;> cases hbusy
  case recvDataExpired =>
    have hbusy := congrArg Node.busy h
    simp [afterExpiry, hb, recvDataOn_evTimeout] at hbusy
  all_goals obtain ⟨c, hc⟩ := hw
  case readByte | pollEvent =>
    have hbusy := congrArg Node.busy h
    simp [afterExpiry, observe, hb, hc] at hbusy
  case recvAddress =>
    have hevt := congrArg Node.pEvt h
    simp [afterExpiry, observe, hb, hc, pEvt_recvAddressOn] at hevt
  case recvData =>
    have hevt := congrArg Node.pEvt h
    simp [afterExpiry, observe, hb, hc, pEvt_recvDataOn] at hevt

theorem self_resume_of_no_phase {s : State} (h : controllerPhase s = none) : (resume s).self = afterExpiry s.self := by
  rw [resume, nextPhase_of_none h, State.self_mapSelf]

/-- No enabled wait spins. -/
theorem resume_ne_of_waitOver {s : State} (hw : s.waitOver s.cur = true) : resume s ≠ s := by
  cases hp : s.self.busy.atPhase with
  | true =>
    obtain ⟨t, ht⟩ := controllerPhase_of_waitOver hp hw
    exact resume_ne_of_phase ht
  | false =>
    intro h
    apply afterExpiry_ne_of_waitOver hp hw
    rw [← self_resume_of_no_phase (controllerPhase_of_not_atPhase hp), h]

/-! ## Fair executions (R16) -/

/-- A main program that takes its turn inside an operation goes on with it. -/
theorem Execution.state_succ_of_inside (e : Execution) {n : NodeId} {j : Nat} (ht : e.turn j = .main n)
    (hx : ((e.state j).node n).ctx = .main) (hb : ((e.state j).node n).busy ≠ .idle) :
    e.state (j + 1) = resume { e.state j with sched := [], cur := n } := by
  have hrun := e.runs j
  have hstep : step { e.state j with sched := [e.turn j] } = .next (resume { e.state j with sched := [], cur := n }) :=
    step_main_of_inside (n := n) (turns := []) (by rw [ht]) hx hb
  rw [hrun] at hstep
  exact Host.Outcome.next.inj hstep

/-- A node that is inside an operation leaves it at some step, or stays inside it for ever. -/
theorem Execution.leaves_or_stays (e : Execution) {n : NodeId} {k : Nat} {b : Busy}
    (hk : ((e.state k).node n).busy = b) :
    (∃ j, k ≤ j ∧ ((e.state j).node n).busy = b ∧ ((e.state (j + 1)).node n).busy ≠ b) ∨
      ∀ j, k ≤ j → ((e.state j).node n).busy = b := by
  by_cases hleave : ∃ j, k ≤ j ∧ ((e.state j).node n).busy = b ∧ ((e.state (j + 1)).node n).busy ≠ b
  · exact .inl hleave
  · push Not at hleave
    exact .inr fun j hj => Nat.le_induction hk (fun i hi hbi => hleave i hi hbi) j hj

end Sys2Proof.Machine

namespace Sys2Proof.Proofs

open Sys2Proof Sys2Proof.Machine

/-- Settles O19: bit by bit, the lane written and every other lane. -/
theorem laneStoreReplacesOneLane : Obligations.LaneStoreReplacesOneLane := by
  intro w b i j hi hj
  split
  case isTrue hji => rw [hji, lane_setLane_same w b hi]
  case isFalse hji => exact lane_setLane_ne w b hj hji

/-- Settles O56: `is_valid`'s three tests, each an equivalence or a congruence. -/
theorem validityOfEveryWord : Obligations.ValidityOfEveryWord := by
  refine ⟨fun fm m => ?_, fun m s => ⟨rfl, rfl⟩, Config.flagMap_distinct, fun fm m k h hbit hpar =>
    isValidAt_congr fm h hbit hpar, fun fm => ⟨?_, ?_, ?_, ?_⟩⟩
  · rw [isValidAt_iff, conflict_eq_false_iff, soundWithoutAux_eq_false_iff]
    simp only [flagAt, auxOf, and_assoc]
  · exact (isValidAt_of_no_flags fm (by decide)).trans (by decide)
  · exact (isValidAt_of_no_flags fm (by decide)).trans (by decide)
  · exact isValidAt_of_wrong_parity fm (by decide)
  · exact (isValidAt_of_no_flags fm (by decide)).trans (by decide)

/-- Settles O40: a phase puts a symbol on WIRE and a served wait changes its node; and where the node never leaves
the operation, fairness gives its main program a turn. -/
theorem fairExecutionsEndTheirWaits : Obligations.FairExecutionsEndTheirWaits := by
  refine ⟨fun s hw => resume_ne_of_waitOver hw, fun e n k b hfair hmain hb hk hwait => ?_⟩
  rcases e.leaves_or_stays hk with ⟨j, hj, hbj, hleft⟩ | hstays
  · exact ⟨j, hj, hbj, .inr hleft⟩
  · obtain ⟨j, hj, hturn | hover⟩ := hfair.waits n k
    · have hbj := hstays j hj
      exact ⟨j, hj, hbj, .inl ⟨hturn, e.state_succ_of_inside hturn (hmain j) (hbj ▸ hb)⟩⟩
    · rw [hwait j hj (hstays j hj)] at hover
      cases hover

/-- Settles O13: a main program's turn, case by case of its fetch. -/
theorem stepRunsTheMainProgramsNextCall : Obligations.StepRunsTheMainProgramsNextCall := by
  intro s n turns hs hx
  refine ⟨fun hb => ⟨fun bs calls hp => ⟨fun i rest hd => ?call, fun e hd => ?noOperation, ?noSelector⟩, fun hp => ?done⟩,
    fun hb => ?inside⟩
  case call => exact step_main_of_call hs hx hb hp hd
  case noOperation => exact step_main_of_no_operation hs hx hb hp hd
  case noSelector =>
    rintro op rest rfl hop
    exact step_main_of_no_operation hs hx hb hp (decode_hostop_of_no_selector _ rest hop)
  case done => exact step_main_of_done hs hx hb hp
  case inside => exact step_main_of_inside hs hx hb

/-- Settles O16: the cases of ENV's fetch, and the two turns without bytes. -/
theorem stepPresentsWhatEnvGives : Obligations.StepPresentsWhatEnvGives := by
  intro s n turns
  refine ⟨fun f bs hs => ⟨fun i rest hd => ?row, ?unlisted, ?readBit, fun hd => ?truncated⟩, fun c d hs => ?inject,
    fun hs => ?foreign⟩
  case row => exact step_env_of_row hs hd
  case unlisted =>
    rintro c d rest rfl rfl hc ht ho hr he
    rw [step_env_of_unlisted hs (decode_evt_of_unlisted _ _ hc ht)]
    exact congrArg _ (envEvent_of_listening_unlisted (s := s.turnOf n turns) d hc ho hr he)
  case readBit =>
    rintro a b0 b1 b2 b3 rest rfl rfl ha
    exact step_env_of_readDirection hs (decode_frame_of_readBit _ b0 b1 b2 b3 rest ha)
  case truncated => exact step_env_of_truncated hs hd
  case inject => exact step_inject hs
  case foreign => exact step_foreign hs

end Sys2Proof.Proofs
end

section
/-! SUPPORT. The family 10_state.md: what every step leaves of CBLOG and of the nodes' roles, which test stands
before each host operation with a role, and the values of the pure functions; and the four statements, assembled
from these. -/

namespace Sys2Proof.Machine

/-! ## What a turn leaves of the state (R14, R71) -/

theorem NodeId.forall_of_self_of_other {P : NodeId → Prop} (cur : NodeId) (hself : P cur) (hother : P cur.other) :
    ∀ n, P n := by
  intro n
  cases cur <;> cases n <;> assumption

/-- Taking the turn changes a node's calls only. -/
theorem Turned.node {s u : State} (h : Turned s u) (n : NodeId) : ∃ p, u.node n = { s.node n with prog := p } := by
  obtain ⟨pa, pb, sc, c, rfl⟩ := h
  cases n
  · exact ⟨pa, rfl⟩
  · exact ⟨pb, rfl⟩

theorem Turned.cblog {s u : State} (h : Turned s u) : u.cblog = s.cblog := by
  obtain ⟨pa, pb, sc, c, rfl⟩ := h
  rfl

/-! ## CBLOG (R53) -/

theorem cblog_resume (s : State) : (resume s).cblog = s.cblog := by
  rw [resume, State.cblog_mapSelf, (nextPhase_frame s).cblog]

theorem cblog_envEvent (c d : Byte) (s : State) : (envEvent c d s).cblog = s.cblog := by
  rcases envEvent_cases c d s with h | ⟨-, h⟩ | ⟨-, -, h⟩
  · rw [h]
  · rw [h, State.cblog_mapSelf]
  · rw [h, State.cblog_mapSelf]

/-- A callback was invoked on the way from `s` to `t`: CBLOG has one entry more, the message just completed at the
moving node, which has a callback registered (R184, R185, R196). -/
structure CalledBack (s t : State) : Prop where
  cblog : t.cblog = s.cblog ++ [t.self.acc]
  fired : t.self.fired = true
  cb : t.self.cb.isSome = true

/-- Only a handler run calls back; no other operation writes CBLOG (R196). -/
theorem Effect.cblog_or_calledBack {i : Instr} {s t : State} (h : Effect i s t) :
    t.cblog = s.cblog ∨ i.format = .irq ∧ CalledBack s t := by
  cases h
  case callsBack hf he hn hcb d r => exact .inr ⟨hf, by simp, by simp, by simpa using hcb⟩
  case stopCallsBack hf he hn hfd hcb d r => exact .inr ⟨hf, by simp, by simp, by simpa using hcb⟩
  case starts | writes | ends => exact .inl ((nextPhase_frame _).cblog.trans (s.cblog_mapSelf _))
  case event c d hc => exact .inl (cblog_envEvent c d s)
  case begins phs => exact .inl (foreignBegins_frame phs s).cblog
  case masked => exact .inl rfl
  all_goals exact .inl (s.cblog_mapSelf _)

/-- A step writes CBLOG only where an interrupt context's turn called back. -/
theorem step_cblog {s t : State} (h : step s = .next t) :
    t.cblog = s.cblog ∨ CalledBack s t ∧ ∃ n rest, s.sched = .irq n :: rest := by
  obtain ⟨u, hu, ⟨i, hexec, hirq, -⟩ | rfl | ⟨c, d, rfl, -⟩ | rfl | rfl⟩ := step_cases h
  · rcases (exec_effect hexec).cblog_or_calledBack with hsame | ⟨hf, hcb⟩
    · exact .inl (hsame.trans hu.cblog)
    · exact .inr ⟨⟨hu.cblog ▸ hcb.cblog, hcb.fired, hcb.cb⟩, hirq hf⟩
  · exact .inl ((cblog_resume u).trans hu.cblog)
  · exact .inl ((cblog_envEvent c d u).trans hu.cblog)
  · exact .inl ((foreignGoesOn_frame u).cblog.trans hu.cblog)
  · exact .inl hu.cblog

/-! ## Roles (R21, R233) -/

theorem Reaction.role {n n' : Node} (h : Reaction n n') : n'.role = n.role := by
  obtain ⟨ps, gc, dr, e, rfl, -⟩ := h
  rfl

theorem Sequenced.role {n n' : Node} (h : Sequenced n n') : n'.role = n.role := by
  obtain ⟨cs, co, ci, bu, re, an, rfl⟩ := h
  rfl

theorem Waited.role {n n' : Node} (h : Waited n n') : n'.role = n.role := by
  obtain ⟨ak, e, pi, pa, bu, re, rfl, -⟩ := h
  rfl

theorem Role.eq_controller_of_ne {r : Role} (hn : r ≠ .none) (hp : r ≠ .peripheral) : r = .controller := by
  cases r
  case controller => rfl
  all_goals contradiction

theorem Role.eq_peripheral_of_ne {r : Role} (hn : r ≠ .none) (hc : r ≠ .controller) : r = .peripheral := by
  cases r
  case peripheral => rfl
  all_goals contradiction

/-- Every node that has a role in `s` has the same one in `t`. -/
def RolesKept (s t : State) : Prop := ∀ n, (s.node n).role ≠ .none → (t.node n).role = (s.node n).role

theorem RolesKept.refl (s : State) : RolesKept s s := fun _ _ => rfl

theorem RolesKept.trans {s t u : State} (h : RolesKept s t) (h' : RolesKept t u) : RolesKept s u := fun n hn => by
  have hst := h n hn
  rw [h' n (hst ▸ hn), hst]

theorem rolesKept_of_self_of_peer {s t : State} (hcur : t.cur = s.cur)
    (hself : s.self.role ≠ .none → t.self.role = s.self.role) (hpeer : t.peer.role = s.peer.role) : RolesKept s t := by
  simp only [State.self, State.peer, hcur] at hself hpeer
  exact NodeId.forall_of_self_of_other s.cur hself fun _ => hpeer

/-- A change of the moving node keeps the roles where it keeps that node's. -/
theorem rolesKept_mapSelf {s : State} {f : Node → Node} (h : s.self.role ≠ .none → (f s.self).role = s.self.role) :
    RolesKept s (s.mapSelf f) :=
  rolesKept_of_self_of_peer (s.cur_mapSelf f) (by simpa using h) (by simp)

theorem rolesKept_emitCb (s : State) (m : Word) : RolesKept s (s.emitCb m) := fun n _ => by
  rw [State.node_emitCb]

theorem Turned.rolesKept {s u : State} (h : Turned s u) : RolesKept s u := fun n _ => by
  obtain ⟨p, hp⟩ := h.node n
  rw [hp]

theorem PhaseFrame.rolesKept {s t : State} (h : PhaseFrame s t) : RolesKept s t :=
  rolesKept_of_self_of_peer h.cur (fun _ => h.self.role) h.peer.role

theorem ForeignFrame.rolesKept {s t : State} (h : ForeignFrame s t) : RolesKept s t := by
  obtain ⟨ph, hreact⟩ := h.self
  exact rolesKept_of_self_of_peer h.cur (fun _ => hreact.role) (by rw [h.peer])

theorem resume_rolesKept (s : State) : RolesKept s (resume s) :=
  (nextPhase_frame s).rolesKept.trans (rolesKept_mapSelf fun _ => (afterExpiry_waited _).role)

theorem envEvent_rolesKept (c d : Byte) (s : State) : RolesKept s (envEvent c d s) := by
  rcases envEvent_cases c d s with h | ⟨-, h⟩ | ⟨-, -, h⟩
  · rw [h]; exact .refl s
  · rw [h]; exact rolesKept_mapSelf fun _ => rfl
  · rw [h]; exact rolesKept_mapSelf fun _ => rfl

/-- Link Configuration gives a role, and refuses to give another (R233); no other operation writes ROLE. -/
theorem Effect.rolesKept {i : Instr} {s t : State} (h : Effect i s t) : RolesKept s t := by
  cases h
  case initController hf hz hx hr ho =>
    exact rolesKept_mapSelf fun hn => by rw [Role.eq_controller_of_ne hn hr, Node.role_returns]
  case initPeripheral a hi hx hs hr =>
    exact rolesKept_mapSelf fun hn => by
      rw [Role.eq_peripheral_of_ne hn hr, Node.role_returns, Node.role_resetAssembly]
  case returns | takes | setsIE | enables | disables | rearms => exact rolesKept_mapSelf fun _ => by simp
  case starts => exact (rolesKept_mapSelf fun _ => by rfl).trans (nextPhase_frame _).rolesKept
  case writes => exact (rolesKept_mapSelf fun _ => by rfl).trans (nextPhase_frame _).rolesKept
  case ends => exact (rolesKept_mapSelf fun _ => (endWith_sequenced _ _).role).trans (nextPhase_frame _).rolesKept
  case readsByte | polls | receives => exact rolesKept_mapSelf fun _ => (observe_waited _).role
  case event c d hc => exact envEvent_rolesKept c d s
  case expires => exact rolesKept_mapSelf fun _ => (expire_waited _).role
  case begins phs => exact (foreignBegins_frame phs s).rolesKept
  case masked => exact .refl s
  case callsBack | stopCallsBack => exact (rolesKept_emitCb s _).trans (rolesKept_mapSelf fun _ => rfl)
  case resets | stores | completes | stopCompletes | ignores => exact rolesKept_mapSelf fun _ => rfl

theorem step_rolesKept {s t : State} (h : step s = .next t) : RolesKept s t := by
  obtain ⟨u, hu, ⟨i, hexec, -⟩ | rfl | ⟨c, d, rfl, -⟩ | rfl | rfl⟩ := step_cases h
  · exact hu.rolesKept.trans (exec_effect hexec).rolesKept
  · exact hu.rolesKept.trans (resume_rolesKept u)
  · exact hu.rolesKept.trans (envEvent_rolesKept c d u)
  · exact hu.rolesKept.trans (foreignGoesOn_frame u).rolesKept
  · exact hu.rolesKept

/-! ## Which test stands before a call (R247, R253) -/

/-- The test before `read_byte`: as controller the read direction (R124), else a polling operation's. -/
def refusedReadByte (n : Node) : Option Refusal :=
  if n.role = .controller ∧ n.ctx = .main then some .readDirection else refusedPolling n

/-- The test of role, context and interrupt that stands before each call; the initialisations, the pure functions
and what is no host operation have none. `exec_of_callCheck` ties it to `exec`. -/
def callCheck : Instr → Node → Option Refusal
  | .beginAsController _ | .writeByte _ | .endTransaction | .send _ => refusedController
  | .rearm _ | .messageReady | .takeMessage => refusedPeripheral
  | .enableAsync _ | .disableAsync | .irqDisable | .irqRestore _ => refusedPeripheralMain
  | .pollEvent _ | .receiveBlocking => refusedPolling
  | .readByte _ => refusedReadByte
  | _ => fun _ => none

theorem unlessRefused_of_some {o : Option Refusal} {r : Refusal} (h : o = some r) (k : Out) :
    unlessRefused o k = .refused r := by
  rw [h, unlessRefused_some]

theorem execReadByte_eq (ack : Bool) (s : State) :
    execReadByte ack s =
      unlessRefused (refusedReadByte s.self)
        (.next (s.mapSelf fun n => observe { n.rearm ack with busy := .readByte })) := by
  unfold execReadByte refusedReadByte
  split <;> rfl

/-- A call whose test fails is refused for the test's reason. -/
theorem exec_of_callCheck {i : Instr} {s : State} {r : Refusal} (h : callCheck i s.self = some r) :
    exec i s = .refused r := by
  cases i
  case readByte ack => exact (execReadByte_eq ack s).trans (unlessRefused_of_some h _)
  case beginAsController | writeByte | endTransaction | send | rearm | messageReady | takeMessage | enableAsync
    | disableAsync | irqDisable | irqRestore | pollEvent | receiveBlocking => exact unlessRefused_of_some h _
  all_goals cases h

/-! ### The tests, by the node's role -/

section
variable {n : Node}

theorem refusedController_of_unconfigured (h : n.role = .none) : refusedController n = some .notConfigured := by
  simp [refusedController, h]

theorem refusedPeripheral_of_unconfigured (h : n.role = .none) : refusedPeripheral n = some .notConfigured := by
  simp [refusedPeripheral, h]

theorem refusedPeripheralMain_of_unconfigured (h : n.role = .none) :
    refusedPeripheralMain n = some .notConfigured := by
  simp [refusedPeripheralMain, h]

theorem refusedPolling_of_main {r : Refusal} (h : refusedPeripheralMain n = some r) : refusedPolling n = some r := by
  simp [refusedPolling, h]

theorem refusedReadByte_of_not_controller (h : n.role ≠ .controller) : refusedReadByte n = refusedPolling n := by
  simp [refusedReadByte, h]

/-- On an unconfigured node every call but the initialisations and the pure functions has a test, and it fails
(R51). -/
theorem callCheck_of_unconfigured {i : Instr} (h : n.role = .none) (hf : i.format = .hostop)
    (hv : pureValue i = none) (hctl : ∀ hz, i ≠ .initController hz) (hper : ∀ a, i ≠ .initPeripheral a) :
    callCheck i n = some .notConfigured := by
  have hmain := refusedPeripheralMain_of_unconfigured h
  cases i
  case initController hz => exact absurd rfl (hctl hz)
  case initPeripheral a => exact absurd rfl (hper a)
  case beginAsController | writeByte | endTransaction | send => exact refusedController_of_unconfigured h
  case rearm | messageReady | takeMessage => exact refusedPeripheral_of_unconfigured h
  case enableAsync | disableAsync | irqDisable | irqRestore => exact hmain
  case pollEvent | receiveBlocking => exact refusedPolling_of_main hmain
  case readByte => exact (refusedReadByte_of_not_controller (by simp [h])).trans (refusedPolling_of_main hmain)
  case build | buildWithAux | isValid | parity31 | getFlags | getAux | hasFlag | dispatch => cases hv
  all_goals cases hf

theorem refusedPeripheral_of_canControl (h : n.CanControl) : refusedPeripheral n = some .wrongRole := by
  simp [refusedPeripheral, h.1]

theorem refusedPeripheralMain_of_canControl (h : n.CanControl) : refusedPeripheralMain n = some .wrongRole := by
  simp [refusedPeripheralMain, h.1, h.2]

theorem refusedReadByte_of_canControl (h : n.CanControl) : refusedReadByte n = some .readDirection := if_pos h

theorem refusedController_of_canServe (h : n.CanServe) : refusedController n = some .wrongRole := by
  simp [refusedController, h.1, h.2]

theorem refusedPolling_of_async (h : n.CanServe) (ha : n.asyncEn = true) : refusedPolling n = some .pollWhileAsync := by
  simp [refusedPolling, refusedPeripheralMain_eq_none.2 h, ha]

theorem refusedReadByte_of_async (h : n.CanServe) (ha : n.asyncEn = true) :
    refusedReadByte n = some .pollWhileAsync :=
  (refusedReadByte_of_not_controller (by simp [h.1])).trans (refusedPolling_of_async h ha)

end

/-- A controller may not open a read (R124). -/
theorem exec_beginAsController_read {s : State} (h : s.self.CanControl) :
    exec (.beginAsController false) s = .refused .readDirection := by
  show unlessRefused (refusedController s.self) (.refused .readDirection) = _
  rw [refusedController_eq_none.2 h, unlessRefused_none]

/-! ## The pure functions (R51, R210 to R222) -/

/-- A pure function tests nothing and hands its value back. -/
theorem exec_of_pureValue {i : Instr} {v : Result} (h : pureValue i = some v) (s : State) :
    exec i s = pureResult v s := by
  cases i
  case build | buildWithAux | isValid | parity31 | getFlags | getAux | hasFlag | dispatch => cases h; rfl
  all_goals cases h

end Sys2Proof.Machine

namespace Sys2Proof.Proofs

open Sys2Proof Sys2Proof.Machine

/-- Settles O6: the only effects that write CBLOG are the two handler branches that call back. -/
theorem onlyTheHandlerCallsBack : Obligations.OnlyTheHandlerCallsBack := by
  intro s t h
  rcases step_cblog h with hsame | ⟨hcb, hturn⟩
  · exact .inl hsame
  · exact .inr ⟨hcb.cblog, hcb.fired, hcb.cb, hturn⟩

/-- Settles O7: Link Configuration refuses to change a role, and nothing else writes ROLE. -/
theorem rolesNeverChange : Obligations.RolesNeverChange := fun _ _ n h => step_rolesKept h n

/-- Settles O51: clause by clause, the test that fails before the call. -/
theorem refusedCallsAreRefusedByName : Obligations.RefusedCallsAreRefusedByName := by
  intro s
  refine ⟨fun h i hf hv hctl hper => ?unconfigured, fun h T ack f v => ?controller, fun h w b m => ?peripheral,
    fun h ha T a => ?polling, fun h => ⟨?beginRead, fun v => ?readByte⟩, fun a => ?addrRead⟩
  case unconfigured => exact exec_of_callCheck (callCheck_of_unconfigured h hf hv hctl hper)
  case controller =>
    have hper := refusedPeripheral_of_canControl h
    have hmain := refusedPeripheralMain_of_canControl h
    have hpoll := refusedPolling_of_main hmain
    intro i hi
    apply exec_of_callCheck
    simp only [List.mem_cons, List.not_mem_nil, or_false] at hi
    rcases hi with rfl | rfl | rfl | rfl | rfl | rfl | rfl | rfl | rfl
    exacts [hpoll, hper, hpoll, hmain, hmain, hper, hper, hmain, hmain]
  case peripheral =>
    have hctl := refusedController_of_canServe h
    intro i hi
    apply exec_of_callCheck
    simp only [List.mem_cons, List.not_mem_nil, or_false] at hi
    rcases hi with rfl | rfl | rfl | rfl <;> exact hctl
  case polling =>
    have hpoll := refusedPolling_of_async h ha
    intro i hi
    apply exec_of_callCheck
    simp only [List.mem_cons, List.not_mem_nil, or_false] at hi
    rcases hi with rfl | rfl | rfl
    exacts [hpoll, refusedReadByte_of_async h ha, hpoll]
  case beginRead => exact exec_beginAsController_read h
  case readByte => exact exec_of_callCheck (refusedReadByte_of_canControl h)
  case addrRead => rfl

/-- Settles O57: each of the eight is its value handed back. -/
theorem pureFunctionsRunInEveryState : Obligations.PureFunctionsRunInEveryState :=
  fun _ _ s h => exec_of_pureValue h s

end Sys2Proof.Proofs
end

section
/-! SUPPORT. The family 20_memory.md: which operations leave the byte counter and the accumulator of both nodes as
they are; and the one statement, assembled from these. -/

namespace Sys2Proof.Machine

/-! ## CNT and ACC of one node (R73) -/

/-- `n'` has the byte counter and the accumulator of `n`. -/
structure Node.SameCntAcc (n n' : Node) : Prop where
  cnt : n'.cnt = n.cnt
  acc : n'.acc = n.acc

theorem Node.SameCntAcc.refl (n : Node) : n.SameCntAcc n := ⟨rfl, rfl⟩

theorem Node.SameCntAcc.trans {n m k : Node} (h : n.SameCntAcc m) (h' : m.SameCntAcc k) : n.SameCntAcc k :=
  ⟨h'.cnt.trans h.cnt, h'.acc.trans h.acc⟩

theorem Reaction.sameCntAcc {n n' : Node} (h : Reaction n n') : n.SameCntAcc n' := by
  obtain ⟨ps, gc, dr, e, rfl, -⟩ := h
  exact ⟨rfl, rfl⟩

theorem Sequenced.sameCntAcc {n n' : Node} (h : Sequenced n n') : n.SameCntAcc n' := by
  obtain ⟨cs, co, ci, bu, re, an, rfl⟩ := h
  exact ⟨rfl, rfl⟩

theorem Waited.sameCntAcc {n n' : Node} (h : Waited n n') : n.SameCntAcc n' := by
  obtain ⟨ak, e, pi, pa, bu, re, rfl, -⟩ := h
  exact ⟨rfl, rfl⟩

/-! ## CNT and ACC of both nodes -/

/-- Each node has the same byte counter and accumulator in `t` as in `s`. -/
def CntAccKept (s t : State) : Prop := ∀ n, (s.node n).SameCntAcc (t.node n)

theorem CntAccKept.refl (s : State) : CntAccKept s s := fun _ => .refl _

theorem CntAccKept.trans {s t u : State} (h : CntAccKept s t) (h' : CntAccKept t u) : CntAccKept s u :=
  fun n => (h n).trans (h' n)

theorem cntAccKept_of_self_of_peer {s t : State} (hcur : t.cur = s.cur) (hself : s.self.SameCntAcc t.self)
    (hpeer : s.peer.SameCntAcc t.peer) : CntAccKept s t := by
  simp only [State.self, State.peer, hcur] at hself hpeer
  exact NodeId.forall_of_self_of_other s.cur hself hpeer

/-- A change of the moving node keeps CNT and ACC where it keeps that node's. -/
theorem cntAccKept_mapSelf {s : State} {f : Node → Node} (h : s.self.SameCntAcc (f s.self)) :
    CntAccKept s (s.mapSelf f) :=
  cntAccKept_of_self_of_peer (s.cur_mapSelf f) (by rwa [State.self_mapSelf]) (by rw [State.peer_mapSelf]; exact .refl _)

theorem PhaseFrame.cntAccKept {s t : State} (h : PhaseFrame s t) : CntAccKept s t :=
  cntAccKept_of_self_of_peer h.cur h.self.sameCntAcc h.peer.sameCntAcc

/-- A controller's call puts its operation in progress, then its first phase on the bus. -/
theorem cntAccKept_nextPhase_mapSelf {s : State} {f : Node → Node} (h : Sequenced s.self (f s.self)) :
    CntAccKept s (nextPhase (s.mapSelf f)) :=
  (cntAccKept_mapSelf h.sameCntAcc).trans (nextPhase_frame _).cntAccKept

theorem resume_cntAccKept (s : State) : CntAccKept s (resume s) :=
  (nextPhase_frame s).cntAccKept.trans (cntAccKept_mapSelf (afterExpiry_waited _).sameCntAcc)

theorem envEvent_cntAccKept (c d : Byte) (s : State) : CntAccKept s (envEvent c d s) := by
  rcases envEvent_cases c d s with h | ⟨-, h⟩ | ⟨-, -, h⟩
  · rw [h]; exact .refl s
  · rw [h]; exact cntAccKept_mapSelf ⟨rfl, rfl⟩
  · rw [h]; exact cntAccKept_mapSelf ⟨rfl, rfl⟩

theorem ForeignFrame.cntAccKept {s t : State} (h : ForeignFrame s t) : CntAccKept s t := by
  obtain ⟨ph, hreact⟩ := h.self
  exact cntAccKept_of_self_of_peer h.cur ⟨hreact.sameCntAcc.cnt, hreact.sameCntAcc.acc⟩ (by rw [h.peer]; exact .refl _)

/-- Besides the handler's branches only `enable_async` and `init_peripheral` write CNT or ACC: no call, no event and
no phase of a foreign controller does (R73). -/
theorem Effect.cntAccKept {i : Instr} {s t : State} (h : Effect i s t) (hirq : i.format ≠ .irq)
    (henable : ∀ c, i ≠ .enableAsync c) (hinit : ∀ a, i ≠ .initPeripheral a) : CntAccKept s t := by
  cases h
  case initPeripheral a hi hx hs hr => exact absurd hi (hinit a)
  case enables f hi hr => exact absurd hi (henable f)
  case returns | takes | initController | setsIE | disables | rearms =>
    exact cntAccKept_mapSelf ⟨by simp, by simp⟩
  case starts => exact cntAccKept_nextPhase_mapSelf ⟨_, _, _, _, _, _, rfl⟩
  case writes => exact cntAccKept_nextPhase_mapSelf ⟨_, _, _, _, _, _, rfl⟩
  case ends => exact cntAccKept_nextPhase_mapSelf (endWith_sequenced _ _)
  case readsByte | polls | receives =>
    exact cntAccKept_mapSelf ⟨(observe_waited _).sameCntAcc.cnt, (observe_waited _).sameCntAcc.acc⟩
  case event c d hc => exact envEvent_cntAccKept c d s
  case expires => exact cntAccKept_mapSelf (expire_waited _).sameCntAcc
  case begins phs => exact (foreignBegins_frame phs s).cntAccKept
  case masked | resets | stores | completes | callsBack | stopCompletes | stopCallsBack | ignores => contradiction

end Sys2Proof.Machine

namespace Sys2Proof.Proofs

open Sys2Proof Sys2Proof.Machine

/-- Settles O8: the effects of the host operations left, and a main program going on, keep CNT and ACC. -/
theorem mainContextNeverWritesTheAssembly : Obligations.MainContextNeverWritesTheAssembly := by
  refine ⟨fun i s t hf henable hinit h n => ?call, fun s n => ?goesOn⟩
  case call =>
    have hirq : i.format ≠ .irq := by rw [hf]; decide
    have hkept := (exec_effect h).cntAccKept hirq henable hinit n
    exact ⟨hkept.cnt, hkept.acc⟩
  case goesOn => exact ⟨(resume_cntAccKept s n).cnt, (resume_cntAccKept s n).acc⟩

end Sys2Proof.Proofs
end

section
/-! SUPPORT. The family 30_encoding.md, what every step keeps of a node: what a property of both nodes needs to be kept
by every step; the Receive Assembly's invariant, the sequencer's registers and the code never latched, each over the
effects; and the statement on the whole invariant, assembled from these. -/

namespace Sys2Proof.Machine

/-! ## Properties of both nodes -/

/-- Each node of the system has the property. -/
def State.Both (P : Node → Prop) (s : State) : Prop := ∀ n, P (s.node n)

section
variable {P : Node → Prop} {s t u : State}

theorem State.Both.self (h : s.Both P) : P s.self := h s.cur

theorem State.Both.peer (h : s.Both P) : P s.peer := h s.cur.other

theorem State.both_of_self_of_peer (hself : P s.self) (hpeer : P s.peer) : s.Both P :=
  NodeId.forall_of_self_of_other s.cur hself hpeer

theorem State.Both.mapSelf {f : Node → Node} (h : s.Both P) (hf : P (f s.self)) : (s.mapSelf f).Both P :=
  both_of_self_of_peer (by rwa [State.self_mapSelf]) (by rw [State.peer_mapSelf]; exact h.peer)

theorem State.Both.emitCb (h : s.Both P) (m : Word) : (s.emitCb m).Both P := fun n => by
  rw [State.node_emitCb]; exact h n

/-- What a property of a node needs for every step that is no operation of its own to keep it: a call taken off
the program, ENV's answers and foreign phases, the peripheral FSM's reactions, a controller's phases, the waits. -/
structure KeptByTurns (P : Node → Prop) : Prop where
  calls : ∀ {n : Node} (p : List (List Byte)), P n → P { n with prog := p }
  answers : ∀ {n : Node} (an : List Byte), P n → P { n with answers := an }
  pending : ∀ {n : Node} (ph : List Phase), P n → P { n with foreign := ph }
  reaction : ∀ {n n' : Node}, Reaction n n' → P n → P n'
  phase : ∀ {s t : State}, controllerPhase s = some t → P s.self → P t.self
  wait : ∀ {n : Node}, P n → P (afterExpiry n)

/-- The property is kept where code `c` is latched. -/
def KeptByLatching (P : Node → Prop) (c : Byte) : Prop :=
  ∀ (n : Node) (b : Byte), P n → P { n with pEvt := some c, pDr := b }

section
variable (hP : KeptByTurns P)
include hP

theorem Turned.both (hu : Turned s u) (h : s.Both P) : u.Both P := fun n => by
  obtain ⟨p, hp⟩ := hu.node n
  rw [hp]
  exact hP.calls p (h n)

theorem nextPhase_both (h : s.Both P) : (nextPhase s).Both P := by
  rcases nextPhase_cases s with ⟨-, he⟩ | hsome
  · rwa [he]
  · exact State.both_of_self_of_peer (hP.phase hsome h.self) (hP.reaction (nextPhase_frame s).peer h.peer)

theorem resume_both (h : s.Both P) : (resume s).Both P :=
  have hnext := nextPhase_both hP h
  hnext.mapSelf (hP.wait hnext.self)

theorem ForeignFrame.both (ht : ForeignFrame s t) (h : s.Both P) : t.Both P := by
  obtain ⟨ph, hreact⟩ := ht.self
  exact State.both_of_self_of_peer (hP.reaction hreact (hP.pending ph h.self)) (ht.peer ▸ h.peer)

theorem envEvent_both {c : Byte} (hc : KeptByLatching P c) (d : Byte) (h : s.Both P) : (envEvent c d s).Both P := by
  rcases envEvent_cases c d s with he | ⟨-, he⟩ | ⟨-, -, he⟩ <;> rw [he]
  · exact h
  · exact h.mapSelf (hP.answers _ h.self)
  · exact h.mapSelf (hc _ _ h.self)

/-- A step keeps a property of both nodes where its operation does and ENV's code may be latched. -/
theorem step_both (h : s.Both P)
    (hexec : ∀ i u, Effect i u t → (i.format = .hostop → u.self.busy = .idle) → u.Both P → t.Both P)
    (hevent : ∀ c d, (c = Config.evTimeout → ∃ n rest, s.sched = .inject n c d :: rest) → KeptByLatching P c)
    (hstep : step s = .next t) : t.Both P := by
  obtain ⟨u, hu, ⟨i, hi, -, hbusy⟩ | rfl | ⟨c, d, rfl, hc⟩ | rfl | rfl⟩ := step_cases hstep
  · exact hexec i u (exec_effect hi) (fun hf => (hbusy hf).1) (hu.both hP h)
  · exact resume_both hP (hu.both hP h)
  · exact envEvent_both hP (hevent c d hc) d (hu.both hP h)
  · exact (foreignGoesOn_frame u).both hP (hu.both hP h)
  · exact hu.both hP h

end

end

/-! ## The Receive Assembly (R189) -/

/-- The registers the assembly invariant reads. -/
def Node.assemblyRegs (n : Node) : BitVec 3 × Word × Bool × Bool := (n.cnt, n.acc, n.done, n.fired)

section
variable {n n' : Node}

theorem Node.AssemblyInv.congr (h : n.AssemblyInv) (he : n'.assemblyRegs = n.assemblyRegs) : n'.AssemblyInv := by
  simp only [Node.assemblyRegs, Prod.mk.injEq] at he
  obtain ⟨hcnt, hacc, hdone, hfired⟩ := he
  exact ⟨hcnt ▸ h.cnt_le, hcnt ▸ hacc ▸ h.lanes_zero, hdone ▸ hfired ▸ h.done_fired, hcnt ▸ hfired ▸ h.full_fired,
    hfired ▸ hcnt ▸ h.fired_cnt⟩

theorem Reaction.assemblyRegs (h : Reaction n n') : n'.assemblyRegs = n.assemblyRegs := by
  obtain ⟨ps, gc, dr, e, rfl, -⟩ := h
  rfl

theorem Sequenced.assemblyRegs (h : Sequenced n n') : n'.assemblyRegs = n.assemblyRegs := by
  obtain ⟨cs, co, ci, bu, re, an, rfl⟩ := h
  rfl

theorem Waited.assemblyRegs (h : Waited n n') : n'.assemblyRegs = n.assemblyRegs := by
  obtain ⟨ak, e, pi, pa, bu, re, rfl, -⟩ := h
  rfl

theorem assemblyInv_keptByTurns : KeptByTurns Node.AssemblyInv where
  calls _ h := h.congr rfl
  answers _ h := h.congr rfl
  pending _ h := h.congr rfl
  reaction hr h := h.congr hr.assemblyRegs
  phase hp h := h.congr (controllerPhase_frame hp).self.assemblyRegs
  wait h := h.congr (afterExpiry_waited _).assemblyRegs

/-- An empty assembly (R181, R190, R231). -/
theorem assemblyInv_of_empty (h : n.assemblyRegs = (0, 0, false, false)) : n.AssemblyInv := by
  simp only [Node.assemblyRegs, Prod.mk.injEq] at h
  obtain ⟨hcnt, hacc, hdone, hfired⟩ := h
  constructor <;> simp [hcnt, hacc, hdone, hfired]

/-- DONE may be cleared anywhere and set where FIRED is (R193). -/
theorem Node.AssemblyInv.done {d : Bool} (h : n.AssemblyInv) (hd : d = true → n.fired = true) :
    { n with done := d }.AssemblyInv :=
  ⟨h.cnt_le, h.lanes_zero, hd, h.full_fired, h.fired_cnt⟩

/-- The counter's increment below 4 does not wrap. -/
theorem toNat_succ_of_lt_four {c : BitVec 3} (h : c.toNat < 4) : (c + 1).toNat = c.toNat + 1 := by
  bv_omega

/-- The lanes above the one written stay zero (R189 (b)). -/
theorem Node.AssemblyInv.lanes_zero_storeByte (h : n.AssemblyInv) {i : Nat} (hi : n.cnt.toNat + 1 ≤ i) (hi' : i < 4) :
    lane n.storeByte.acc i = 0 := by
  rw [Node.acc_storeByte, lane_setLane_ne _ _ hi' (by omega)]
  exact h.lanes_zero i (by omega) hi'

/-- A byte that is not the last is stored below the full counter (R183). -/
theorem Node.AssemblyInv.storeByte (h : n.AssemblyInv) (hn : n.cnt.toNat < 3) : n.storeByte.AssemblyInv := by
  have hcnt : n.storeByte.cnt.toNat = n.cnt.toNat + 1 := toNat_succ_of_lt_four (by omega)
  refine ⟨by omega, fun i hi => h.lanes_zero_storeByte (by omega), h.done_fired, fun hfull => ?_, fun _ => by omega⟩
  rw [hfull] at hcnt
  simp at hcnt
  omega

/-- The last byte completes the message (R184). -/
theorem Node.AssemblyInv.storeByte_fired (h : n.AssemblyInv) (hn : n.cnt.toNat < 4) (d : Bool) :
    { n.storeByte with done := d, fired := true }.AssemblyInv := by
  have hcnt : n.storeByte.cnt.toNat = n.cnt.toNat + 1 := toNat_succ_of_lt_four hn
  exact ⟨hcnt ▸ hn, fun i hi => h.lanes_zero_storeByte (hcnt ▸ hi), fun _ => rfl, fun _ => rfl, fun _ => by
    show 1 ≤ n.storeByte.cnt.toNat
    omega⟩

/-- A full counter may be marked fired (R185). -/
theorem Node.AssemblyInv.fired (h : n.AssemblyInv) (hn : n.cnt = 4) (d : Bool) :
    { n with done := d, fired := true }.AssemblyInv :=
  ⟨h.cnt_le, h.lanes_zero, fun _ => rfl, fun _ => rfl, fun _ => by simp [hn]⟩

end

/-- Every operation keeps the assembly of both nodes consistent: most do not write it, two empty it, the handler's
branches store, complete and take (R189). -/
theorem Effect.assemblyInv {i : Instr} {s t : State} (h : Effect i s t) (hs : s.Both Node.AssemblyInv) :
    t.Both Node.AssemblyInv := by
  have hself := hs.self
  have hkeep {u : State} : u.Both Node.AssemblyInv → (nextPhase u).Both Node.AssemblyInv :=
    nextPhase_both assemblyInv_keptByTurns
  cases h
  case returns | setsIE | disables | rearms | initController =>
    exact hs.mapSelf (hself.congr (by simp [Node.assemblyRegs]))
  case takes => exact hs.mapSelf ((hself.done (d := false) (by simp)).congr (by simp [Node.assemblyRegs]))
  case initPeripheral | enables => exact hs.mapSelf (assemblyInv_of_empty (by simp [Node.assemblyRegs]))
  case resets => exact hs.mapSelf (assemblyInv_of_empty rfl)
  case starts | writes => exact hkeep (hs.mapSelf (hself.congr rfl))
  case ends => exact hkeep (hs.mapSelf (hself.congr (endWith_sequenced _ _).assemblyRegs))
  case readsByte | polls | receives => exact hs.mapSelf (hself.congr (observe_waited _).assemblyRegs)
  case expires => exact hs.mapSelf (hself.congr (expire_waited _).assemblyRegs)
  case event c d hc => exact envEvent_both assemblyInv_keptByTurns (fun _ _ hn => hn.congr rfl) d hs
  case begins phs => exact (foreignBegins_frame phs s).both assemblyInv_keptByTurns hs
  case masked => exact hs
  case ignores => exact hs.mapSelf (hself.congr rfl)
  case stores hf he hn ack => exact hs.mapSelf ((hself.storeByte hn).congr rfl)
  case completes hf he hn => exact hs.mapSelf ((hself.storeByte_fired hn true).congr rfl)
  case callsBack hf he hn hcb d r => exact (hs.emitCb _).mapSelf ((hself.storeByte_fired hn d).congr rfl)
  case stopCompletes hf he hn hfd => exact hs.mapSelf ((hself.fired hn true).congr rfl)
  case stopCallsBack hf he hn hfd hcb d r => exact (hs.emitCb _).mapSelf ((hself.fired hn d).congr rfl)

theorem step_assemblyInv {s t : State} (h : step s = .next t) (hs : s.Both Node.AssemblyInv) :
    t.Both Node.AssemblyInv :=
  step_both assemblyInv_keptByTurns hs (fun _ _ he _ hu => he.assemblyInv hu) (fun _ _ _ _ _ hn => hn.congr rfl) h

/-! ## The controller's sequencer and the waits (R22, R23) -/

section
variable {n n' : Node}

/-- Outside a controller's operation C_STATE is neither START nor STOP. -/
theorem Node.ControllerInv.resting (h : n.ControllerInv) (hb : n.busy.atPhase = false) :
    n.cState ≠ .start ∧ n.cState ≠ .stop := by
  have hin := h.inside
  cases hbusy : n.busy <;> simp only [hbusy, Busy.atPhase, reduceCtorEq] at hin hb <;> exact hin

theorem controllerInv_of_resting (hb : n.busy.atPhase = false) (hidle : n.cState = .idle → n.cOwn = false)
    (hopen : n.cState = .address ∨ n.cState = .data → n.cOwn = true) (hrest : n.cState ≠ .start ∧ n.cState ≠ .stop) :
    n.ControllerInv := by
  refine ⟨hidle, hopen, ?_⟩
  cases hbusy : n.busy <;> simp only [hbusy, Busy.atPhase, reduceCtorEq] at hb ⊢ <;> exact hrest

/-- `end()` leaves the bus owned in the stop phase and nowhere else (R127). -/
theorem endWith_controllerInv (r : Result) (h : n.cState = .idle → n.cOwn = false) : (endWith r n).ControllerInv := by
  by_cases hc : n.cState = .idle
  · rw [endWith_idle hc]
    exact controllerInv_of_resting rfl (fun _ => h hc) (by simp [hc]) (by simp [hc])
  · cases ho : n.cOwn with
    | true => rw [endWith_owned hc ho]; exact ⟨by simp, by simp, ⟨rfl, ho⟩⟩
    | false => rw [endWith_not_owned hc ho]; exact controllerInv_of_resting rfl (fun _ => ho) (by simp) (by simp)

/-- What the invariant says of a node's other registers. -/
structure Node.SequencerInv (n : Node) : Prop where
  controller : n.ControllerInv
  csI_le : n.csI.toNat ≤ 4
  pbI_le : n.pbI.toNat ≤ 4
  ctx_main : n.ctx = .main
  sla_ne : n.sla ≠ 0

theorem Node.inv_iff : n.Inv ↔ n.AssemblyInv ∧ n.SequencerInv :=
  ⟨fun h => ⟨h.assembly, h.controller, h.csI_le, h.pbI_le, h.ctx_main, h.sla_ne⟩,
    fun ⟨ha, hs⟩ => ⟨ha, hs.controller, hs.csI_le, hs.pbI_le, hs.ctx_main, hs.sla_ne⟩⟩

/-- The registers it reads. -/
def Node.sequencerRegs (n : Node) : CState × Bool × Busy × BitVec 3 × BitVec 3 × Ctx × BitVec 7 :=
  (n.cState, n.cOwn, n.busy, n.csI, n.pbI, n.ctx, n.sla)

theorem Node.SequencerInv.congr (h : n.SequencerInv) (he : n'.sequencerRegs = n.sequencerRegs) : n'.SequencerInv := by
  simp only [Node.sequencerRegs, Prod.mk.injEq] at he
  obtain ⟨hcs, hco, hbusy, hci, hpi, hctx, hsla⟩ := he
  exact ⟨⟨hcs ▸ hco ▸ h.controller.idle_not_owned, hcs ▸ hco ▸ h.controller.open_owned,
    hbusy ▸ hcs ▸ hco ▸ h.controller.inside⟩, hci ▸ h.csI_le, hpi ▸ h.pbI_le, hctx ▸ h.ctx_main, hsla ▸ h.sla_ne⟩

theorem Reaction.sequencerRegs (h : Reaction n n') : n'.sequencerRegs = n.sequencerRegs := by
  obtain ⟨ps, gc, dr, e, rfl, -⟩ := h
  rfl

/-- A controller's phase keeps the rest of it: only its own invariant and CS_I's range are to be shown. -/
theorem Node.SequencerInv.sequenced (h : n.SequencerInv) (hs : Sequenced n n') (hc : n'.ControllerInv)
    (hi : n'.csI.toNat ≤ 4) : n'.SequencerInv := by
  obtain ⟨cs, co, ci, bu, re, an, rfl⟩ := hs
  exact ⟨hc, hi, h.pbI_le, h.ctx_main, h.sla_ne⟩

/-- A wait may change the operation to another that is no controller's, and PB_I within its range. -/
theorem Node.SequencerInv.waited (h : n.SequencerInv) (hw : Waited n n') (hb : n.busy.atPhase = false)
    (hb' : n'.busy.atPhase = false) (hi : n'.pbI.toNat ≤ 4) : n'.SequencerInv := by
  obtain ⟨ak, e, pi, pa, bu, re, rfl, -⟩ := hw
  exact ⟨controllerInv_of_resting hb' h.controller.idle_not_owned h.controller.open_owned (h.controller.resting hb),
    h.csI_le, hi, h.ctx_main, h.sla_ne⟩

/-- The main program goes from one wait, or none, to another. -/
theorem Node.SequencerInv.wait (h : n.SequencerInv) (hb : n.busy.atPhase = false) {b : Busy} (hb' : b.atPhase = false)
    {i : BitVec 3} (hi : i.toNat ≤ 4) : { n with pbI := i, busy := b }.SequencerInv :=
  h.waited ⟨_, _, _, _, _, _, rfl, .inl rfl⟩ hb hb' hi

theorem Node.SequencerInv.withAddress (h : n.SequencerInv) {a : BitVec 7} (ha : a ≠ 0) : { n with sla := a }.SequencerInv :=
  ⟨⟨h.controller.idle_not_owned, h.controller.open_owned, h.controller.inside⟩, h.csI_le, h.pbI_le, h.ctx_main, ha⟩

/-! ### A controller's phases -/

@[simp] theorem csI_endWith (r : Result) (n : Node) : (endWith r n).csI = n.csI := by
  unfold endWith
  split
  · rfl
  · split <;> rfl

theorem afterStart_send_error {r : Byte} (h : isStartOk r = false) (m : Word) (n : Node) :
    afterStart (.send m) r n =
      endWith (.sent (some (.addressNotAcknowledged r))) { n with cState := .error, cOwn := false } := by
  simp [afterStart, h]

theorem Node.SequencerInv.endWith (h : n.SequencerInv) (r : Result) : (endWith r n).SequencerInv :=
  h.sequenced (endWith_sequenced r n) (endWith_controllerInv r h.controller.idle_not_owned)
    ((csI_endWith r n).symm ▸ h.csI_le)

/-- An operation that failed rests in ERROR, or ends from there. -/
theorem Node.SequencerInv.error (h : n.SequencerInv) (own : Bool) (r : Result) :
    ({ n with cState := .error, cOwn := own }.finish r).SequencerInv :=
  h.sequenced ⟨_, _, _, _, _, _, rfl⟩ (controllerInv_of_resting rfl (by simp) (by simp) (by simp)) h.csI_le

theorem Node.SequencerInv.error_end (h : n.SequencerInv) (own : Bool) (r : Result) :
    (Machine.endWith r { n with cState := .error, cOwn := own }).SequencerInv :=
  h.sequenced (.trans ⟨_, _, _, _, _, _, rfl⟩ (endWith_sequenced _ _)) (endWith_controllerInv r (by simp))
    (by simpa using h.csI_le)

/-- A call whose phase was acknowledged is over, and its transaction open. -/
theorem Node.SequencerInv.finish_open (h : n.SequencerInv) (hc : n.cState = .address ∨ n.cState = .data) (r : Result) :
    (n.finish r).SequencerInv :=
  h.sequenced (finish_sequenced r n)
    (controllerInv_of_resting rfl h.controller.idle_not_owned h.controller.open_owned
      (by rcases hc with hc | hc <;> simp [hc]))
    h.csI_le

/-- A data phase is the next one while the bus is owned. -/
theorem Node.SequencerInv.toData (h : n.SequencerInv) (ho : n.cOwn = true) {i : BitVec 3} (hi : i.toNat ≤ 4) (t : CTask)
    (b : Byte) : (toData t b { n with csI := i }).SequencerInv :=
  h.sequenced ⟨_, _, _, _, _, _, rfl⟩ ⟨by simp [Machine.toData], fun _ => ho, rfl⟩ hi

theorem Node.SequencerInv.afterStart (h : n.SequencerInv) (k : CTask) (r : Byte) : (afterStart k r n).SequencerInv := by
  cases hr : isStartOk r with
  | true =>
    rw [afterStart_ok hr]
    exact h.sequenced ⟨_, _, _, _, _, _, rfl⟩ ⟨by simp, by simp, rfl⟩ h.csI_le
  | false =>
    cases k with
    | call => rw [afterStart_call_error hr]; exact h.error false (.code r)
    | send m => rw [afterStart_send_error hr]; exact h.error_end false _

theorem Node.SequencerInv.afterAddress (h : n.SequencerInv) {k : CTask} (hb : n.busy = .atAddress k) (r : Byte) :
    (afterAddress k r n).SequencerInv := by
  have hc : n.cState = .address := by simpa only [hb] using h.controller.inside
  unfold Machine.afterAddress
  split
  · cases k with
    | call => exact h.finish_open (.inl hc) _
    | send m => exact h.toData (h.controller.open_owned (.inl hc)) (by decide) _ _
  · cases k with
    | call => exact h.error _ _
    | send m => exact h.error_end _ _

theorem Node.SequencerInv.afterData (h : n.SequencerInv) {k : CTask} {b : Byte} (hb : n.busy = .atData k b) (r : Byte) :
    (afterData k r n).SequencerInv := by
  have hc : n.cState = .data := by simpa only [hb] using h.controller.inside
  unfold Machine.afterData
  split
  · cases k with
    | call => exact h.finish_open (.inr hc) _
    | send m =>
      dsimp only
      split
      case isTrue hi =>
        have hcnt := toNat_succ_of_lt_four (c := n.csI) (by omega)
        exact h.toData (h.controller.open_owned (.inr hc)) (by omega) _ _
      case isFalse => exact h.endWith _
  · cases k with
    | call => exact h.error _ _
    | send m => exact h.error_end _ _

theorem Node.SequencerInv.afterStop (h : n.SequencerInv) (r : Result) : (afterStop r n).SequencerInv :=
  h.sequenced (afterStop_sequenced r n) (controllerInv_of_resting rfl (fun _ => rfl) (by simp [Machine.afterStop])
    (by simp [Machine.afterStop])) h.csI_le

end

/-- What a phase makes of the moving node: ENV's answer used, then what follows the phase. -/
theorem controllerPhase_self {s t : State} (h : controllerPhase s = some t) :
    ∃ an, let n := { s.self with answers := an }
      (∃ k rep r, n.busy = .atStart k rep ∧ t.self = afterStart k r n) ∨
      (∃ k r, n.busy = .atAddress k ∧ t.self = afterAddress k r n) ∨
      (∃ k b r, n.busy = .atData k b ∧ t.self = afterData k r n) ∨
      (∃ r, n.busy = .atStop r ∧ t.self = afterStop r n) := by
  obtain ⟨k, rep, r, u, hb, hu, rfl⟩ | ⟨k, r, u, hb, hu, rfl⟩ | ⟨k, b, r, u, hb, hu, rfl⟩ | ⟨r, u, hb, hu, rfl⟩ :=
    controllerPhase_eq_some h
  · rcases busStart_eq_some hu with ⟨-, -, -, rfl⟩ | ⟨-, rs, -, rfl⟩
    · exact ⟨s.self.answers, .inl ⟨k, rep, r, hb, by simp⟩⟩
    · exact ⟨rs, .inl ⟨k, rep, r, hb, by simp⟩⟩
  · rcases busAddress_eq_some hu with ⟨-, -, -, rfl⟩ | ⟨-, rs, -, rfl⟩
    · exact ⟨s.self.answers, .inr (.inl ⟨k, r, hb, by simp⟩)⟩
    · exact ⟨rs, .inr (.inl ⟨k, r, hb, by simp⟩)⟩
  · rcases busData_eq_some hu with ⟨-, -, -, rfl⟩ | ⟨-, rs, -, rfl⟩
    · exact ⟨s.self.answers, .inr (.inr (.inl ⟨k, b, r, hb, by simp⟩))⟩
    · exact ⟨rs, .inr (.inr (.inl ⟨k, b, r, hb, by simp⟩))⟩
  · rcases busStop_eq_some hu with ⟨-, -, rfl⟩ | ⟨-, rfl⟩ <;>
      exact ⟨s.self.answers, .inr (.inr (.inr ⟨r, hb, by simp⟩))⟩

theorem controllerPhase_sequencerInv {s t : State} (h : controllerPhase s = some t) (hs : s.self.SequencerInv) :
    t.self.SequencerInv := by
  obtain ⟨an, hself⟩ := controllerPhase_self h
  have hn : { s.self with answers := an }.SequencerInv := hs.congr rfl
  rcases hself with ⟨k, rep, r, hb, ht⟩ | ⟨k, r, hb, ht⟩ | ⟨k, b, r, hb, ht⟩ | ⟨r, hb, ht⟩ <;> rw [ht]
  · exact hn.afterStart k r
  · exact hn.afterAddress hb r
  · exact hn.afterData hb r
  · exact hn.afterStop r

/-! ### The waits -/

section
variable {n : Node}

theorem Node.SequencerInv.recvAddressOn (h : n.SequencerInv) (hb : n.busy.atPhase = false) (c : Byte) :
    (recvAddressOn c n).SequencerInv := by
  refine h.waited (recvAddressOnAt_waited _ c n) hb ?_ ?_ <;> unfold Machine.recvAddressOn recvAddressOnAt
  · split
    · rfl
    · split <;> rfl
  · split
    · exact Nat.zero_le 4
    · split <;> exact h.pbI_le

theorem Node.SequencerInv.recvDataOn (h : n.SequencerInv) (hb : n.busy.atPhase = false) (c : Byte) :
    (recvDataOn c n).SequencerInv := by
  refine h.waited (recvDataOn_waited c n) hb ?_ ?_ <;> unfold Machine.recvDataOn
  · split
    · dsimp only
      split
      · exact hb
      · rfl
    · rfl
  · split
    · dsimp only
      split
      case isTrue hi =>
        have hcnt := toNat_succ_of_lt_four (c := n.pbI) (by omega)
        exact hcnt.trans_le (by omega)
      case isFalse => exact h.pbI_le
    · exact h.pbI_le

/-- A wait of the main program that is over. -/
theorem Node.SequencerInv.finish_wait (h : n.SequencerInv) (hb : n.busy.atPhase = false) (r : Result) :
    (n.finish r).SequencerInv :=
  (h.wait hb (b := .idle) rfl h.pbI_le).congr rfl

theorem Node.SequencerInv.observe (h : n.SequencerInv) : (observe n).SequencerInv := by
  unfold Machine.observe
  split
  · exact h
  · split
    case _ hbusy => exact h.finish_wait (by rw [hbusy]; rfl) _
    case _ hbusy => exact h.finish_wait (by rw [hbusy]; rfl) _
    case _ hbusy => exact h.recvAddressOn (by rw [hbusy]; rfl) _
    case _ hbusy => exact h.recvDataOn (by rw [hbusy]; rfl) _
    all_goals exact h

theorem Node.SequencerInv.afterExpiry (h : n.SequencerInv) : (afterExpiry n).SequencerInv := by
  unfold Machine.afterExpiry
  split
  case _ hbusy => exact h.recvAddressOn (by rw [hbusy]; rfl) _
  case _ hbusy => exact h.recvDataOn (by rw [hbusy]; rfl) _
  all_goals exact h.observe

theorem Node.SequencerInv.expire (h : n.SequencerInv) : (expire n).SequencerInv := by
  unfold Machine.expire
  split
  · exact h
  · split
    case _ hbusy => exact h.finish_wait (by rw [hbusy]; rfl) _
    case _ hbusy => exact h.wait (by rw [hbusy]; rfl) rfl h.pbI_le
    case _ hbusy => exact h.wait (by rw [hbusy]; rfl) rfl h.pbI_le
    all_goals exact h

end

theorem sequencerInv_keptByTurns : KeptByTurns Node.SequencerInv where
  calls _ h := h.congr rfl
  answers _ h := h.congr rfl
  pending _ h := h.congr rfl
  reaction hr h := h.congr hr.sequencerRegs
  phase := controllerPhase_sequencerInv
  wait h := h.afterExpiry

/-- Every operation keeps the sequencer's registers consistent; a host operation begins where none is in progress. -/
theorem Effect.sequencerInv {i : Instr} {s t : State} (h : Effect i s t)
    (hidle : i.format = .hostop → s.self.busy = .idle) (hs : s.Both Node.SequencerInv) : t.Both Node.SequencerInv := by
  have hself := hs.self
  have hkeep {u : State} : u.Both Node.SequencerInv → (nextPhase u).Both Node.SequencerInv :=
    nextPhase_both sequencerInv_keptByTurns
  have hrest : i.format = .hostop → s.self.busy.atPhase = false := fun hf => by rw [hidle hf]; rfl
  cases h
  case returns | takes | setsIE | enables | disables | rearms =>
    exact hs.mapSelf (hself.congr (by simp [Node.sequencerRegs]))
  case initController hf hz hx hr ho =>
    refine hs.mapSelf ((hself.sequenced (n' := { s.self with cState := .idle, cOwn := false })
      ⟨_, _, _, _, _, _, rfl⟩ ?_ hself.csI_le).congr (by simp [Node.sequencerRegs]))
    exact controllerInv_of_resting (hrest hf) (fun _ => rfl) (by simp) (by simp)
  case initPeripheral a hi hx ha hr =>
    exact hs.mapSelf ((hself.withAddress ha).congr (by simp [Node.sequencerRegs]))
  case starts hf k rep hr hstart =>
    refine hkeep (hs.mapSelf (hself.sequenced ⟨_, _, _, _, _, _, rfl⟩ ⟨by simp, by simp, rfl, ?_⟩ hself.csI_le))
    rcases hstart with ⟨rfl, hc⟩ | ⟨rfl, -, ho⟩
    · exact hself.controller.idle_not_owned hc
    · exact ho
  case writes hf b hr hc ho => exact hkeep (hs.mapSelf (hself.toData ho hself.csI_le _ _))
  case ends => exact hkeep (hs.mapSelf (hself.endWith _))
  case readsByte hf ack hr =>
    exact hs.mapSelf (.observe (.congr (hself.wait (hrest hf) (b := .readByte) rfl hself.pbI_le) rfl))
  case polls hf timeout hr =>
    exact hs.mapSelf (.observe (hself.wait (hrest hf) (b := .pollEvent timeout) rfl hself.pbI_le))
  case receives hf hr =>
    exact hs.mapSelf (.observe (.congr (hself.wait (hrest hf) (b := .recvAddress) rfl (i := 0) (by decide)) rfl))
  case event c d hc => exact envEvent_both sequencerInv_keptByTurns (fun _ _ hn => hn.congr rfl) d hs
  case expires => exact hs.mapSelf hself.expire
  case begins phs => exact (foreignBegins_frame phs s).both sequencerInv_keptByTurns hs
  case masked => exact hs
  case resets | stores | completes | stopCompletes | ignores => exact hs.mapSelf (hself.congr rfl)
  case callsBack | stopCallsBack => exact (hs.emitCb _).mapSelf (hself.congr rfl)

theorem step_sequencerInv {s t : State} (h : step s = .next t) (hs : s.Both Node.SequencerInv) :
    t.Both Node.SequencerInv :=
  step_both sequencerInv_keptByTurns hs (fun _ _ he hidle hu => he.sequencerInv hidle hu)
    (fun _ _ _ _ _ hn => hn.congr rfl) h

theorem State.inv_iff {s : State} : s.Inv ↔ s.Both Node.AssemblyInv ∧ s.Both Node.SequencerInv := by
  have hboth : s.Inv ↔ s.Both Node.Inv :=
    ⟨fun h n => by cases n; exacts [h.a, h.b], fun h => ⟨h .a, h .b⟩⟩
  rw [hboth]
  simp only [State.Both, Node.inv_iff, forall_and]

theorem step_inv {s t : State} (h : step s = .next t) (hs : s.Inv) : t.Inv :=
  have ⟨hasm, hseq⟩ := State.inv_iff.1 hs
  State.inv_iff.2 ⟨step_assemblyInv h hasm, step_sequencerInv h hseq⟩

/-! ## EV_TIMEOUT is latched by no step of the block's own (R98) -/

/-- The node has not latched EV_TIMEOUT. -/
def Node.NoTimeout (n : Node) : Prop := n.pEvt ≠ some Config.evTimeout

section
variable {n n' : Node}

theorem Node.NoTimeout.congr (h : n.NoTimeout) (he : n'.pEvt = n.pEvt ∨ n'.pEvt = none) : n'.NoTimeout := by
  rcases he with he | he <;> unfold Node.NoTimeout <;> rw [he]
  · exact h
  · simp

theorem noTimeout_of_some {c : Byte} (hc : c ∈ Config.eventCodes) (he : n.pEvt = some c) : n.NoTimeout := by
  unfold Node.NoTimeout
  rw [he, ne_eq, Option.some.injEq]
  exact Config.evTimeout_ne hc

theorem fsmCodes_subset : ∀ c ∈ fsmCodes, c ∈ Config.eventCodes := by decide

theorem Node.NoTimeout.reaction (hr : Reaction n n') (h : n.NoTimeout) : n'.NoTimeout := by
  obtain ⟨ps, gc, dr, e, rfl, he | ⟨c, hc, he⟩⟩ := hr
  · exact h.congr (.inl he)
  · exact noTimeout_of_some (fsmCodes_subset c hc) he

theorem Sequenced.pEvt (h : Sequenced n n') : n'.pEvt = n.pEvt := by
  obtain ⟨cs, co, ci, bu, re, an, rfl⟩ := h
  rfl

theorem Waited.pEvt (h : Waited n n') : n'.pEvt = n.pEvt ∨ n'.pEvt = none := by
  obtain ⟨ak, e, pi, pa, bu, re, rfl, he⟩ := h
  exact he

theorem noTimeout_keptByTurns : KeptByTurns Node.NoTimeout where
  calls _ h := h
  answers _ h := h
  pending _ h := h
  reaction := Node.NoTimeout.reaction
  phase hp h := h.congr (.inl (controllerPhase_frame hp).self.pEvt)
  wait h := h.congr (afterExpiry_waited _).pEvt

theorem noTimeout_keptByLatching {c : Byte} (hc : c ≠ Config.evTimeout) : KeptByLatching Node.NoTimeout c :=
  fun _ _ _ => by simpa [Node.NoTimeout] using hc

end

/-- No operation latches EV_TIMEOUT: the expiry of a poll returns it and latches nothing (R98, R132). -/
theorem Effect.noTimeout {i : Instr} {s t : State} (h : Effect i s t) (hs : s.Both Node.NoTimeout) :
    t.Both Node.NoTimeout := by
  have hself := hs.self
  have hkeep {u : State} : u.Both Node.NoTimeout → (nextPhase u).Both Node.NoTimeout :=
    nextPhase_both noTimeout_keptByTurns
  cases h
  case returns | takes | initController | initPeripheral | setsIE | enables | disables | rearms =>
    exact hs.mapSelf (hself.congr (by simp))
  case starts | writes => exact hkeep (hs.mapSelf hself)
  case ends => exact hkeep (hs.mapSelf (hself.congr (.inl (endWith_sequenced _ _).pEvt)))
  case readsByte hf ack hr =>
    exact hs.mapSelf (Node.NoTimeout.congr (n := s.self.rearm ack) (hself.congr (.inr rfl)) (observe_waited _).pEvt)
  case polls | receives => exact hs.mapSelf (hself.congr (observe_waited _).pEvt)
  case event c d hc => exact envEvent_both noTimeout_keptByTurns (noTimeout_keptByLatching (Config.evTimeout_ne hc)) d hs
  case expires => exact hs.mapSelf (hself.congr (expire_waited _).pEvt)
  case begins phs => exact (foreignBegins_frame phs s).both noTimeout_keptByTurns hs
  case masked => exact hs
  case resets | stores | completes | stopCompletes | ignores => exact hs.mapSelf (hself.congr (.inr rfl))
  case callsBack | stopCallsBack => exact (hs.emitCb _).mapSelf (hself.congr (.inr rfl))

theorem step_noTimeout {s t : State} (h : step s = .next t) (hs : s.Both Node.NoTimeout)
    (hinject : ∀ n d turns, s.sched ≠ .inject n Config.evTimeout d :: turns) : t.Both Node.NoTimeout :=
  step_both noTimeout_keptByTurns hs (fun _ _ he _ hu => he.noTimeout hu)
    (fun _ d hc => noTimeout_keptByLatching fun he =>
      have ⟨n, rest, hsched⟩ := hc he
      hinject n d rest (he ▸ hsched)) h

end Sys2Proof.Machine

namespace Sys2Proof.Proofs

open Sys2Proof Sys2Proof.Machine

/-- Settles O3: step by step for the assembly, the sequencer and the latched code, each over the effects. -/
theorem stepKeepsTheInvariant : Obligations.StepKeepsTheInvariant :=
  ⟨fun _ _ hs h => step_inv h hs, fun _ _ hs hinject h => step_noTimeout h hs hinject⟩

end Sys2Proof.Proofs
end

section
/-! SUPPORT. The family 30_encoding.md, the decoder: an operand read is the operand's bytes, a selector, an event code
or a handler code accepted is the operation's own; and the four statements on the encoding, assembled from these. -/

namespace Sys2Proof

/-! ## Operands (R101) -/

section
variable {bs rest : List Byte} {i : Instr}

theorem readByteOp_eq_ok {k : Byte → Instr} (h : readByteOp bs k = .ok (i, rest)) : ∃ b, i = k b ∧ bs = b :: rest := by
  unfold readByteOp at h
  split at h <;> cases h
  exact ⟨_, rfl, rfl⟩

theorem readBoolOp_eq_ok {k : Bool → Instr} (h : readBoolOp bs k = .ok (i, rest)) :
    ∃ v, i = k v ∧ bs = boolByte v :: rest := by
  unfold readBoolOp at h
  split at h
  · split at h
    case isTrue hb => cases h; exact ⟨false, rfl, by rw [hb]; rfl⟩
    case isFalse =>
      split at h <;> cases h
      case isTrue hb => exact ⟨true, rfl, by rw [hb]; rfl⟩
  · cases h

theorem readHalfOp_eq_ok {k : BitVec 16 → Instr} (h : readHalfOp bs k = .ok (i, rest)) :
    ∃ v, i = k v ∧ bs = halfBytes v ++ rest := by
  unfold readHalfOp at h
  split at h <;> cases h
  exact ⟨_, rfl, by rw [halfBytes_append]; rfl⟩

theorem readHalfByteOp_eq_ok {k : BitVec 16 → Byte → Instr} (h : readHalfByteOp bs k = .ok (i, rest)) :
    ∃ v b, i = k v b ∧ bs = halfBytes v ++ b :: rest := by
  unfold readHalfByteOp at h
  split at h <;> cases h
  exact ⟨_, _, rfl, by rw [halfBytes_append]; rfl⟩

theorem readWordOp_eq_ok {k : Word → Instr} (h : readWordOp bs k = .ok (i, rest)) :
    ∃ w, i = k w ∧ bs = wordBytes w ++ rest := by
  unfold readWordOp at h
  split at h <;> cases h
  exact ⟨_, rfl, by rw [wordBytes_word4]; rfl⟩

theorem readSevenOp_eq_ok {k : BitVec 7 → Instr} (h : readSevenOp bs k = .ok (i, rest)) :
    ∃ a, i = k a ∧ bs = a.setWidth 8 :: rest := by
  unfold readSevenOp at h
  split at h
  · split at h <;> cases h
    next hb => exact ⟨_, rfl, by rw [setWidth_seven hb]⟩
  · cases h

theorem readWordNibbleOp_eq_ok {k : Word → BitVec 4 → Instr} (h : readWordNibbleOp bs k = .ok (i, rest)) :
    ∃ w a, i = k w a ∧ bs = wordBytes w ++ a.setWidth 8 :: rest := by
  unfold readWordNibbleOp at h
  split at h
  · split at h <;> cases h
    next hb => exact ⟨_, _, rfl, by rw [wordBytes_word4, setWidth_four hb]; rfl⟩
  · cases h

/-! ## Host operations (R101) and events (R96) -/

/-- A selector's operation is encoded as the selector and the operand bytes read. -/
theorem encode_of_decodeSelector {op : Nat} (h : decodeSelector op bs = .ok (i, rest)) :
    encode i ++ rest = BitVec.ofNat 8 op :: bs := by
  unfold decodeSelector at h
  split at h
  case h_1 | h_7 | h_9 | h_19 | h_20 | h_21 | h_22 | h_24 => obtain ⟨w, rfl, rfl⟩ := readWordOp_eq_ok h; rfl
  case h_2 => obtain ⟨a, rfl, rfl⟩ := readSevenOp_eq_ok h; rfl
  case h_3 | h_5 | h_8 | h_16 => obtain ⟨v, rfl, rfl⟩ := readBoolOp_eq_ok h; rfl
  case h_4 | h_11 => obtain ⟨b, rfl, rfl⟩ := readByteOp_eq_ok h; rfl
  case h_6 | h_10 | h_12 | h_13 | h_14 | h_15 => cases h; rfl
  case h_17 => obtain ⟨v, rfl, rfl⟩ := readHalfOp_eq_ok h; rfl
  case h_18 => obtain ⟨v, b, rfl, rfl⟩ := readHalfByteOp_eq_ok h; rfl
  case h_23 => obtain ⟨w, a, rfl, rfl⟩ := readWordNibbleOp_eq_ok h; rfl
  case h_25 => cases h

/-- An event is encoded as its code and the data byte read with it. -/
theorem encode_of_decodeEvent {c : Byte} (h : decodeEvent c bs = .ok (i, rest)) : encode i ++ rest = c :: bs := by
  have hcode {k : Nat} (hk : c.toNat = k) : c = BitVec.ofNat 8 k := by rw [← hk, BitVec.ofNat_toNat, BitVec.setWidth_eq]
  unfold decodeEvent at h
  split at h
  case h_12 hk | h_13 hk | h_14 hk | h_15 hk => obtain ⟨d, rfl, rfl⟩ := readByteOp_eq_ok h; rw [hcode hk]; rfl
  case h_17 =>
    split at h <;> cases h
    case isTrue hc => rw [hc]; rfl
  all_goals
    rename_i hk
    cases h
    rw [hcode hk]
    rfl

end

/-! ## The handler's branches (R180) -/

/-- The bits a branch's mask leaves out are its own: of the 256 codes the mask leaves those of the branch. -/
theorem addrMatchCode_of_mask : ∀ {c : Byte}, c &&& 0xE7 = 0x60 → addrMatchCode (c.getLsbD 4) (c.getLsbD 3) = c := by
  decide

theorem dataAckCode_of_mask : ∀ {c : Byte}, c &&& 0xEF = 0x80 → dataAckCode (c.getLsbD 4) = c := by
  decide

theorem dataNackCode_of_mask : ∀ {c : Byte}, c &&& 0xEF = 0x88 → dataNackCode (c.getLsbD 4) = c := by
  decide

section
variable {cnt : BitVec 3} {c : Byte}

/-- A code of a branch selects it, while the counter's guard holds. -/
theorem irqBranch_addrMatchCode (cnt : BitVec 3) (g a : Bool) : irqBranch cnt (addrMatchCode g a) = .irqAddrMatch g a := by
  cases g <;> cases a <;> rfl

theorem irqBranch_dataAckCode (h : cnt.toNat < 3) (g : Bool) : irqBranch cnt (dataAckCode g) = .irqDataAck g := by
  cases g <;> simp [irqBranch, dataAckCode, h]

theorem irqBranch_dataNackCode (h : cnt.toNat < 4) (g : Bool) : irqBranch cnt (dataNackCode g) = .irqDataNack g := by
  cases g <;> simp [irqBranch, dataNackCode, h]

/-- The classes of R97 are the codes of the branches. -/
theorem mem_addrMatch_iff : c ∈ ([0x60, 0x68, 0x70, 0x78] : List Byte) ↔ ∃ g a, addrMatchCode g a = c := by
  revert c; decide

theorem mem_dataRxAck_iff : c ∈ ([0x80, 0x90] : List Byte) ↔ ∃ g, dataAckCode g = c := by
  revert c; decide

theorem mem_dataRxNack_iff : c ∈ ([0x88, 0x98] : List Byte) ↔ ∃ g, dataNackCode g = c := by
  revert c; decide

/-- The default branch's range (R186). -/
theorem wellFormed_irqOther_iff : WellFormed (.irqOther c) = true ↔ c ∉ ([0x60, 0x68, 0x70, 0x78, 0xA0] : List Byte) := by
  simp [WellFormed, and_assoc]

/-- A byte selects the branch it is a code of, under the counter's guard, and else the default branch (R180). -/
theorem irqBranch_cases (cnt : BitVec 3) (c : Byte) :
    (∃ g a, irqBranch cnt c = .irqAddrMatch g a ∧ addrMatchCode g a = c) ∨
      (∃ g, irqBranch cnt c = .irqDataAck g ∧ dataAckCode g = c ∧ cnt.toNat < 3) ∨
      (∃ g, irqBranch cnt c = .irqDataNack g ∧ dataNackCode g = c ∧ cnt.toNat < 4) ∨
      (irqBranch cnt c = .irqStop ∧ c = 0xA0) ∨
      (irqBranch cnt c = .irqOther c ∧ c &&& 0xE7 ≠ 0x60 ∧ c ≠ 0xA0) := by
  unfold irqBranch
  split
  case isTrue haddr => exact .inl ⟨_, _, rfl, addrMatchCode_of_mask haddr⟩
  case isFalse haddr =>
    split
    case isTrue hack => exact .inr (.inl ⟨_, rfl, dataAckCode_of_mask hack.1, hack.2⟩)
    case isFalse =>
      split
      case isTrue hnack => exact .inr (.inr (.inl ⟨_, rfl, dataNackCode_of_mask hnack.1, hnack.2⟩))
      case isFalse =>
        split
        case isTrue hstop => exact .inr (.inr (.inr (.inl ⟨rfl, hstop⟩)))
        case isFalse hstop => exact .inr (.inr (.inr (.inr ⟨rfl, haddr, hstop⟩)))

/-- A handler branch is encoded as the code that selected it (R99). -/
theorem encode_irqBranch (cnt : BitVec 3) (c : Byte) : encode (irqBranch cnt c) = [c] := by
  rcases irqBranch_cases cnt c with ⟨g, a, h, rfl⟩ | ⟨g, h, rfl, -⟩ | ⟨g, h, rfl, -⟩ | ⟨h, rfl⟩ | ⟨h, -, -⟩ <;>
    rw [h] <;> rfl

theorem wellFormed_irqBranch (cnt : BitVec 3) (c : Byte) : WellFormed (irqBranch cnt c) = true := by
  rcases irqBranch_cases cnt c with ⟨g, a, h, -⟩ | ⟨g, h, -⟩ | ⟨g, h, -⟩ | ⟨h, -⟩ | ⟨h, haddr, hstop⟩ <;> rw [h]
  case inr.inr.inr.inr =>
    rw [wellFormed_irqOther_iff]
    clear h
    revert c
    decide
  all_goals rfl

end

/-! ## Both directions, for every operation -/

/-- Only the handler's default branch has a range narrower than its type. -/
theorem wellFormed_of_format_ne_irq {i : Instr} (h : i.format ≠ .irq) : WellFormed i = true := by
  cases i
  case irqOther => exact absurd rfl h
  all_goals rfl

/-- A decoder's operation is in its range and encodes to the bytes read. -/
theorem encode_of_decode {f : Format} {cnt : BitVec 3} {bs rest : List Byte} {i : Instr}
    (h : decode f cnt bs = .ok (i, rest)) : encode i ++ rest = bs := by
  cases f <;> simp only [decode] at h
  case hostop =>
    unfold decodeHostop at h
    split at h
    · rw [encode_of_decodeSelector h, BitVec.ofNat_toNat, BitVec.setWidth_eq]
    · cases h
  case evt =>
    unfold decodeEvt at h
    split at h
    · exact encode_of_decodeEvent h
    · cases h
  case irq =>
    unfold decodeIrq at h
    split at h <;> cases h
    rw [encode_irqBranch]
    rfl
  case msg =>
    unfold decodeMsg at h
    split at h <;> cases h
    rw [encode, msgWord_of_fields, wordBytes_word4]
    rfl
  case addr =>
    unfold decodeAddr at h
    split at h <;> cases h
    rw [encode, addrByte_fields]
    rfl
  case frame =>
    unfold decodeFrame at h
    split at h
    · split at h
      · cases h
      case isFalse hw =>
        cases h
        rw [encode, wordBytes_word4, ← Bool.eq_false_iff.2 hw, addrByte_fields]
        rfl
    · cases h

theorem wellFormed_of_decode {f : Format} {cnt : BitVec 3} {bs rest : List Byte} {i : Instr}
    (h : decode f cnt bs = .ok (i, rest)) : WellFormed i = true := by
  by_cases hf : f = .irq
  · subst hf
    simp only [decode, decodeIrq] at h
    split at h <;> cases h
    exact wellFormed_irqBranch cnt _
  · exact wellFormed_of_format_ne_irq (by rwa [Machine.decode_format h])

open Laws in
/-- The round trip of every row. -/
theorem decode_encode : ∀ i : Instr, RoundTrip.Statement i
  | .initController hz => RoundTrip.initController hz
  | .initPeripheral a => RoundTrip.initPeripheral a
  | .beginAsController w => RoundTrip.beginAsController w
  | .writeByte b => RoundTrip.writeByte b
  | .readByte ack => RoundTrip.readByte ack
  | .endTransaction => RoundTrip.endTransaction
  | .pollEvent T => RoundTrip.pollEvent T
  | .rearm ack => RoundTrip.rearm ack
  | .send m => RoundTrip.send m
  | .receiveBlocking => RoundTrip.receiveBlocking
  | .enableAsync f => RoundTrip.enableAsync f
  | .disableAsync => RoundTrip.disableAsync
  | .messageReady => RoundTrip.messageReady
  | .takeMessage => RoundTrip.takeMessage
  | .irqDisable => RoundTrip.irqDisable
  | .irqRestore v => RoundTrip.irqRestore v
  | .build f => RoundTrip.build f
  | .buildWithAux f a => RoundTrip.buildWithAux f a
  | .isValid m => RoundTrip.isValid m
  | .parity31 w => RoundTrip.parity31 w
  | .getFlags m => RoundTrip.getFlags m
  | .getAux m => RoundTrip.getAux m
  | .hasFlag m k => RoundTrip.hasFlag m k
  | .dispatch m => RoundTrip.dispatch m
  | .evStart => RoundTrip.evStart
  | .evRstart => RoundTrip.evRstart
  | .evSlawAck => RoundTrip.evSlawAck
  | .evSlawNack => RoundTrip.evSlawNack
  | .evTxdAck => RoundTrip.evTxdAck
  | .evTxdNack => RoundTrip.evTxdNack
  | .evArbLost => RoundTrip.evArbLost
  | .evOwnMatch => RoundTrip.evOwnMatch
  | .evOwnMatchArb => RoundTrip.evOwnMatchArb
  | .evGcMatch => RoundTrip.evGcMatch
  | .evGcMatchArb => RoundTrip.evGcMatchArb
  | .evRxdAckOwn d => RoundTrip.evRxdAckOwn d
  | .evRxdNackOwn d => RoundTrip.evRxdNackOwn d
  | .evRxdAckGc d => RoundTrip.evRxdAckGc d
  | .evRxdNackGc d => RoundTrip.evRxdNackGc d
  | .evStopRs => RoundTrip.evStopRs
  | .evTimeout => RoundTrip.evTimeout
  | .irqAddrMatch g a => RoundTrip.irqAddrMatch g a
  | .irqDataAck g => RoundTrip.irqDataAck g
  | .irqDataNack g => RoundTrip.irqDataNack g
  | .irqStop => RoundTrip.irqStop
  | .irqOther c => RoundTrip.irqOther c
  | .msg f a rp => RoundTrip.msg f a rp
  | .addr a w => RoundTrip.addr a w
  | .frame a m => RoundTrip.frame a m

end Sys2Proof

namespace Sys2Proof.Proofs

open Sys2Proof Sys2Proof.Machine

/-- Settles O10: the round trip of each row. -/
theorem decodingAnEncodedOperationGivesItBack : Obligations.DecodingAnEncodedOperationGivesItBack :=
  fun i cnt rest hw hirq => decode_encode i cnt rest hw hirq

/-- Settles O11: format by format, each operand read is encoded as the bytes it was read from. -/
theorem encodingADecodedOperationGivesItBack : Obligations.EncodingADecodedOperationGivesItBack :=
  fun _ _ _ _ _ h => ⟨wellFormed_of_decode h, decode_format h, encode_of_decode h⟩

/-- Settles O12: each decoder evaluated on the words given. -/
theorem specEncodingsDecode : Obligations.SpecEncodingsDecode :=
  ⟨rfl, rfl, rfl, rfl, rfl, rfl, rfl, rfl, rfl, rfl⟩

/-- Settles O15: the codes of each branch, and for the rest none of the branches' codes is left. -/
theorem handlerBranchesAreSelectedByCodeAndCount : Obligations.HandlerBranchesAreSelectedByCodeAndCount := by
  intro cnt c
  refine ⟨fun hc => ?addrMatch, fun hc hcnt => ?dataAck, fun hc hcnt => ?dataNack, ?stop, fun hnot hack hnack => ?other⟩
  case addrMatch =>
    obtain ⟨g, a, rfl⟩ := mem_addrMatch_iff.1 hc
    exact ⟨g, a, irqBranch_addrMatchCode cnt g a, rfl⟩
  case dataAck =>
    obtain ⟨g, rfl⟩ := mem_dataRxAck_iff.1 hc
    exact ⟨g, irqBranch_dataAckCode hcnt g, rfl⟩
  case dataNack =>
    obtain ⟨g, rfl⟩ := mem_dataRxNack_iff.1 hc
    exact ⟨g, irqBranch_dataNackCode hcnt g, rfl⟩
  case stop => rintro rfl; rfl
  case other =>
    rcases irqBranch_cases cnt c with ⟨g, a, -, hc⟩ | ⟨g, -, hc, hcnt⟩ | ⟨g, -, hc, hcnt⟩ | ⟨-, rfl⟩ | ⟨h, -, -⟩
    · exact absurd (List.mem_append_left [0xA0] (mem_addrMatch_iff.2 ⟨g, a, hc⟩)) hnot
    · exact absurd (hack (mem_dataRxAck_iff.2 ⟨g, hc⟩)) (Nat.not_le.2 hcnt)
    · exact absurd (hnack (mem_dataRxNack_iff.2 ⟨g, hc⟩)) (Nat.not_le.2 hcnt)
    · exact absurd (by decide) hnot
    · exact h

end Sys2Proof.Proofs
end

section
/-! SUPPORT. The family 30_encoding.md, the data formats as a foreign controller's first phase (R91, R93, R94): which
address a peripheral matches, what a data phase leaves at one that is addressed, and the first phase of each format;
and the one statement, assembled from these. -/

namespace Sys2Proof.Machine

/-! ## Addresses (R94) -/

theorem slaW_inj {a b : BitVec 7} : slaW a = slaW b ↔ a = b := by
  refine ⟨fun h => ?_, congrArg slaW⟩
  simpa [slaW] using congrArg (fun c : Byte => c.extractLsb' 1 7) h

theorem slaW_eq_gcW {a : BitVec 7} : slaW a = gcW ↔ a = 0 := addrByte_eq_zero a

theorem slaW_beq_gcW (a : BitVec 7) : (slaW a == gcW) = (a == 0) := by
  rw [Bool.eq_iff_iff, beq_iff_eq, beq_iff_eq, slaW_eq_gcW]

section
variable {n : Node}

/-- A peripheral armed with ack matches its own address and the general call (R136). -/
theorem matchesAddress_slaW_iff {a : BitVec 7} :
    n.matchesAddress (slaW a) = true ↔ n.role = .peripheral ∧ n.pAcken = true ∧ (a = n.sla ∨ a = 0) := by
  simp only [Node.matchesAddress, Bool.and_eq_true, Bool.or_eq_true, beq_iff_eq, slaW_inj, slaW_eq_gcW, and_assoc]

/-- Armed with nack, or called by another address, it matches nothing (R137). -/
theorem matchesAddress_slaW_eq_false {a : BitVec 7} (h : n.pAcken = false ∨ ¬ (a = n.sla ∨ a = 0)) :
    n.matchesAddress (slaW a) = false := by
  rw [Bool.eq_false_iff, ne_eq, matchesAddress_slaW_iff]
  rintro ⟨-, ha, haddr⟩
  rcases h with hnack | hother
  · rw [hnack] at ha; cases ha
  · exact hother haddr

/-! ## A data phase at an addressed peripheral (R138) -/

section
variable (hr : n.role = .peripheral) (hp : n.pState = .addressed)
include hr hp

theorem acksData_of_addressed : n.acksData = n.pAcken := by
  simp [Node.acksData, hr, hp]

theorem seesData_of_acking (ha : n.pAcken = true) (b : Byte) :
    n.seesData b = { n with pDr := b, pEvt := some (if n.pGc then 0x90 else 0x80) } := by
  simp [Node.seesData, Node.seesDataAt, hr, hp, ha]

theorem seesData_of_nacking (ha : n.pAcken = false) (b : Byte) :
    n.seesData b =
      { n with
        pDr := b, pEvt := some (if n.pGc then 0x98 else 0x88),
        pState := if Config.pDeaddressOnNack then .idle else .addressed } := by
  simp [Node.seesData, Node.seesDataAt, hr, hp, ha]

end

/-- The foreign phases pending are no part of the data phase. -/
theorem seesData_foreign (n : Node) (b : Byte) (ph : List Phase) :
    { n with foreign := ph }.seesData b = { n.seesData b with foreign := ph } := by
  by_cases h : n.role = .peripheral ∧ n.pState = .addressed
  · cases ha : n.pAcken <;> simp [Node.seesData, Node.seesDataAt, h, ha]
  · simp [Node.seesData, Node.seesDataAt, h]

theorem acksData_of_idle (hp : n.pState = .idle) : n.acksData = false := by
  simp [Node.acksData, hp]

theorem holds_of_none (h : n.pEvt = none) : n.holds = false := by
  simp [Node.holds, h]

theorem Node.eq_of_foreign {ph : List Phase} (h : n.foreign = ph) : { n with foreign := ph } = n := by
  subst h
  rfl

end

/-! ## The first phase of what a foreign controller begins -/

section
variable {s : State} {rest : List Phase}

/-- With no phase pending the first of the new ones is next. -/
theorem foreignBegins_of_free (hc : s.comp = .openBus) (hf : s.self.foreign = []) (phs : List Phase) :
    foreignBegins phs s = foreignGoesOn (s.mapSelf fun n => { n with foreign := phs }) := by
  simp only [foreignBegins, hc]
  exact congrArg foreignGoesOn (s.mapSelf_congr (by rw [hf, List.nil_append]))

variable (hc : s.comp = .openBus) (hf : s.self.foreign = []) (he : s.self.pEvt = none)
include hc hf he

theorem foreignBegins_start :
    foreignBegins (.start :: rest) s = (s.emit .S).mapSelf fun n => { n with foreign := rest } := by
  rw [foreignBegins_of_free hc hf,
    foreignGoesOn_of_some (foreignPhase_start (rest := rest) (by simpa) (by simp) (holds_of_none (by simpa)))]
  simp [seesStart_fresh]

theorem foreignBegins_address (a : BitVec 7) :
    foreignBegins (.address a :: rest) s =
      (s.emit (.A (slaW a) (s.self.matchesAddress (slaW a)))).mapSelf fun n =>
        { n with foreign := rest }.seesAddress (slaW a) := by
  rw [foreignBegins_of_free hc hf, foreignGoesOn_of_some
    (foreignPhase_address (a := a) (rest := rest) (by simpa) (by simp) (holds_of_none (by simpa)))]
  simp [Node.matchesAddress]

theorem foreignBegins_data (b : Byte) :
    foreignBegins (.data b :: rest) s =
      (s.emit (.D b s.self.acksData)).mapSelf fun n => { n.seesData b with foreign := rest } := by
  rw [foreignBegins_of_free hc hf, foreignGoesOn_of_some
    (foreignPhase_data (a := b) (rest := rest) (by simpa) (by simp) (holds_of_none (by simpa)))]
  simp [Node.acksData, seesData_foreign]

/-! ### By format -/

theorem exec_addr_of_free (a : BitVec 7) :
    exec (.addr a false) s =
      .next ((s.emit (.A (slaW a) (s.self.matchesAddress (slaW a)))).mapSelf fun n => n.seesAddress (slaW a)) := by
  refine congrArg Host.Outcome.next ((foreignBegins_address hc hf he a).trans (State.mapSelf_congr _ ?_))
  rw [State.self_emit, Node.eq_of_foreign hf]

/-- The first byte is put on the bus and the other three wait (R62). -/
theorem exec_msg_of_free (f : BitVec 16) (a : BitVec 4) (rp : BitVec 12) :
    let m := msgWord f a rp
    exec (.msg f a rp) s =
      .next ((s.emit (.D (m.extractLsb' 0 8) s.self.acksData)).mapSelf fun n =>
        { n.seesData (m.extractLsb' 0 8) with
          foreign := [.data (m.extractLsb' 8 8), .data (m.extractLsb' 16 8), .data (m.extractLsb' 24 8)] }) :=
  congrArg Host.Outcome.next (foreignBegins_data hc hf he _)

/-- The start is put on the bus and the rest of the transaction waits (R93). -/
theorem exec_frame_of_free (a : BitVec 7) (m : Word) :
    exec (.frame a m) s = .next ((s.emit .S).mapSelf fun n =>
      { n with
        foreign := [.address a, .data (m.extractLsb' 0 8), .data (m.extractLsb' 8 8), .data (m.extractLsb' 16 8),
          .data (m.extractLsb' 24 8), .stop] }) :=
  congrArg Host.Outcome.next (foreignBegins_start hc hf he)

end

end Sys2Proof.Machine

namespace Sys2Proof.Proofs

open Sys2Proof Sys2Proof.Machine

/-- Settles O59: each format's first phase, at a peripheral that matches or not, is addressed or not. -/
theorem foreignPhasesReachThePeripheral : Obligations.ForeignPhasesReachThePeripheral := by
  intro s hc hr he hf
  refine ⟨fun a ha haddr => ?matched, fun a hnot => ?unmatched, fun f a rp => ⟨fun hp ha => ?acked, fun hp ha => ?nacked,
    fun hp => ?unaddressed⟩, exec_frame_of_free hc hf he⟩
  case matched =>
    have hm : s.self.matchesAddress (slaW a) = true := matchesAddress_slaW_iff.2 ⟨hr, ha, haddr⟩
    rw [exec_addr_of_free hc hf he, hm]
    refine congrArg _ (State.mapSelf_congr _ ?_)
    simp only [State.self_emit, seesAddress_of_matched hm, slaW_beq_gcW, beq_iff_eq]
  case unmatched =>
    have hm : s.self.matchesAddress (slaW a) = false := matchesAddress_slaW_eq_false (hnot.imp id not_or.2)
    rw [exec_addr_of_free hc hf he, hm]
    refine congrArg _ ((State.mapSelf_congr _ (g := fun n => n) ?_).trans (State.mapSelf_id _))
    rw [State.self_emit, seesAddress_of_not_matched hm]
  case acked =>
    rw [exec_msg_of_free hc hf he, acksData_of_addressed hr hp, ha]
    refine congrArg _ (State.mapSelf_congr _ ?_)
    rw [State.self_emit]
    simp only [seesData_of_acking hr hp ha]
  case nacked =>
    rw [exec_msg_of_free hc hf he, acksData_of_addressed hr hp, ha]
    refine congrArg _ (State.mapSelf_congr _ ?_)
    rw [State.self_emit]
    simp only [seesData_of_nacking hr hp ha]
  case unaddressed =>
    rw [exec_msg_of_free hc hf he, acksData_of_idle hp]
    refine congrArg _ (State.mapSelf_congr _ ?_)
    rw [State.self_emit]
    simp only [seesData_of_idle hp]

end Sys2Proof.Proofs
end

section
/-! SUPPORT. The family 40_bus_transport.md, the closed bus: what a step is where there is no ENV, that a fresh start and
a stop alone move the bus to an owner and back, which codes are ever latched; and the two statements on every step,
assembled from these. -/

namespace Sys2Proof.Machine

/-! ## Steps of the closed composition (R15) -/

theorem Turned.comp {s u : State} (h : Turned s u) : u.comp = s.comp := by
  obtain ⟨pa, pb, sc, c, rfl⟩ := h
  rfl

/-- In the closed composition there is no ENV: a step is an operation, a main program going on, or none (R14). -/
theorem step_cases_of_closed {s t : State} (h : step s = .next t) (hc : s.comp = .closed) :
    ∃ u, Turned s u ∧ u.comp = .closed ∧
      ((∃ i, Effect i u t ∧ (i.format = .hostop → u.self.busy = .idle)) ∨ t = resume u ∨ t = u) := by
  obtain ⟨u, hu, hcase⟩ := step_cases h
  have hcu : u.comp = .closed := hu.comp.trans hc
  refine ⟨u, hu, hcu, ?_⟩
  obtain ⟨i, hexec, -, hidle⟩ | rfl | ⟨c, d, rfl, -⟩ | rfl | rfl := hcase
  · exact .inl ⟨i, exec_effect hexec, fun hf => (hidle hf).1⟩
  · exact .inr (.inl rfl)
  · exact .inr (.inr (envEvent_of_closed hcu c d))
  · exact .inr (.inr (foreignGoesOn_of_closed hcu))
  · exact .inr (.inr rfl)

/-! ## Starts and stops (R127, R23) -/

section
variable {n n' : Node}

theorem Reaction.cOwn (h : Reaction n n') : n'.cOwn = n.cOwn := by
  obtain ⟨ps, gc, dr, e, rfl, -⟩ := h
  rfl

theorem Waited.cOwn (h : Waited n n') : n'.cOwn = n.cOwn := by
  obtain ⟨ak, e, pi, pa, bu, re, rfl, -⟩ := h
  rfl

/-- `end()` releases the bus in its stop phase, not before (R127). -/
@[simp] theorem cOwn_endWith (r : Result) (n : Node) : (endWith r n).cOwn = n.cOwn := by
  unfold endWith
  split
  · rfl
  · split <;> rfl

/-- Only an arbitration lost takes the bus away (R122, R126). -/
theorem cOwn_toError {r : Byte} (h : r ≠ 0x38) (n : Node) : (toError r n).cOwn = n.cOwn := if_neg h

theorem cOwn_afterAddress {r : Byte} (h : r ≠ 0x38) (k : CTask) (n : Node) : (afterAddress k r n).cOwn = n.cOwn := by
  unfold afterAddress
  split
  · cases k <;> rfl
  · cases k
    · exact cOwn_toError h n
    · exact (cOwn_endWith _ _).trans (cOwn_toError h n)

theorem cOwn_afterData {r : Byte} (h : r ≠ 0x38) (k : CTask) (n : Node) : (afterData k r n).cOwn = n.cOwn := by
  unfold afterData
  split
  · cases k
    · rfl
    · dsimp only
      split
      · rfl
      · exact cOwn_endWith _ _
  · cases k
    · exact cOwn_toError h n
    · exact (cOwn_endWith _ _).trans (cOwn_toError h n)

/-- A start is a repeated one exactly on an owned bus (R122, R123). -/
theorem Node.ControllerInv.owned_of_atStart (h : n.ControllerInv) {k : CTask} {rep : Bool}
    (hb : n.busy = .atStart k rep) : n.cOwn = rep := by
  have hin := h.inside
  rw [hb] at hin
  exact hin.2

/-- A stop is put on an owned bus only (R127). -/
theorem Node.ControllerInv.owned_of_atStop (h : n.ControllerInv) {r : Result} (hb : n.busy = .atStop r) :
    n.cOwn = true := by
  have hin := h.inside
  rw [hb] at hin
  exact hin.2

end

section
variable {s t u : State}

theorem State.Balanced.congr (hs : s.Balanced) (hwire : t.wire = s.wire) (hself : t.self.cOwn = s.self.cOwn)
    (hpeer : t.peer.cOwn = s.peer.cOwn) : t.Balanced := by
  rw [State.Balanced, State.owned_eq] at hs ⊢
  rw [hwire, hself, hpeer, hs]

theorem State.Balanced.mapSelf {f : Node → Node} (hs : s.Balanced) (hf : (f s.self).cOwn = s.self.cOwn) :
    (s.mapSelf f).Balanced :=
  hs.congr (s.wire_mapSelf f) (by rwa [State.self_mapSelf]) (by rw [State.peer_mapSelf])

theorem State.Balanced.emitCb_mapSelf {f : Node → Node} (hs : s.Balanced) (m : Word)
    (hf : (f s.self).cOwn = s.self.cOwn) : ((s.emitCb m).mapSelf f).Balanced :=
  State.Balanced.mapSelf (s := s.emitCb m) (hs.congr rfl rfl rfl) hf

theorem Turned.balanced (hu : Turned s u) (hs : s.Balanced) : u.Balanced := by
  obtain ⟨pa, pb, sc, c, rfl⟩ := hu
  exact hs

/-- A phase on the closed bus: a fresh start takes the bus, a stop gives it back, and every other phase leaves the bus
with its owner. -/
theorem controllerPhase_balanced (h : controllerPhase s = some t) (hc : s.comp = .closed)
    (hinv : s.self.ControllerInv) (hs : s.Balanced) : t.Balanced := by
  have hclosed : s.comp ≠ .openBus := by rw [hc]; decide
  rw [State.Balanced, State.owned_eq] at hs ⊢
  obtain ⟨k, rep, r, u, hb, hu, rfl⟩ | ⟨k, r, u, hb, hu, rfl⟩ | ⟨k, b, r, u, hb, hu, rfl⟩ | ⟨r, u, hb, hu, rfl⟩ :=
    controllerPhase_eq_some h
  · rcases busStart_eq_some hu with ⟨-, -, rfl, rfl⟩ | ⟨ho, -⟩
    · have hown := hinv.owned_of_atStart hb
      have hpeer := (seesStart_reaction s.peer rep).cOwn
      cases rep <;> simp [afterStart, isStartOk, hown, hpeer] at hs ⊢ <;> omega
    · exact absurd ho hclosed
  · rcases busAddress_eq_some hu with ⟨-, -, hr, rfl⟩ | ⟨ho, -⟩
    · have hlost : r ≠ 0x38 := by rw [hr]; split <;> decide
      have hpeer := (seesAddress_reaction s.peer (slaW s.self.sla)).cOwn
      simpa [cOwn_afterAddress hlost, hpeer] using hs
    · exact absurd ho hclosed
  · rcases busData_eq_some hu with ⟨-, -, hr, rfl⟩ | ⟨ho, -⟩
    · have hlost : r ≠ 0x38 := by rw [hr]; split <;> decide
      have hpeer := (seesData_reaction s.peer b).cOwn
      simpa [cOwn_afterData hlost, hpeer] using hs
    · exact absurd ho hclosed
  · rcases busStop_eq_some hu with ⟨-, -, rfl⟩ | ⟨ho, -⟩
    · have hown := hinv.owned_of_atStop hb
      have hpeer := (seesStop_reaction s.peer).cOwn
      simp [afterStop, hown, hpeer] at hs ⊢
      omega
    · exact absurd ho hclosed

theorem nextPhase_balanced (hc : s.comp = .closed) (hinv : s.self.ControllerInv) (hs : s.Balanced) :
    (nextPhase s).Balanced := by
  rcases nextPhase_cases s with ⟨-, he⟩ | hsome
  · rwa [he]
  · exact controllerPhase_balanced hsome hc hinv hs

/-- A controller's call puts its operation in progress, then its first phase on the bus. -/
theorem nextPhase_mapSelf_balanced {f : Node → Node} (hc : s.comp = .closed) (hinv : (f s.self).ControllerInv)
    (hf : (f s.self).cOwn = s.self.cOwn) (hs : s.Balanced) : (nextPhase (s.mapSelf f)).Balanced :=
  nextPhase_balanced (by rwa [State.comp_mapSelf]) (by rwa [State.self_mapSelf]) (hs.mapSelf hf)

theorem resume_balanced (hc : s.comp = .closed) (hinv : s.self.ControllerInv) (hs : s.Balanced) :
    (resume s).Balanced :=
  (nextPhase_balanced hc hinv hs).mapSelf (afterExpiry_waited _).cOwn

/-- Every operation keeps the balance: only a phase writes WIRE or C_OWN, and Link Configuration clears C_OWN only
where it is clear (R233). -/
theorem Effect.balanced {i : Instr} (h : Effect i s t) (hc : s.comp = .closed) (hinv : s.self.ControllerInv)
    (hs : s.Balanced) : t.Balanced := by
  cases h
  case returns | takes | initPeripheral | setsIE | enables | disables | rearms => exact hs.mapSelf (by simp)
  case initController hf hz hx hr ho => exact hs.mapSelf (by simp [ho])
  case starts hf k rep hr hstart =>
    refine nextPhase_mapSelf_balanced hc ⟨by simp, by simp, rfl, ?_⟩ rfl hs
    rcases hstart with ⟨rfl, hidle⟩ | ⟨rfl, -, ho⟩
    · exact hinv.idle_not_owned hidle
    · exact ho
  case writes hf b hr hopen ho => exact nextPhase_mapSelf_balanced hc ⟨by simp [toData], fun _ => ho, rfl⟩ rfl hs
  case ends =>
    exact nextPhase_mapSelf_balanced hc (endWith_controllerInv _ hinv.idle_not_owned) (cOwn_endWith _ _) hs
  case readsByte | polls | receives => exact hs.mapSelf (observe_waited _).cOwn
  case event c d hcode => rwa [envEvent_of_closed hc]
  case expires => exact hs.mapSelf (expire_waited _).cOwn
  case begins phs => rwa [foreignBegins_of_closed hc]
  case masked => exact hs
  case resets | stores | completes | stopCompletes | ignores => exact hs.mapSelf rfl
  case callsBack | stopCallsBack => exact hs.emitCb_mapSelf _ rfl

end

/-! ## The codes of the peripheral FSM (R133, R142) -/

/-- What the node has latched, if anything, is a code of the peripheral FSM. -/
def Node.OwnCode (n : Node) : Prop := ∀ c, n.pEvt = some c → c ∈ fsmCodes

section
variable {n n' : Node}

theorem Node.OwnCode.congr (h : n.OwnCode) (he : n'.pEvt = n.pEvt ∨ n'.pEvt = none) : n'.OwnCode := by
  intro c hc
  rcases he with he | he <;> rw [he] at hc
  · exact h c hc
  · cases hc

theorem Node.OwnCode.reaction (hr : Reaction n n') (h : n.OwnCode) : n'.OwnCode := by
  obtain ⟨ps, gc, dr, e, rfl, he | ⟨k, hk, he⟩⟩ := hr
  · exact h.congr (.inl he)
  · intro c hc
    exact Option.some.inj (he.symm.trans hc) ▸ hk

theorem ownCode_keptByTurns : KeptByTurns Node.OwnCode where
  calls _ h := h
  answers _ h := h
  pending _ h := h
  reaction := Node.OwnCode.reaction
  phase hp h := h.congr (.inl (controllerPhase_frame hp).self.pEvt)
  wait h := h.congr (afterExpiry_waited _).pEvt

end

/-- On the closed bus no operation latches another code: ENV, the one agent that would, is absent (R15, R143). -/
theorem Effect.ownCode {i : Instr} {s t : State} (h : Effect i s t) (hc : s.comp = .closed)
    (hs : s.Both Node.OwnCode) : t.Both Node.OwnCode := by
  have hself := hs.self
  have hkeep {u : State} : u.Both Node.OwnCode → (nextPhase u).Both Node.OwnCode := nextPhase_both ownCode_keptByTurns
  cases h
  case returns | takes | initController | initPeripheral | setsIE | enables | disables | rearms =>
    exact hs.mapSelf (hself.congr (by simp))
  case starts | writes => exact hkeep (hs.mapSelf hself)
  case ends => exact hkeep (hs.mapSelf (hself.congr (.inl (endWith_sequenced _ _).pEvt)))
  case readsByte hf ack hr =>
    exact hs.mapSelf (Node.OwnCode.congr (n := s.self.rearm ack) (hself.congr (.inr rfl)) (observe_waited _).pEvt)
  case polls | receives => exact hs.mapSelf (hself.congr (observe_waited _).pEvt)
  case event c d hcode => rwa [envEvent_of_closed hc]
  case expires => exact hs.mapSelf (hself.congr (expire_waited _).pEvt)
  case begins phs => rwa [foreignBegins_of_closed hc]
  case masked => exact hs
  case resets | stores | completes | stopCompletes | ignores => exact hs.mapSelf (hself.congr (.inr rfl))
  case callsBack | stopCallsBack => exact (hs.emitCb _).mapSelf (hself.congr (.inr rfl))

end Sys2Proof.Machine

namespace Sys2Proof.Proofs

open Sys2Proof Sys2Proof.Machine

/-- Settles O5: on the closed bus a fresh start takes the bus and a stop gives it back, and no other phase and no
operation changes either side. -/
theorem closedBusKeepsStartsAndStopsBalanced : Obligations.ClosedBusKeepsStartsAndStopsBalanced := by
  intro s t hinv hc hs h
  obtain ⟨u, hu, hcu, hcase⟩ := step_cases_of_closed h hc
  have hown : u.self.ControllerInv := (hu.both sequencerInv_keptByTurns (State.inv_iff.1 hinv).2).self.controller
  have hbal : u.Balanced := hu.balanced hs
  obtain ⟨i, heffect, -⟩ | rfl | rfl := hcase
  · exact heffect.balanced hcu hown hbal
  · exact resume_balanced hcu hown hbal
  · exact hbal

/-- Settles O9: the peripheral FSM's reactions latch its own codes, and on the closed bus nothing else latches. -/
theorem closedPeripheralProducesItsOwnCodes : Obligations.ClosedPeripheralProducesItsOwnCodes := by
  intro s t hc hs h
  obtain ⟨u, hu, hcu, hcase⟩ := step_cases_of_closed h hc
  have hown : u.Both Node.OwnCode := hu.both ownCode_keptByTurns hs
  obtain ⟨i, heffect, -⟩ | rfl | rfl := hcase
  · exact heffect.ownCode hcu hown
  · exact resume_both ownCode_keptByTurns hown
  · exact hown

end Sys2Proof.Proofs
end

section
/-! SUPPORT. The family 40_bus_transport.md, a controller's calls and phases: what each call comes to where it is not
refused, when a phase can begin and what it answers, and what follows each phase; and the statements on
`begin_as_controller`, `write_byte`, `send` and `end`, assembled from these. -/

namespace Sys2Proof.Machine

/-! ## A peripheral that a phase addresses, or passes by (R135 to R140) -/

section
variable {n : Node}

/-- An address byte is matched by a peripheral armed with ack if it is its own or the general call (R136, R137). -/
theorem matchesAddress_iff {a : Byte} :
    n.matchesAddress a = true ↔ n.role = .peripheral ∧ n.pAcken = true ∧ (a = slaW n.sla ∨ a = 0) := by
  simp only [Node.matchesAddress, gcW, Bool.and_eq_true, Bool.or_eq_true, beq_iff_eq, and_assoc]

theorem holds_eq_false_iff : n.holds = false ↔ ¬ (n.role = .peripheral ∧ n.pEvt.isSome = true) := by
  rw [← Bool.not_eq_true, Node.holds, Bool.and_eq_true, beq_iff_eq]

/-- A repeated start ends the transaction of an addressed peripheral (R140). -/
theorem seesStart_repeated_of_addressed (hr : n.role = .peripheral) (hp : n.pState = .addressed) :
    n.seesStart true = { n with pEvt := some 0xA0, pState := .idle } := by
  simp [Node.seesStart, hr, hp]

section
variable (h : ¬ (n.role = .peripheral ∧ n.pState = .addressed))
include h

theorem seesStart_of_not_addressed (rep : Bool) : n.seesStart rep = n :=
  if_neg fun ⟨hr, _, hp⟩ => h ⟨hr, hp⟩

theorem acksData_of_not_addressed : n.acksData = false := by
  rw [← Bool.not_eq_true]
  simp only [Node.acksData, Bool.and_eq_true, beq_iff_eq]
  exact fun ⟨hboth, _⟩ => h hboth

theorem seesData_of_not_addressed (b : Byte) : n.seesData b = n := if_neg h

end

end

/-! ## The peripheral FSM's reactions, in the truth values a phase reads (R136 to R140) -/

section
variable (n : Node)

theorem seesStart_eq (rep : Bool) :
    n.seesStart rep =
      if rep && (n.role == .peripheral && n.pState == .addressed) then { n with pEvt := some 0xA0, pState := .idle }
      else n := by
  simp only [Node.seesStart, Bool.and_eq_true, beq_iff_eq, and_left_comm]

theorem seesAddress_eq (a : Byte) :
    n.seesAddress a =
      if n.matchesAddress a then
        { n with pState := .addressed, pGc := a == 0, pEvt := some (if a = 0 then 0x70 else 0x60) }
      else n := by
  simp only [Node.seesAddress, gcW, beq_iff_eq]

theorem seesData_eq (b : Byte) :
    n.seesData b =
      if n.role == .peripheral && n.pState == .addressed then
        if n.pAcken then { n with pDr := b, pEvt := some (if n.pGc then 0x90 else 0x80) }
        else
          { n with
            pDr := b, pEvt := some (if n.pGc then 0x98 else 0x88),
            pState := if Config.pDeaddressOnNack then .idle else .addressed }
      else n := by
  simp only [Node.seesData, Node.seesDataAt, Bool.and_eq_true, beq_iff_eq]

theorem seesStop_eq :
    n.seesStop =
      if n.role == .peripheral && n.pState == .addressed then { n with pEvt := some 0xA0, pState := .idle } else n := by
  simp only [Node.seesStop, Bool.and_eq_true, beq_iff_eq]

end

/-! ## When a phase can begin, and what it answers (R120, R134) -/

section
variable {s u : State} {r : Byte}

/-- The next phase waits, the stop on the open bus apart: the peer holds the bus, or ENV has given no answer. -/
def State.PhaseWaits (s : State) : Prop :=
  (s.comp = .closed ∧ s.peer.holds = true) ∨ (s.comp = .openBus ∧ s.self.answers = [])

theorem busStart_iff {rep : Bool} :
    busStart rep s = some (r, u) ↔
      (s.comp = .closed ∧ s.peer.holds = false ∧ r = (if rep then 0x10 else 0x08) ∧
        u = (s.emit (if rep then .Sr else .S)).mapPeer fun n => n.seesStart rep) ∨
      (s.comp = .openBus ∧ ∃ rs, s.self.answers = r :: rs ∧
        u = (s.emit (if rep then .Sr else .S)).mapSelf fun n => { n with answers := rs }) := by
  refine ⟨busStart_eq_some, ?_⟩
  rintro (⟨hc, hh, rfl, rfl⟩ | ⟨hc, rs, ha, rfl⟩)
  · simp [busStart, hc, hh]
  · simp [busStart, hc, drawAnswer, ha]

theorem busAddress_iff {a : Byte} :
    busAddress a s = some (r, u) ↔
      (s.comp = .closed ∧ s.peer.holds = false ∧ r = (if s.peer.matchesAddress a then 0x18 else 0x20) ∧
        u = (s.emit (.A a (s.peer.matchesAddress a))).mapPeer fun n => n.seesAddress a) ∨
      (s.comp = .openBus ∧ ∃ rs, s.self.answers = r :: rs ∧
        u = (s.emit (.A a (r == 0x18))).mapSelf fun n => { n with answers := rs }) := by
  refine ⟨busAddress_eq_some, ?_⟩
  rintro (⟨hc, hh, rfl, rfl⟩ | ⟨hc, rs, ha, rfl⟩)
  · simp [busAddress, hc, hh]
  · simp [busAddress, hc, drawAnswer, ha]

theorem busData_iff {b : Byte} :
    busData b s = some (r, u) ↔
      (s.comp = .closed ∧ s.peer.holds = false ∧ r = (if s.peer.acksData then 0x28 else 0x30) ∧
        u = (s.emit (.D b s.peer.acksData)).mapPeer fun n => n.seesData b) ∨
      (s.comp = .openBus ∧ ∃ rs, s.self.answers = r :: rs ∧
        u = (s.emit (.D b (r == 0x28))).mapSelf fun n => { n with answers := rs }) := by
  refine ⟨busData_eq_some, ?_⟩
  rintro (⟨hc, hh, rfl, rfl⟩ | ⟨hc, rs, ha, rfl⟩)
  · simp [busData, hc, hh]
  · simp [busData, hc, drawAnswer, ha]

theorem busPhases_of_waits (h : s.PhaseWaits) (rep : Bool) (a b : Byte) :
    busStart rep s = none ∧ busAddress a s = none ∧ busData b s = none := by
  rcases h with ⟨hc, hh⟩ | ⟨hc, ha⟩
  · simp [busStart, busAddress, busData, hc, hh]
  · simp [busStart, busAddress, busData, drawAnswer, hc, ha]

/-- A phase leaves the controller's own registers to what follows it: it uses up an answer at most. -/
theorem busAddress_self {a : Byte} (h : busAddress a s = some (r, u)) : ∃ an, u.self = { s.self with answers := an } := by
  rcases busAddress_eq_some h with ⟨-, -, -, rfl⟩ | ⟨-, rs, -, rfl⟩
  · exact ⟨s.self.answers, by simp⟩
  · exact ⟨rs, by simp⟩

theorem busData_self {b : Byte} (h : busData b s = some (r, u)) : ∃ an, u.self = { s.self with answers := an } := by
  rcases busData_eq_some h with ⟨-, -, -, rfl⟩ | ⟨-, rs, -, rfl⟩
  · exact ⟨s.self.answers, by simp⟩
  · exact ⟨rs, by simp⟩

/-! ### Going on with a phase -/

theorem resume_atStart {t : CTask} {rep : Bool} (hb : s.self.busy = .atStart t rep)
    (hu : busStart rep s = some (r, u)) : resume s = u.mapSelf (afterStart t r) :=
  resume_of_phase (by simp [controllerPhase, hb, hu])

theorem resume_atAddress {t : CTask} (hb : s.self.busy = .atAddress t)
    (hu : busAddress (slaW s.self.sla) s = some (r, u)) : resume s = u.mapSelf (afterAddress t r) :=
  resume_of_phase (by simp [controllerPhase, hb, hu])

theorem resume_atData {t : CTask} {b : Byte} (hb : s.self.busy = .atData t b) (hu : busData b s = some (r, u)) :
    resume s = u.mapSelf (afterData t r) :=
  resume_of_phase (by simp [controllerPhase, hb, hu])

theorem controllerPhase_of_waits (h : s.PhaseWaits) (hb : ∀ r, s.self.busy ≠ .atStop r) : controllerPhase s = none := by
  rcases h with ⟨hc, hh⟩ | ⟨hc, ha⟩
  · exact controllerPhase_of_held hc hh
  · exact controllerPhase_of_unanswered hc ha hb

/-- A call whose first phase waits stands before it (R134). -/
theorem nextPhase_of_waits {f : Node → Node} (h : s.PhaseWaits) (hf : (f s.self).answers = s.self.answers)
    (hb : ∀ r, (f s.self).busy ≠ .atStop r) : nextPhase (s.mapSelf f) = s.mapSelf f := by
  refine nextPhase_of_none (controllerPhase_of_waits ?_ (by simpa using hb))
  simpa [State.PhaseWaits, hf] using h

end

/-! ## What follows a phase (R122, R126, R127, R160) -/

section
variable {n : Node} {r : Byte} {m : Word}

theorem isStartOk_iff : isStartOk r = true ↔ r = 0x08 ∨ r = 0x10 := by
  simp [isStartOk]

theorem endWith_toError_lost (res : Result) :
    endWith res (toError 0x38 n) = { n with cState := .idle, cOwn := false, busy := .idle, ret := res } :=
  endWith_not_owned (by simp [toError]) rfl res

theorem endWith_toError_owned (h : r ≠ 0x38) (ho : n.cOwn = true) (res : Result) :
    endWith res (toError r n) = { n with cState := .stop, busy := .atStop res } := by
  rw [endWith_owned (by simp [toError]) ((cOwn_toError h n).trans ho), toError, if_neg h]

/-- A `send` whose start failed is over, off the bus (R160). -/
theorem afterStart_send_failed (h : isStartOk r = false) :
    afterStart (.send m) r n =
      { n with
        busy := .idle, ret := .sent (some (.addressNotAcknowledged r)), cState := .idle, cOwn := false } := by
  rw [afterStart_send_error h, endWith_not_owned (by simp) rfl]
  rfl

/-- `send` goes on from byte CS_I to the next one (R102, R160). -/
theorem afterData_send_next (hc : n.cState = .data) (hi : n.csI.toNat < 3) :
    afterData (.send m) 0x28 n =
      { n with csI := n.csI + 1, busy := .atData (.send m) (m.extractLsb' (8 * (n.csI.toNat + 1)) 8) } := by
  rw [afterData_send_more hi, payloadByte, toNat_succ_of_lt_four (by omega), wordByte, ← hc]

end

/-! ## The calls, where they are not refused (R122, R123, R126, R127, R160) -/

section
variable {s : State} (h : s.self.CanControl)
include h

theorem exec_begin_eq :
    exec (.beginAsController true) s =
      match s.self.cState with
      | .idle => .next (nextPhase (s.mapSelf fun n => { n with cState := .start, busy := .atStart .call false }))
      | .address | .data =>
        if s.self.cOwn then
          .next (nextPhase (s.mapSelf fun n => { n with cState := .start, busy := .atStart .call true }))
        else .refused .badControllerState
      | .start | .stop | .error => .refused .badControllerState := by
  show execBeginAsController true s = _
  rw [execBeginAsController, refusedController_eq_none.2 h]
  rfl

theorem exec_begin_fresh (hc : s.self.cState = .idle) :
    exec (.beginAsController true) s =
      .next (nextPhase (s.mapSelf fun n => { n with cState := .start, busy := .atStart .call false })) := by
  rw [exec_begin_eq h, hc]

theorem exec_begin_repeated (hc : s.self.cState = .address ∨ s.self.cState = .data) (ho : s.self.cOwn = true) :
    exec (.beginAsController true) s =
      .next (nextPhase (s.mapSelf fun n => { n with cState := .start, busy := .atStart .call true })) := by
  rw [exec_begin_eq h]
  rcases hc with hc | hc <;> rw [hc] <;> exact if_pos ho

theorem exec_writeByte_eq (b : Byte) :
    exec (.writeByte b) s =
      match s.self.cState with
      | .address | .data =>
        if s.self.cOwn then .next (nextPhase (s.mapSelf (toData .call b))) else .refused .badControllerState
      | .idle | .start | .stop | .error => .refused .badControllerState := by
  show execWriteByte b s = _
  rw [execWriteByte, refusedController_eq_none.2 h]
  rfl

theorem exec_writeByte_open (hc : s.self.cState = .address ∨ s.self.cState = .data) (ho : s.self.cOwn = true)
    (b : Byte) : exec (.writeByte b) s = .next (nextPhase (s.mapSelf (toData .call b))) := by
  rw [exec_writeByte_eq h]
  rcases hc with hc | hc <;> rw [hc] <;> exact if_pos ho

theorem exec_send_eq (m : Word) :
    exec (.send m) s =
      if s.self.cState ≠ .idle then .refused .badControllerState
      else .next (nextPhase (s.mapSelf fun n => { n with cState := .start, busy := .atStart (.send m) false })) := by
  show execSend m s = _
  rw [execSend, refusedController_eq_none.2 h]
  rfl

theorem exec_send_idle (hc : s.self.cState = .idle) (m : Word) :
    exec (.send m) s =
      .next (nextPhase (s.mapSelf fun n => { n with cState := .start, busy := .atStart (.send m) false })) := by
  rw [exec_send_eq h, if_neg (not_not.2 hc)]

theorem exec_begin_refused (hc : s.self.cState ≠ .idle)
    (hopen : ¬ ((s.self.cState = .address ∨ s.self.cState = .data) ∧ s.self.cOwn = true)) :
    exec (.beginAsController true) s = .refused .badControllerState := by
  rw [exec_begin_eq h]
  cases hs : s.self.cState with
  | idle => exact absurd hs hc
  | address => exact if_neg fun ho => hopen ⟨.inl hs, ho⟩
  | data => exact if_neg fun ho => hopen ⟨.inr hs, ho⟩
  | start | stop | error => rfl

theorem exec_writeByte_refused (hopen : ¬ ((s.self.cState = .address ∨ s.self.cState = .data) ∧ s.self.cOwn = true))
    (b : Byte) : exec (.writeByte b) s = .refused .badControllerState := by
  rw [exec_writeByte_eq h]
  cases hs : s.self.cState with
  | address => exact if_neg fun ho => hopen ⟨.inl hs, ho⟩
  | data => exact if_neg fun ho => hopen ⟨.inr hs, ho⟩
  | idle | start | stop | error => rfl

theorem exec_send_refused (hc : s.self.cState ≠ .idle) (m : Word) :
    exec (.send m) s = .refused .badControllerState := by
  rw [exec_send_eq h, if_pos hc]

theorem exec_end : exec .endTransaction s = .next (nextPhase (s.mapSelf (endWith .unit))) := by
  show execEndTransaction s = _
  rw [execEndTransaction, refusedController_eq_none.2 h]
  rfl

end

/-! ## A call's first phase -/

section
variable {s : State} {f : Node → Node}

theorem nextPhase_start_closed {t : CTask} {rep : Bool} (hb : (f s.self).busy = .atStart t rep) (hc : s.comp = .closed)
    (hh : s.peer.holds = false) :
    nextPhase (s.mapSelf f) =
      ((s.emit (if rep then .Sr else .S)).mapPeer fun n => n.seesStart rep).mapSelf fun n =>
        { f n with cOwn := true, cState := .address, busy := .atAddress t } := by
  have hok : isStartOk (if rep then 0x10 else 0x08) = true := by cases rep <;> rfl
  rw [nextPhase_of_some (controllerPhase_start_closed (t := t) (rep := rep) (by simpa) (by simpa) (by simpa))]
  simp only [State.emit_mapSelf, State.mapPeer_mapSelf, State.mapSelf_mapSelf, afterStart_ok hok]

theorem nextPhase_start_open {t : CTask} {rep : Bool} {r : Byte} {rs : List Byte}
    (hb : (f s.self).busy = .atStart t rep) (hc : s.comp = .openBus) (ha : (f s.self).answers = r :: rs) :
    nextPhase (s.mapSelf f) =
      (s.emit (if rep then .Sr else .S)).mapSelf fun n => afterStart t r { f n with answers := rs } := by
  rw [nextPhase_of_some (controllerPhase_start_open (t := t) (rep := rep) (r := r) (rs := rs) (by simpa) (by simpa)
    (by simpa))]
  simp

theorem nextPhase_data_closed {t : CTask} {b : Byte} (hb : (f s.self).busy = .atData t b) (hc : s.comp = .closed)
    (hh : s.peer.holds = false) :
    nextPhase (s.mapSelf f) =
      ((s.emit (.D b s.peer.acksData)).mapPeer fun n => n.seesData b).mapSelf fun n =>
        afterData t (if s.peer.acksData then 0x28 else 0x30) (f n) := by
  rw [nextPhase_of_some (controllerPhase_data_closed (t := t) (b := b) (by simpa) (by simpa) (by simpa))]
  simp

theorem nextPhase_data_open {t : CTask} {b r : Byte} {rs : List Byte} (hb : (f s.self).busy = .atData t b)
    (hc : s.comp = .openBus) (ha : (f s.self).answers = r :: rs) :
    nextPhase (s.mapSelf f) =
      (s.emit (.D b (r == 0x28))).mapSelf fun n => afterData t r { f n with answers := rs } := by
  rw [nextPhase_of_some (controllerPhase_data_open (t := t) (b := b) (r := r) (rs := rs) (by simpa) (by simpa)
    (by simpa))]
  simp

theorem nextPhase_stop_closed {r : Result} (hb : (f s.self).busy = .atStop r) (hc : s.comp = .closed)
    (hh : s.peer.holds = false) :
    nextPhase (s.mapSelf f) =
      ((s.emit .P).mapPeer Node.seesStop).mapSelf fun n => afterStop r (f n) := by
  rw [nextPhase_of_some (controllerPhase_stop_closed (r := r) (by simpa) (by simpa) (by simpa))]
  simp

theorem nextPhase_stop_open {r : Result} (hb : (f s.self).busy = .atStop r) (hc : s.comp = .openBus) :
    nextPhase (s.mapSelf f) = (s.emit .P).mapSelf fun n => afterStop r (f n) := by
  rw [nextPhase_of_some (controllerPhase_stop_open (r := r) (by simpa) (by simpa))]
  simp

end

/-! ## A phase on the closed bus, as the change of three things -/

theorem State.phase_congr {s : State} {y y' : Sym} {f f' g g' : Node → Node} (hy : y = y')
    (hpeer : g s.peer = g' s.peer) (hself : f s.self = f' s.self) :
    ((s.emit y).mapPeer g).mapSelf f = ((s.emit y').mapPeer g').mapSelf f' := by
  rw [hy, (s.emit y').mapPeer_congr (f := g) (g := g') hpeer]
  exact State.mapSelf_congr _ (by simpa using hself)

theorem State.phase_congr_unheard {s : State} {y y' : Sym} {f f' g : Node → Node} (hy : y = y')
    (hpeer : g s.peer = s.peer) (hself : f s.self = f' s.self) :
    ((s.emit y).mapPeer g).mapSelf f = (s.emit y').mapSelf f' := by
  rw [State.phase_congr (f' := f') (g' := fun n => n) hy hpeer hself, State.mapPeer_id]

end Sys2Proof.Machine

namespace Sys2Proof.Proofs

open Sys2Proof Sys2Proof.Machine

/-- Settles O26: a wait by the tests the phase primitives make; each phase that is over by what it answered, then by what
follows that answer. -/
theorem latchedEventHoldsTheBus : Obligations.LatchedEventHoldsTheBus := by
  intro s held w hit addressed drawn
  refine ⟨fun hw => ⟨busPhases_of_waits hw, fun hcan => ⟨fun hidle => ?begins, fun hopen ho => ?beginsAgain,
    fun m hidle => ?sends, fun b hopen ho => ?writes⟩, fun t rep b hb => ?spins⟩,
    fun hc hh => ⟨?stopWaits, fun hcan hs ho => ?ends, fun r hb => ?stopSpins⟩, fun t rep r u hb hu => ?start,
    fun t r u hb hu => ?address, fun t b r u hb hu => ?data, fun r hb => ⟨fun hc hh => ?stopClosed, fun hc => ?stopOpen⟩⟩
  case begins => rw [exec_begin_fresh hcan hidle, nextPhase_of_waits hw rfl (by simp)]
  case beginsAgain => rw [exec_begin_repeated hcan hopen ho, nextPhase_of_waits hw rfl (by simp)]
  case sends => rw [exec_send_idle hcan hidle, nextPhase_of_waits hw rfl (by simp)]
  case writes =>
    rw [exec_writeByte_open hcan hopen ho, nextPhase_of_waits (f := toData .call b) hw rfl (by simp [toData])]
    rfl
  case spins =>
    have hnone : controllerPhase s = none := controllerPhase_of_waits hw (by rcases hb with h | h | h <;> simp [h])
    refine resume_of_waiting hnone ?_
    rcases hb with hb | hb | hb
    · exact .inl ⟨t, rep, hb⟩
    · exact .inr (by rw [hb]; rfl)
    · exact .inr (by rw [hb]; rfl)
  case stopWaits => simp only [busStop, hc]; exact if_pos hh
  case ends =>
    rw [exec_end hcan, nextPhase_of_none (controllerPhase_of_held (by simpa) (by rw [State.peer_mapSelf]; exact hh))]
    exact congrArg _ (State.mapSelf_congr _ (endWith_owned hs ho _))
  case stopSpins => exact resume_of_waiting (controllerPhase_of_held hc hh) (.inr (by rw [hb]; rfl))
  case start =>
    have hbus : busStart rep s = some (r, u) := busStart_iff.2 (hu.imp
      (fun ⟨hc, hh, hr, hu⟩ => ⟨hc, hh, hr, hu.trans (State.mapPeer_congr _ (seesStart_eq s.peer rep).symm)⟩) id)
    rw [resume_atStart hb hbus]
    refine ⟨fun hok => State.mapSelf_congr _ (afterStart_ok (isStartOk_iff.2 hok) t _), fun hbad => ?_⟩
    have hfailed : isStartOk r = false := Bool.eq_false_iff.2 (mt isStartOk_iff.1 hbad)
    constructor
    · rintro rfl; exact State.mapSelf_congr _ (afterStart_call_error hfailed _)
    · rintro m rfl; exact State.mapSelf_congr _ (afterStart_send_failed hfailed)
  case address =>
    have hbus : busAddress w s = some (r, u) := busAddress_iff.2 (hu.imp
      (fun ⟨hc, hh, hr, hu⟩ => ⟨hc, hh, hr, hu.trans (State.mapPeer_congr _ (seesAddress_eq s.peer w).symm)⟩) id)
    obtain ⟨an, hself⟩ := busAddress_self hbus
    rw [resume_atAddress hb hbus]
    refine ⟨?_, ?_⟩
    · rintro rfl; exact State.mapSelf_congr _ (afterAddress_call r _)
    · rintro m rfl
      refine ⟨?_, ?_, fun hnack hlost ho => ?_⟩
      · rintro rfl; exact State.mapSelf_congr _ (afterAddress_send_ack m _)
      · rintro rfl
        exact State.mapSelf_congr _ ((afterAddress_send_nack (by decide) m _).trans (endWith_toError_lost _))
      · exact State.mapSelf_congr _ ((afterAddress_send_nack hnack m _).trans
          (endWith_toError_owned hlost (by rw [hself]; exact ho) _))
  case data =>
    have hbus : busData b s = some (r, u) := busData_iff.2 (hu.imp
      (fun ⟨hc, hh, hr, hu⟩ => ⟨hc, hh, hr, hu.trans (State.mapPeer_congr _ (seesData_eq s.peer b).symm)⟩) id)
    obtain ⟨an, hself⟩ := busData_self hbus
    rw [resume_atData hb hbus]
    refine ⟨?_, ?_⟩
    · rintro rfl; exact State.mapSelf_congr _ (afterData_call r _)
    · rintro m rfl hs ho
      have hsu : u.self.cState = .data := by rw [hself]; exact hs
      have hou : u.self.cOwn = true := by rw [hself]; exact ho
      have hiu : u.self.csI = s.self.csI := by rw [hself]
      refine ⟨?_, ?_, ?_, fun hnack hlost => ?_⟩
      · rintro rfl hi; exact State.mapSelf_congr _ (afterData_send_next hsu (by rwa [hiu]))
      · rintro rfl hi
        exact State.mapSelf_congr _ ((afterData_send_last (by rw [hiu]; omega) m).trans
          (endWith_owned (by simp [hsu]) hou _))
      · rintro rfl
        exact State.mapSelf_congr _ ((afterData_send_nack (by decide) m _).trans (endWith_toError_lost _))
      · exact State.mapSelf_congr _ ((afterData_send_nack hnack m _).trans (endWith_toError_owned hlost hou _))
  case stopClosed =>
    rw [resume_of_phase (controllerPhase_stop_closed hb hc hh)]
    exact State.phase_congr rfl (seesStop_eq _) rfl
  case stopOpen => exact resume_of_phase (controllerPhase_stop_open hb hc)

/-- Settles O27: the start's answer opens the transaction or ends the call, the address's ends it. -/
theorem beginSendsStartAndAddress : Obligations.BeginSendsStartAndAddress := by
  intro s r0 r1 rest hcan hc ha hstate y
  obtain ⟨rep, hcall⟩ : ∃ rep, exec (.beginAsController true) s = .next ((s.emit y).mapSelf fun n =>
      afterStart .call r0 { n with cState := .start, busy := .atStart .call rep, answers := r1 :: rest }) := by
    rcases hstate with hidle | ⟨hopen, ho⟩
    · have hy : y = .S := if_pos hidle
      rw [exec_begin_fresh hcan hidle, nextPhase_start_open rfl hc ha, hy]
      exact ⟨false, rfl⟩
    · have hy : y = .Sr := if_neg (by rcases hopen with h | h <;> simp [h])
      rw [exec_begin_repeated hcan hopen ho, nextPhase_start_open rfl hc ha, hy]
      exact ⟨true, rfl⟩
  refine ⟨fun hok => ⟨_, ?_, rfl, ?_⟩, fun hbad => ?_⟩
  · rw [hcall]
    exact congrArg _ (State.mapSelf_congr _ (afterStart_ok (isStartOk_iff.2 hok) _ _))
  · rw [resume_of_phase (controllerPhase_address_open (t := .call) (r := r1) (rs := rest) (by simp) (by simpa) (by simp))]
    simp only [State.emit_mapSelf, State.mapSelf_mapSelf, State.self_mapSelf, State.self_emit, afterAddress_call,
      Bool.true_and]
  · rw [hcall]
    exact congrArg _ (State.mapSelf_congr _ (afterStart_call_error (Bool.eq_false_iff.2 (mt isStartOk_iff.1 hbad)) _))

/-- Settles O28: the start passes a peer that is not addressed; the address is matched or passes it. -/
theorem beginAddressesTheListeningPeripheral : Obligations.BeginAddressesTheListeningPeripheral := by
  intro s hc hfree
  have hh := holds_eq_false_iff.2 hfree
  refine ⟨fun hcan hidle => ?fresh, fun hcan hopen ho hnot => ?repeated, fun hb hr hack haddr => ?matched,
    fun hb hnot => ?unmatched⟩
  case fresh =>
    rw [exec_begin_fresh hcan hidle, nextPhase_start_closed rfl hc hh]
    exact congrArg _ (State.phase_congr_unheard rfl (seesStart_fresh _) rfl)
  case repeated =>
    rw [exec_begin_repeated hcan hopen ho, nextPhase_start_closed rfl hc hh]
    exact congrArg _ (State.phase_congr_unheard rfl (seesStart_of_not_addressed hnot true) rfl)
  case matched =>
    have hm : s.peer.matchesAddress (slaW s.self.sla) = true := matchesAddress_iff.2 ⟨hr, hack, haddr⟩
    rw [resume_of_phase (controllerPhase_address_closed hb hc hh), hm]
    refine State.phase_congr rfl ?_ ?_
    · simp [seesAddress_of_matched hm, gcW]
    · simp [afterAddress_call]
  case unmatched =>
    have hm : s.peer.matchesAddress (slaW s.self.sla) = false := Bool.eq_false_iff.2 (mt matchesAddress_iff.1 hnot)
    rw [resume_of_phase (controllerPhase_address_closed hb hc hh), hm]
    exact State.phase_congr_unheard rfl (seesAddress_of_not_matched hm) (by simp [afterAddress_call])

/-- Settles O29: the repeated start latches 0xA0 at the peer, and the event latched holds the bus. -/
theorem repeatedStartRaisesTheStopEvent : Obligations.RepeatedStartRaisesTheStopEvent := by
  intro s hcan hc hopen ho hr hp he
  refine ⟨_, ?_, ?_, rfl⟩
  · rw [exec_begin_repeated hcan hopen ho, nextPhase_start_closed rfl hc (holds_of_none he)]
    exact congrArg _ (State.phase_congr rfl (seesStart_repeated_of_addressed hr hp) rfl)
  · exact resume_of_waiting (controllerPhase_of_held (by simpa) (by simp [Node.holds, hr])) (.inr (by simp [Busy.afterPhase]))

/-- Settles O30: the data phase at a peer armed with ack, armed with nack, not addressed. -/
theorem writeByteDeliversToThePeripheral : Obligations.WriteByteDeliversToThePeripheral := by
  intro s b hcan hc hopen ho hfree
  rw [exec_writeByte_open hcan hopen ho, nextPhase_data_closed (f := toData .call b) rfl hc (holds_eq_false_iff.2 hfree)]
  refine ⟨fun hr hp ha => ?acked, fun hr hp ha => ?nacked, fun hnot => ?unaddressed⟩ <;> refine congrArg _ ?_
  case acked =>
    rw [acksData_of_addressed hr hp, ha]
    exact State.phase_congr rfl (seesData_of_acking hr hp ha b) (by simp [afterData_call, toData])
  case nacked =>
    rw [acksData_of_addressed hr hp, ha]
    exact State.phase_congr rfl (seesData_of_nacking hr hp ha b) (by simp [afterData_call, toData])
  case unaddressed =>
    rw [acksData_of_not_addressed hnot]
    exact State.phase_congr_unheard rfl (seesData_of_not_addressed hnot b) (by simp [afterData_call, toData])

/-- Settles O31: the data phase's answer ends the call. -/
theorem writeByteReturnsTheAnswer : Obligations.WriteByteReturnsTheAnswer := by
  intro s b r rest hcan hc hopen ho ha
  rw [exec_writeByte_open hcan hopen ho, nextPhase_data_open (f := toData .call b) rfl hc ha]
  refine congrArg _ (State.mapSelf_congr _ ?_)
  simp only [afterData_call, toData, State.self_emit, ho, Bool.true_and]

/-- Settles O32: `end` by C_STATE and C_OWN, and its stop phase by composition. -/
theorem endReleasesTheBusOnce : Obligations.EndReleasesTheBusOnce := by
  intro s hcan
  have hstops (hs : s.self.cState ≠ .idle) (ho : s.self.cOwn = true) : (endWith .unit s.self).busy = .atStop .unit := by
    rw [endWith_owned hs ho]
  have hended (hs : s.self.cState ≠ .idle) (ho : s.self.cOwn = true) : afterStop .unit (endWith .unit s.self) =
      { s.self with cState := .idle, cOwn := false, busy := .idle, ret := .unit } := by
    rw [endWith_owned hs ho]
    rfl
  refine ⟨fun hidle => ?idle, fun hs ho => ?lost, fun hs ho hc => ?openBus, fun hs ho hc hfree => ?closed⟩ <;>
    rw [exec_end hcan] <;> refine congrArg _ ?_
  case idle =>
    rw [nextPhase_of_none (controllerPhase_of_idle (by rw [State.self_mapSelf, endWith_idle hidle]; rfl))]
    exact State.mapSelf_congr _ (endWith_idle hidle _)
  case lost =>
    rw [nextPhase_of_none (controllerPhase_of_idle (by rw [State.self_mapSelf, endWith_not_owned hs ho]; rfl))]
    exact State.mapSelf_congr _ (endWith_not_owned hs ho _)
  case openBus =>
    rw [nextPhase_stop_open (hstops hs ho) hc]
    exact State.mapSelf_congr _ (hended hs ho)
  case closed =>
    rw [nextPhase_stop_closed (hstops hs ho) hc (holds_eq_false_iff.2 hfree)]
    exact State.phase_congr rfl rfl (hended hs ho)

/-- Settles O33: each call's test of C_STATE and C_OWN. -/
theorem errorStateAcceptsOnlyEnd : Obligations.ErrorStateAcceptsOnlyEnd := by
  intro s hcan
  refine ⟨fun hs => ?_, fun b hopen => exec_writeByte_refused hcan hopen b, fun m hs => exec_send_refused hcan hs m⟩
  apply exec_begin_refused hcan
  · rcases hs with hs | hs | hs | ⟨hs, -⟩
    case inr.inr.inr => exact hs
    all_goals rw [hs]; decide
  · rintro ⟨hopen, ho⟩
    rcases hs with hs | hs | hs | ⟨-, hno⟩
    case inr.inr.inr => rw [ho] at hno; cases hno
    all_goals rw [hs] at hopen; rcases hopen with h | h <;> cases h

end Sys2Proof.Proofs
end

section
/-! SUPPORT. The family 40_bus_transport.md, the peripheral and ENV: `rearm` and the two waits of the main program, an
event code presented, and a foreign controller's phases; and the five statements, assembled from these. -/

namespace Sys2Proof.Machine

/-! ## The waits (R131, R132) -/

section
variable {n : Node}

theorem afterExpiry_readByte (hb : n.busy = .readByte) : afterExpiry n = observe n := by
  simp [afterExpiry, hb]

theorem afterExpiry_pollEvent {T : Word} (hb : n.busy = .pollEvent T) : afterExpiry n = observe n := by
  simp [afterExpiry, hb]

theorem observe_readByte {c : Byte} (hb : n.busy = .readByte) (he : n.pEvt = some c) :
    observe n = n.finish (.byte n.pDr) := by
  simp [observe, hb, he]

theorem observe_pollEvent {T : Word} {c : Byte} (hb : n.busy = .pollEvent T) (he : n.pEvt = some c) :
    observe n = n.finish (.code c) := by
  simp [observe, hb, he]

/-- Nothing expires while an event is latched (R132). -/
theorem expire_of_some {c : Byte} (he : n.pEvt = some c) : expire n = n := by
  simp [expire, he]

theorem expire_pollEvent {T : Word} (hb : n.busy = .pollEvent T) (he : n.pEvt = none) :
    expire n = n.finish (.code Config.evTimeout) := by
  simp [expire, hb, he]

end

section
variable {s : State}

/-- A main program in no controller's operation serves its wait. -/
theorem resume_of_not_atPhase (hb : s.self.busy.atPhase = false) : resume s = s.mapSelf afterExpiry := by
  rw [resume, nextPhase_of_none (controllerPhase_of_not_atPhase hb)]

/-- A change that changes nothing. -/
theorem State.mapSelf_of_fixed {f : Node → Node} (h : f s.self = s.self) : s.mapSelf f = s :=
  (s.mapSelf_congr (g := fun n => n) h).trans s.mapSelf_id

/-- A poll that is not refused (R131, R132, R199). -/
theorem exec_readByte (h : s.self.CanServe) (ha : s.self.asyncEn = false) (ack : Bool) :
    exec (.readByte ack) s = .next (s.mapSelf fun n => observe { n.rearm ack with busy := .readByte }) := by
  show execReadByte ack s = _
  rw [execReadByte_eq, refusedReadByte_of_not_controller (by simp [h.1]), refusedPolling_eq_none.2 ⟨h, ha⟩,
    unlessRefused_none]

theorem exec_pollEvent (h : s.self.CanServe) (ha : s.self.asyncEn = false) (T : Word) :
    exec (.pollEvent T) s = .next (s.mapSelf fun n => observe { n with busy := .pollEvent T }) := by
  show execPollEvent T s = _
  rw [execPollEvent, refusedPolling_eq_none.2 ⟨h, ha⟩, unlessRefused_none]

end

/-! ## ENV's codes (R120, R143) -/

theorem isDataRx_iff {c : Byte} : isDataRx c = true ↔ c ∈ ([0x80, 0x88, 0x90, 0x98] : List Byte) := by
  simp only [isDataRx, isDataRxAck, isDataRxNack, Bool.or_eq_true, beq_iff_eq, List.mem_cons, List.not_mem_nil, or_false]
  tauto

/-- A row of the table is ENV presenting its code (log 7). -/
theorem exec_of_eventOf {i : Instr} {c d : Byte} (h : eventOf i = some (c, d)) (s : State) :
    exec i s = .next (envEvent c d s) := by
  cases i
  case evStart | evRstart | evSlawAck | evSlawNack | evTxdAck | evTxdNack | evArbLost | evOwnMatch | evOwnMatchArb
    | evGcMatch | evGcMatchArb | evRxdAckOwn | evRxdNackOwn | evRxdAckGc | evRxdNackGc | evStopRs => cases h; rfl
  all_goals cases h

theorem envEvent_of_controller {s : State} (hc : s.comp = .openBus) (hr : s.self.role = .controller) (c d : Byte) :
    envEvent c d s = s.mapSelf fun n => { n with answers := n.answers ++ [c] } := by
  simp [envEvent, hc, hr]

theorem envEvent_of_latched {s : State} (hc : s.comp = .openBus) (hr : s.self.role = .peripheral)
    (he : s.self.pEvt.isSome = true) (c d : Byte) : envEvent c d s = s := by
  have hnone : s.self.pEvt.isNone = false := by simpa using he
  simp [envEvent, hc, hr, hnone]

theorem seesStop_of_addressed {n : Node} (hr : n.role = .peripheral) (hp : n.pState = .addressed) :
    n.seesStop = { n with pEvt := some 0xA0, pState := .idle } := if_pos ⟨hr, hp⟩

end Sys2Proof.Machine

namespace Sys2Proof.Proofs

open Sys2Proof Sys2Proof.Machine

/-- Settles O34: `rearm` tests the role only. -/
theorem rearmArmsAndClears : Obligations.RearmArmsAndClears := by
  intro s ack hr
  show execRearm ack s = _
  rw [execRearm, refusedPeripheral_eq_none.2 hr]
  rfl

/-- Settles O35: the call arms and waits, and the wait is served by whatever is latched. -/
theorem readByteArmsThenWaits : Obligations.ReadByteArmsThenWaits := by
  intro s
  refine ⟨fun a hserve hasync => ?call, fun hb he => ?spins, fun c hb he => ?served⟩
  case call =>
    rw [exec_readByte hserve hasync]
    exact congrArg _ (State.mapSelf_congr _ (observe_of_none rfl))
  case spins =>
    rw [resume_of_not_atPhase (by rw [hb]; rfl)]
    exact State.mapSelf_of_fixed ((afterExpiry_readByte hb).trans (observe_of_none he))
  case served =>
    rw [resume_of_not_atPhase (by rw [hb]; rfl)]
    exact State.mapSelf_congr _ ((afterExpiry_readByte hb).trans (observe_readByte hb he))

/-- Settles O36: a poll observes at the call or while it waits, and expires only while nothing is latched. -/
theorem pollEventObservesOrExpires : Obligations.PollEventObservesOrExpires := by
  intro s
  refine ⟨fun T c hserve hasync he => ?atOnce, fun T hserve hasync he => ?waits, fun T c hb he => ⟨?observes, ?latched⟩,
    fun T hb he => ⟨?spins, ?expires⟩⟩
  case atOnce =>
    rw [exec_pollEvent hserve hasync]
    exact congrArg _ (State.mapSelf_congr _ (observe_pollEvent rfl he))
  case waits =>
    rw [exec_pollEvent hserve hasync]
    exact congrArg _ (State.mapSelf_congr _ (observe_of_none he))
  case observes =>
    rw [resume_of_not_atPhase (by rw [hb]; rfl)]
    exact State.mapSelf_congr _ ((afterExpiry_pollEvent hb).trans (observe_pollEvent hb he))
  case latched => exact congrArg _ (State.mapSelf_of_fixed (expire_of_some he))
  case spins =>
    rw [resume_of_not_atPhase (by rw [hb]; rfl)]
    exact State.mapSelf_of_fixed ((afterExpiry_pollEvent hb).trans (observe_of_none he))
  case expires => exact congrArg _ (State.mapSelf_congr _ (expire_pollEvent hb he))

/-- Settles O58: each row is its code presented, and what presenting a code does is said by role. -/
theorem envEventsAreLatchedOrAnswer : Obligations.EnvEventsAreLatchedOrAnswer := by
  refine ⟨fun i c d s hi hc => ⟨exec_of_eventOf hi s, fun hr => ?answer⟩, fun c d s hc hr => ⟨fun he => ?latched,
    fun he => envEvent_of_latched hc hr he c d⟩⟩
  case answer => rw [exec_of_eventOf hi, envEvent_of_controller hc hr]
  case latched => simp only [envEvent_of_listening c d hc hr he, isDataRx_iff]

/-- Settles O45: what each format begins, where a foreign controller's turn changes nothing, and its next phase, at a
node that is no peripheral and at one. -/
theorem foreignPhasesGoOn : Obligations.ForeignPhasesGoOn := by
  intro s
  refine ⟨?begun, fun hc hr ph rest hf => ?elsewhere, fun hstill => ?still, fun hc hr he rest => ?peripheral⟩
  case begun =>
    intro begun payload a m f x rp
    have hbegun (phs : List Phase) : .next (foreignBegins phs s) = begun phs := by
      simp only [begun]
      unfold foreignBegins
      cases s.comp <;> rfl
    exact ⟨hbegun _, hbegun _, hbegun _⟩
  case elsewhere =>
    rw [foreignGoesOn_of_some (foreignPhase_elsewhere hc hr hf)]
    cases ph <;> rfl
  case still =>
    rcases hstill with hc | hf | ⟨hr, he⟩
    · exact foreignGoesOn_of_closed hc
    · exact foreignGoesOn_of_none (foreignPhase_of_nil hf)
    · exact foreignGoesOn_of_none (foreignPhase_of_held (by simp [Node.holds, hr, he]))
  case peripheral =>
    have hh : s.self.holds = false := holds_of_none he
    refine ⟨fun hf => ?startPhase, fun a hf => ?addressPhase, fun b hf => ?dataPhase, fun hf => ?stopPhase⟩
    case startPhase =>
      rw [foreignGoesOn_of_some (foreignPhase_start hc hf hh)]
      exact State.mapSelf_congr _ (seesStart_fresh _)
    case addressPhase =>
      rw [foreignGoesOn_of_some (foreignPhase_address hc hf hh)]
      refine ⟨fun hack haddr => ?_, fun hnot => ?_⟩
      · have hm : s.self.matchesAddress (slaW a) = true := matchesAddress_slaW_iff.2 ⟨hr, hack, haddr⟩
        rw [hm]
        refine State.mapSelf_congr _ ((seesAddress_of_matched (n := { s.self with foreign := rest }) hm).trans ?_)
        simp only [slaW_beq_gcW, beq_iff_eq, State.self_emit]
      · have hm : s.self.matchesAddress (slaW a) = false := matchesAddress_slaW_eq_false (hnot.imp id not_or.2)
        rw [hm]
        exact State.mapSelf_congr _ (seesAddress_of_not_matched (n := { s.self with foreign := rest }) hm)
    case dataPhase =>
      rw [foreignGoesOn_of_some (foreignPhase_data hc hf hh)]
      refine ⟨fun hp hack => ?_, fun hp hack => ?_, fun hp => ?_⟩
      · rw [acksData_of_addressed hr hp, hack]
        exact State.mapSelf_congr _ (seesData_of_acking (n := { s.self with foreign := rest }) hr hp hack b)
      · rw [acksData_of_addressed hr hp, hack]
        exact State.mapSelf_congr _ (seesData_of_nacking (n := { s.self with foreign := rest }) hr hp hack b)
      · rw [acksData_of_idle hp]
        exact State.mapSelf_congr _ (seesData_of_idle (n := { s.self with foreign := rest }) hp b)
    case stopPhase =>
      rw [foreignGoesOn_of_some (foreignPhase_stop hc hf hh)]
      exact ⟨fun hp => State.mapSelf_congr _ (seesStop_of_addressed (n := { s.self with foreign := rest }) hr hp),
        fun hp => State.mapSelf_congr _ (seesStop_of_idle (n := { s.self with foreign := rest }) hp)⟩

end Sys2Proof.Proofs
end

section
/-! SUPPORT. The family 40_bus_transport.md, the handler's run for a latched event: what each branch comes to, and that a
run reads P_STATE nowhere; and the statement on P_DEADDRESS_ON_NACK, assembled from these. -/

namespace Sys2Proof.Machine

/-! ## Each branch where its step is enabled (R180 to R186) -/

section
variable {s : State} {c : Byte}

theorem Node.Ready.irqTaken {n : Node} (h : n.Ready c) : n.irqTaken c = true := by
  obtain ⟨hr, ha, hi, hx, he⟩ := h
  simp [Node.irqTaken, Node.irqEnabled, hr, ha, hi, hx, he]

theorem Node.ready_iff {n : Node} : n.Ready c ↔ n.irqEnabled = true ∧ n.pEvt = some c := by
  simp only [Node.Ready, Node.irqEnabled, Bool.and_eq_true, beq_iff_eq, and_assoc]

theorem role_of_irqEnabled {n : Node} (h : n.irqEnabled = true) : n.role = .peripheral := by
  simp only [Node.irqEnabled, Bool.and_eq_true, beq_iff_eq] at h
  exact h.1.1.1

/-- R186 -/
theorem exec_irqOther_of_ready (h : s.self.Ready c) :
    exec (.irqOther c) s = .next (s.mapSelf fun n => { n with pAcken := true, pEvt := none }) := by
  obtain ⟨-, -, -, hx, -⟩ := id h
  show execIrqOther c s = _
  rw [execIrqOther, if_pos h.irqTaken, handlerIgnores_eq hx]

/-- R181 -/
theorem exec_irqAddrMatch_of_ready {g a : Bool} (h : s.self.Ready (addrMatchCode g a)) :
    exec (.irqAddrMatch g a) s = .next (s.mapSelf fun n =>
      { n with cnt := 0, acc := 0, done := false, fired := false, pAcken := true, pEvt := none }) := by
  obtain ⟨-, -, -, hx, -⟩ := id h
  show execIrqAddrMatch g a s = _
  rw [execIrqAddrMatch, if_pos h.irqTaken, handlerRun_effect true rfl (by simp [Node.resetAssembly]) (by simpa using hx)]
  rfl

/-- R183 -/
theorem exec_irqDataAck_of_ready {g : Bool} (h : s.self.Ready (dataAckCode g)) (hn : s.self.cnt.toNat < 3) :
    exec (.irqDataAck g) s = .next (s.mapSelf fun n =>
      { n with
        acc := setLane n.acc n.cnt.toNat n.pDr, cnt := n.cnt + 1, pAcken := decide (n.cnt.toNat + 1 < 3),
        pEvt := none }) := by
  obtain ⟨-, -, -, hx, -⟩ := id h
  show execIrqDataAck g s = _
  rw [execIrqDataAck, if_pos h.irqTaken, if_pos hn, handlerRun_effect (decide (s.self.cnt.toNat + 1 < 3))
    (by simp only [State.self_mapSelf, Node.cnt_storeByte, toNat_succ_of_lt_four (c := s.self.cnt) (by omega)])
    (by simp [Node.storeByte]) (by simpa using hx)]
  exact congrArg _ (State.mapSelf_congr _ rfl)

/-- R185 where nothing is left to complete -/
theorem exec_irqStop_of_ready (h : s.self.Ready 0xA0) (hn : ¬ (s.self.cnt = 4 ∧ s.self.fired = false)) :
    exec .irqStop s = .next (s.mapSelf fun n => { n with pAcken := true, pEvt := none }) := by
  obtain ⟨-, -, -, hx, -⟩ := id h
  show execIrqStop s = _
  rw [execIrqStop, if_pos h.irqTaken, handlerRun]
  simp only [takeInterrupt, returnFromInterrupt, State.self_mapSelf, if_neg hn, andThen_next, State.mapSelf_mapSelf]
  exact congrArg _ (State.mapSelf_congr _ (by simp [Node.rearm, hx]))

/-- The full counter is fired already (R187, R189). -/
theorem Node.AssemblyInv.not_unfired {n : Node} (h : n.AssemblyInv) : ¬ (n.cnt = 4 ∧ n.fired = false) := by
  rintro ⟨hn, hf⟩
  rw [h.full_fired hn] at hf
  cases hf

section
variable {g : Bool} (h : s.self.Ready (dataNackCode g)) (hn : s.self.cnt.toNat < 4)
include h hn

/-- R184's run: the byte stored, the message completed, the peripheral armed with ack. -/
theorem exec_irqDataNack_eq :
    exec (.irqDataNack g) s =
      handlerRun (fun s => completeMessage (s.mapSelf Node.storeByte)) (fun _ => true) s := by
  show execIrqDataNack g s = _
  rw [execIrqDataNack, if_pos h.irqTaken, if_pos hn]

/-- R184 without a callback -/
theorem exec_irqDataNack_of_no_callback (hcb : s.self.cb = none) :
    exec (.irqDataNack g) s = .next (s.mapSelf fun n =>
      { n with
        acc := setLane n.acc n.cnt.toNat n.pDr, cnt := n.cnt + 1, done := true, fired := true, pAcken := true,
        pEvt := none }) := by
  obtain ⟨-, -, -, hx, -⟩ := id h
  rw [exec_irqDataNack_eq h hn, handlerRun, completeMessage_of_none (by simpa [takeInterrupt] using hcb)]
  simp only [takeInterrupt, returnFromInterrupt, andThen_next, State.mapSelf_mapSelf]
  exact congrArg _ (State.mapSelf_congr _ (by simp [Node.storeByte, Node.rearm, hx]))

/-- R184 with a callback of permitted calls -/
theorem exec_irqDataNack_of_callback {f : Byte} {m : Word} (hcb : s.self.cb = some f)
    (hm : m = setLane s.self.acc s.self.cnt.toNat s.self.pDr)
    (hp : ∀ i ∈ (s.self.hostFn f).calls m, Permitted i = true) :
    ∃ r, exec (.irqDataNack g) s = .next ((s.emitCb m).mapSelf fun n =>
      { n with
        acc := m, cnt := n.cnt + 1, fired := true, pAcken := true, pEvt := none, cbRet := r,
        done := !((s.self.hostFn f).calls m).contains .takeMessage }) := by
  obtain ⟨hr, -, -, hx, -⟩ := id h
  let u := (takeInterrupt s).mapSelf Node.storeByte
  have hacc : u.self.acc = m := by simp [u, takeInterrupt, hm]
  have hfn : u.self.hostFn f = s.self.hostFn f := Node.hostFn_of_fns (by simp [u, takeInterrupt]) f
  obtain ⟨r, hrun⟩ := completeMessage_of_some (s := u) (f := f) (by simpa [u, takeInterrupt] using hcb)
    (by simp [u, takeInterrupt]) (by simpa [u, takeInterrupt] using hr) (by rwa [hacc, hfn])
  refine ⟨r, ?_⟩
  rw [exec_irqDataNack_eq h hn, handlerRun, hrun, hacc, hfn]
  simp only [u, takeInterrupt, returnFromInterrupt, andThen_next, State.mapSelf_mapSelf, State.emitCb_mapSelf]
  exact congrArg _ (State.mapSelf_congr _ (by simp [Node.storeByte, Node.rearm, hx, hm]))

end

end

/-! ## A handler's run reads P_STATE nowhere -/

/-- The moving node's P_STATE is `p`. -/
def State.withPState (p : PState) (s : State) : State := s.mapSelf fun n => { n with pState := p }

/-- The operation comes to the same whatever P_STATE is, and leaves it. -/
def IgnoresPState (k : State → Out) : Prop :=
  ∀ (p : PState) (s : State), k (s.withPState p) = andThen (k s) fun t => .next (t.withPState p)

theorem IgnoresPState.next {k : State → State} (h : ∀ p s, k (s.withPState p) = (k s).withPState p) :
    IgnoresPState fun s => .next (k s) := fun p s => congrArg _ (h p s)

theorem ignoresPState_mapSelf {f : Node → Node} (h : ∀ p n, f { n with pState := p } = { f n with pState := p }) :
    IgnoresPState fun s => .next (s.mapSelf f) := .next fun p s => by
  simp only [State.withPState, State.mapSelf_mapSelf]
  exact State.mapSelf_congr _ (h p _)

theorem ignoresPState_refused (r : Refusal) : IgnoresPState fun _ => .refused r := fun _ _ => rfl

theorem IgnoresPState.andThen {j k : State → Out} (hj : IgnoresPState j) (hk : IgnoresPState k) :
    IgnoresPState fun s => andThen (j s) k := fun p s => by
  simp only [hj p s]
  cases j s with
  | next t => exact hk p t
  | fault r => cases r
  | refused r => rfl

theorem returns_withPState (r : Result) (p : PState) (n : Node) :
    { n with pState := p }.returns r = { n.returns r with pState := p } := by
  unfold Node.returns
  cases n.ctx <;> rfl

theorem pureResult_ignoresPState (r : Result) : IgnoresPState (pureResult r) :=
  ignoresPState_mapSelf fun p n => returns_withPState r p n

theorem unlessRefused_ignoresPState {k : State → Out} (hk : IgnoresPState k) :
    IgnoresPState fun s => unlessRefused (refusedPeripheral s.self) (k s) := fun p s => by
  have hsame : refusedPeripheral (s.withPState p).self = refusedPeripheral s.self := by
    simp only [State.withPState, State.self_mapSelf]; rfl
  simp only [hsame]
  cases refusedPeripheral s.self with
  | none => exact hk p s
  | some r => rfl

theorem callbackCall_ignoresPState (i : Instr) : IgnoresPState (callbackCall i) := by
  cases i
  case takeMessage =>
    refine unlessRefused_ignoresPState (ignoresPState_mapSelf fun p n => ?_)
    cases hd : n.done <;> simp [hd, Node.returns] <;> cases n.ctx <;> rfl
  case messageReady =>
    exact unlessRefused_ignoresPState (ignoresPState_mapSelf fun p n => returns_withPState _ p n)
  case build | buildWithAux | isValid | parity31 | getFlags | getAux | hasFlag | dispatch =>
    exact pureResult_ignoresPState _
  all_goals exact ignoresPState_refused _

theorem runCalls_ignoresPState : ∀ is : List Instr, IgnoresPState (runCalls is)
  | [] => fun _ _ => rfl
  | i :: is => (callbackCall_ignoresPState i).andThen (runCalls_ignoresPState is)

theorem invokeCallback_ignoresPState : IgnoresPState invokeCallback := fun p s => by
  have hself : (s.withPState p).self = { s.self with pState := p } := State.self_mapSelf _ _
  simp only [invokeCallback, hself]
  cases s.self.cb with
  | none => rfl
  | some f =>
    rw [← runCalls_ignoresPState _ p]
    simp only [State.withPState, State.emitCb_mapSelf, Node.hostFn]

theorem completeMessage_ignoresPState : IgnoresPState completeMessage :=
  IgnoresPState.andThen (ignoresPState_mapSelf fun _ _ => rfl) invokeCallback_ignoresPState

theorem handlerRun_ignoresPState {body : State → Out} (h : IgnoresPState body) :
    IgnoresPState (handlerRun body fun _ => true) :=
  (IgnoresPState.andThen (ignoresPState_mapSelf (f := fun n => { n with ctx := .irq }) fun _ _ => rfl) h).andThen
    (.next fun p s => by simp only [returnFromInterrupt, State.withPState, State.mapSelf_mapSelf]; rfl)

/-! ## A byte received with nack, and the stop after it (R184, R186, R187) -/

theorem irqBranch_dataNackCode_of_full {cnt : BitVec 3} (h : ¬ cnt.toNat < 4) (g : Bool) :
    irqBranch cnt (dataNackCode g) = .irqOther (dataNackCode g) := by
  cases g <;> simp [irqBranch, dataNackCode, h]

theorem irqBranch_stop (cnt : BitVec 3) : irqBranch cnt 0xA0 = .irqStop := by
  simp [irqBranch]

section
variable {s : State} {g : Bool} (h : s.self.Ready (dataNackCode g))
include h

theorem exec_nack_withPState (p : PState) :
    exec (irqBranch s.self.cnt (dataNackCode g)) (s.withPState p) =
      andThen (exec (irqBranch s.self.cnt (dataNackCode g)) s) fun t => .next (t.withPState p) := by
  have hself : (s.withPState p).self = { s.self with pState := p } := State.self_mapSelf _ _
  have h' : (s.withPState p).self.Ready (dataNackCode g) := by rw [hself]; exact h
  by_cases hn : s.self.cnt.toNat < 4
  · rw [irqBranch_dataNackCode hn, exec_irqDataNack_eq h hn, exec_irqDataNack_eq h' (by rw [hself]; exact hn)]
    exact handlerRun_ignoresPState
      (IgnoresPState.andThen (ignoresPState_mapSelf (f := Node.storeByte) fun _ _ => rfl) completeMessage_ignoresPState) p s
  · rw [irqBranch_dataNackCode_of_full hn, exec_irqOther_of_ready h, exec_irqOther_of_ready h']
    exact ignoresPState_mapSelf (f := fun n => { n with pAcken := true, pEvt := none }) (fun _ _ => rfl) p s

/-- A run for that byte that is not refused leaves the peripheral armed with ack, nothing latched and nothing to
complete. -/
theorem exec_nack_eq_next {t : State} (hinv : s.self.AssemblyInv)
    (ht : exec (irqBranch s.self.cnt (dataNackCode g)) s = .next t) :
    t.self.irqEnabled = true ∧ t.self.pEvt = none ∧ t.self.pAcken = true ∧
      ¬ (t.self.cnt = 4 ∧ t.self.fired = false) := by
  obtain ⟨he, -⟩ := Node.ready_iff.1 h
  obtain ⟨hr, -, -, hx, -⟩ := id h
  by_cases hn : s.self.cnt.toNat < 4
  · rw [irqBranch_dataNackCode hn, exec_irqDataNack_eq h hn] at ht
    obtain ⟨u, hu, ht⟩ := andThen_eq_next.1 ht
    cases ht
    rcases completeMessage_eq_next hu (by simp [takeInterrupt]) (by simpa [takeInterrupt] using hr) with
      ⟨-, rfl⟩ | ⟨-, d, r, rfl⟩ <;>
      simpa [takeInterrupt, returnFromInterrupt, Node.irqEnabled, hx] using he
  · rw [irqBranch_dataNackCode_of_full hn, exec_irqOther_of_ready h] at ht
    cases ht
    rw [State.self_mapSelf]
    exact ⟨he, rfl, rfl, hinv.not_unfired⟩

end

/-- The handler's run for what is latched, if anything is. -/
def handled (t : State) : Out :=
  match t.self.pEvt with
  | some c => exec (irqBranch t.self.cnt c) t
  | none => .next t

theorem handled_of_none {t : State} (h : t.self.pEvt = none) : handled t = .next t := by
  simp only [handled, h]

theorem handled_of_some {t : State} {c : Byte} (h : t.self.pEvt = some c) : handled t = exec (irqBranch t.self.cnt c) t := by
  simp only [handled, h]

/-- A stop, and the run for 0xA0 if it was latched, come to P_IDLE and nothing else. -/
theorem handled_stop {t : State} (he : t.self.irqEnabled = true) (hnone : t.self.pEvt = none)
    (hack : t.self.pAcken = true) (hn : ¬ (t.self.cnt = 4 ∧ t.self.fired = false)) :
    handled (t.mapSelf Node.seesStop) = .next (t.withPState .idle) := by
  cases hp : t.self.pState with
  | idle =>
    rw [State.mapSelf_of_fixed (seesStop_of_idle hp), handled_of_none hnone]
    exact congrArg _ (State.mapSelf_of_fixed (by rw [← hp])).symm
  | addressed =>
    have hr := role_of_irqEnabled he
    have hseen : t.mapSelf Node.seesStop = t.mapSelf fun n => { n with pEvt := some 0xA0, pState := .idle } :=
      State.mapSelf_congr _ (seesStop_of_addressed hr hp)
    rw [hseen, handled_of_some (c := 0xA0) (by rw [State.self_mapSelf]), irqBranch_stop,
      exec_irqStop_of_ready (by rw [State.self_mapSelf]; exact Node.ready_iff.2 ⟨he, rfl⟩)
        (by rw [State.self_mapSelf]; exact hn), State.mapSelf_mapSelf]
    exact congrArg _ (State.mapSelf_congr _ (by simp [hack, hnone]))

/-- The stop makes P_STATE idle whatever the run before it found there. -/
theorem handled_nack_then_stop {u : State} {g : Bool} (h : u.self.Ready (dataNackCode g)) (hinv : u.self.AssemblyInv) :
    andThen (handled (u.withPState .idle)) (fun t => handled (t.mapSelf Node.seesStop)) =
      andThen (handled u) fun t => handled (t.mapSelf Node.seesStop) := by
  have hevt := (Node.ready_iff.1 h).2
  have hself : (u.withPState .idle).self = { u.self with pState := .idle } := State.self_mapSelf _ _
  have hevt' : (u.withPState .idle).self.pEvt = some (dataNackCode g) := by rw [hself]; exact hevt
  have hcnt : (u.withPState .idle).self.cnt = u.self.cnt := by rw [hself]
  rw [handled_of_some hevt, handled_of_some hevt', hcnt, exec_nack_withPState h]
  cases hrun : exec (irqBranch u.self.cnt (dataNackCode g)) u with
  | next t =>
    obtain ⟨he, hnone, hack, hn⟩ := exec_nack_eq_next h hinv hrun
    have hself' : (t.withPState .idle).self = { t.self with pState := .idle } := State.self_mapSelf _ _
    simp only [andThen_next]
    rw [handled_stop he hnone hack hn, handled_stop (by rw [hself']; exact he) (by rw [hself']; exact hnone)
      (by rw [hself']; exact hack) (by rw [hself']; exact hn)]
    simp only [State.withPState, State.mapSelf_mapSelf]
  | fault r => cases r
  | refused r => rfl

/-! ## A data phase, for both values of P_DEADDRESS_ON_NACK (R138, R141) -/

theorem seesDataAt_but_pState (n : Node) (b : Byte) (d e : Bool) :
    { n.seesDataAt d b with pState := .idle } = { n.seesDataAt e b with pState := .idle } := by
  unfold Node.seesDataAt
  split
  · split <;> rfl
  · rfl

/-- Armed with ack it leaves P_STATE alone. -/
theorem seesDataAt_of_acking {n : Node} (h : n.pAcken = true) (b : Byte) (d e : Bool) :
    n.seesDataAt d b = n.seesDataAt e b := by
  simp [Node.seesDataAt, h]

theorem dataNackCode_eq (g : Bool) : dataNackCode g = if g then 0x98 else 0x88 := by
  cases g <;> rfl

theorem seesDataAt_of_nacking {n : Node} (hr : n.role = .peripheral) (hp : n.pState = .addressed)
    (h : n.pAcken = false) (b : Byte) (d : Bool) :
    n.seesDataAt d b =
      { n with
        pDr := b, pEvt := some (dataNackCode n.pGc), pState := if d then .idle else .addressed } := by
  simp [Node.seesDataAt, h, hr, hp, dataNackCode_eq]

end Sys2Proof.Machine

namespace Sys2Proof.Proofs

open Sys2Proof Sys2Proof.Machine

/-- Settles O60: armed with ack the data phase leaves P_STATE alone; armed with nack the handler's run leaves it as it
finds it and the stop makes it P_IDLE; and a fifth byte selects the default branch. -/
theorem deaddressOnNackNeverReachesTheAssembly : Obligations.DeaddressOnNackNeverReachesTheAssembly := by
  refine ⟨fun n b d => seesDataAt_but_pState n b d _, fun s b hinv he hnone => ?same, fun s b he hack hcnt => ?fifth⟩
  case same =>
    intro handled' rest hp
    have hr := role_of_irqEnabled he
    have hrest (d : Bool) : rest d =
        andThen (handled (s.mapSelf fun n => n.seesDataAt d b)) fun t => handled (t.mapSelf Node.seesStop) := rfl
    rw [hrest, hrest]
    cases hack : s.self.pAcken with
    | true =>
      have hphase : (s.mapSelf fun n => n.seesDataAt true b) = s.mapSelf fun n => n.seesDataAt false b :=
        State.mapSelf_congr _ (seesDataAt_of_acking hack b true false)
      rw [hphase]
    | false =>
      have hself : (s.mapSelf fun n => n.seesDataAt false b).self =
          { s.self with pDr := b, pEvt := some (dataNackCode s.self.pGc) } := by
        rw [State.self_mapSelf, seesDataAt_of_nacking hr hp hack, ← hp]
        rfl
      have hphase : (s.mapSelf fun n => n.seesDataAt true b) =
          (s.mapSelf fun n => n.seesDataAt false b).withPState .idle := by
        simp only [State.withPState, State.mapSelf_mapSelf]
        refine State.mapSelf_congr _ ?_
        simp only [seesDataAt_of_nacking hr hp hack]
        rfl
      rw [hphase]
      exact handled_nack_then_stop (g := s.self.pGc) (by rw [hself]; exact Node.ready_iff.2 ⟨he, rfl⟩)
        (by rw [hself]; exact hinv.congr rfl)
  case fifth =>
    have hr := role_of_irqEnabled he
    refine ⟨fun hp => ?_, fun hp => seesData_of_idle hp b⟩
    have hseen := seesData_of_acking hr hp hack b
    refine ⟨if s.self.pGc then 0x90 else 0x80, by rw [hseen], ?_⟩
    have hbranch : irqBranch s.self.cnt (if s.self.pGc then 0x90 else 0x80) =
        .irqOther (if s.self.pGc then 0x90 else 0x80) := by
      rw [hcnt]
      cases s.self.pGc <;> rfl
    rw [hbranch, exec_irqOther_of_ready (by rw [State.self_mapSelf, hseen]; exact Node.ready_iff.2 ⟨he, rfl⟩),
      State.mapSelf_mapSelf]
    exact congrArg _ (State.mapSelf_congr _ (by rw [hseen, hack]))

end Sys2Proof.Proofs
end

section
/-! SUPPORT. The family 40_bus_transport.md, one message over the closed link: what a turn of either node makes of the two
nodes, one byte and its service on either receive path, the beginning and the end of the transaction; and the statement
on the whole of it, assembled from these. -/

namespace Sys2Proof.Machine

/-! ## Runs -/

/-- `k` steps lead from `s` to a state with the property. -/
def State.Leads (k : Nat) (s : State) (Q : State → Prop) : Prop := ∃ t, core.run k s = .next t ∧ Q t

theorem leads_zero {s : State} {Q : State → Prop} (h : Q s) : s.Leads 0 Q := ⟨s, rfl, h⟩

theorem leads_succ {s u : State} {Q : State → Prop} {k : Nat} (h : step s = .next u) (hu : u.Leads k Q) :
    s.Leads (k + 1) Q := by
  obtain ⟨t, ht, hq⟩ := hu
  refine ⟨t, ?_, hq⟩
  have hstep : core.step s = .next u := h
  simp only [Host.Core.run, hstep, ht]

/-! ## The two nodes of the closed bus -/

/-- On the closed bus node `n` is `N` and the other one `M`, with these histories and these turns to come. -/
structure State.Linked (s : State) (n : NodeId) (N M : Node) (w : List Sym) (l : List Word) (turns : List Turn) :
    Prop where
  node : s.node n = N
  other : s.node n.other = M
  comp : s.comp = .closed
  wire : s.wire = w
  cblog : s.cblog = l
  sched : s.sched = turns

section
variable {s u : State} {n : NodeId} {N M : Node} {w : List Sym} {l : List Word} {turns : List Turn}

theorem State.Linked.symm (h : s.Linked n N M w l turns) : s.Linked n.other M N w l turns :=
  ⟨h.other, by rw [NodeId.other_other]; exact h.node, h.comp, h.wire, h.cblog, h.sched⟩

theorem State.Linked.of_symm (h : s.Linked n.other M N w l turns) : s.Linked n N M w l turns := by
  simpa using h.symm

theorem State.Linked.turnOf {T : Turn} (h : s.Linked n N M w l (T :: turns)) :
    (s.turnOf n turns).Linked n N M w l turns := by
  obtain ⟨hn, ho, hc, hw, hl, -⟩ := h
  cases n <;> exact ⟨hn, ho, hc, hw, hl, rfl⟩

/-! ### What the moving node's operation makes of them -/

section
variable (h : u.Linked n N M w l turns) (hcur : u.cur = n)
include h hcur

theorem State.Linked.self : u.self = N := by rw [State.self, hcur, h.node]

theorem State.Linked.peer : u.peer = M := by rw [State.peer, hcur, h.other]

theorem State.Linked.mapSelf (f : Node → Node) : (u.mapSelf f).Linked n (f N) M w l turns := by
  have hself := (u.self_mapSelf f).trans (congrArg f (h.self hcur))
  have hpeer := (u.peer_mapSelf f).trans (h.peer hcur)
  simp only [State.self, State.peer, State.cur_mapSelf, hcur] at hself hpeer
  exact ⟨hself, hpeer, by simpa using h.comp, by simpa using h.wire, by simpa using h.cblog, by simpa using h.sched⟩

theorem State.Linked.phase (y : Sym) (g f : Node → Node) :
    (((u.emit y).mapPeer g).mapSelf f).Linked n (f N) (g M) (w ++ [y]) l turns := by
  have hself := h.self hcur
  have hpeer := h.peer hcur
  have hself' : (((u.emit y).mapPeer g).mapSelf f).self = f N := by simp [hself]
  have hpeer' : (((u.emit y).mapPeer g).mapSelf f).peer = g M := by simp [hpeer]
  simp only [State.self, State.peer, State.cur_mapSelf, State.cur_mapPeer, State.cur_emit, hcur] at hself' hpeer'
  exact ⟨hself', hpeer', by simpa using h.comp, by simp [h.wire], by simpa using h.cblog, by simpa using h.sched⟩

end

theorem State.Linked.emitCb (h : u.Linked n N M w l turns) (m : Word) : (u.emitCb m).Linked n N M w (l ++ [m]) turns :=
  ⟨by rw [State.node_emitCb, h.node], by rw [State.node_emitCb, h.other], h.comp, h.wire, by simp [h.cblog], h.sched⟩

/-! ### The turns -/

/-- A main program's next call. -/
theorem State.Linked.step_call {i : Instr} {calls : List (List Byte)} (h : s.Linked n N M w l (.main n :: turns))
    (hf : i.format = .hostop) (hx : N.ctx = .main) (hb : N.busy = .idle) (hp : N.prog = encode i :: calls) :
    ∃ u : State, u.cur = n ∧ u.Linked n { N with prog := calls } M w l turns ∧ step s = exec i u := by
  have hdecode : decode .hostop (s.node n).cnt (encode i) = .ok (i, []) := by
    have hround := decode_encode i (s.node n).cnt [] (wellFormed_of_format_ne_irq (by simp [hf])) (by simp [hf])
    rwa [hf, List.append_nil] at hround
  refine ⟨(s.turnOf n turns).mapSelf fun x => { x with prog := calls }, by simp [State.turnOf],
    h.turnOf.mapSelf rfl _, ?_⟩
  exact step_main_of_call h.sched (by rw [h.node]; exact hx) (by rw [h.node]; exact hb) (by rw [h.node]; exact hp) hdecode

/-- A main program inside an operation. -/
theorem State.Linked.step_inside (h : s.Linked n N M w l (.main n :: turns)) (hx : N.ctx = .main)
    (hb : N.busy ≠ .idle) : ∃ u : State, u.cur = n ∧ u.Linked n N M w l turns ∧ step s = .next (resume u) :=
  ⟨s.turnOf n turns, rfl, h.turnOf,
    step_main_of_inside h.sched (by rw [h.node]; exact hx) (by rw [h.node]; exact hb)⟩

/-- An interrupt context whose handler's step is enabled. -/
theorem State.Linked.step_handler {c : Byte} {i : Instr} (h : s.Linked n N M w l (.irq n :: turns)) (hr : N.Ready c)
    (hi : irqBranch N.cnt c = i) : ∃ u : State, u.cur = n ∧ u.Linked n N M w l turns ∧ step s = exec i u := by
  obtain ⟨he, hc⟩ := Node.ready_iff.1 hr
  rw [← h.node] at he hc hi
  refine ⟨s.turnOf n turns, rfl, h.turnOf, ?_⟩
  rw [← hi]
  simp only [step, fetch, h.sched, Turn.node, fetchIrq]
  have hself : ({ s with sched := turns, cur := n } : State).self = s.node n := rfl
  simp only [hself, hc, he, if_true]
  rfl

/-- An interrupt context with nothing latched has no step. -/
theorem State.Linked.step_no_event (h : s.Linked n N M w l (.irq n :: turns)) (hnone : N.pEvt = none) :
    ∃ u : State, u.Linked n N M w l turns ∧ step s = .next u := by
  rw [← h.node] at hnone
  refine ⟨s.turnOf n turns, h.turnOf, ?_⟩
  simp only [step, fetch, h.sched, Turn.node, fetchIrq]
  have hself : ({ s with sched := turns, cur := n } : State).self = s.node n := rfl
  simp only [hself, hnone]
  rfl

/-- The controller's next phase. -/
theorem State.Linked.address_phase {t : CTask} (h : s.Linked n N M w l (.main n :: turns)) (hx : N.ctx = .main)
    (hb : N.busy = .atAddress t) (hh : M.holds = false) :
    ∃ u : State, step s = .next u ∧
      u.Linked n (afterAddress t (if M.matchesAddress (slaW N.sla) then 0x18 else 0x20) N) (M.seesAddress (slaW N.sla))
        (w ++ [Sym.A (slaW N.sla) (M.matchesAddress (slaW N.sla))]) l turns := by
  obtain ⟨u, hcur, hu, hstep⟩ := h.step_inside hx (by simp [hb])
  have hphase := controllerPhase_address_closed (t := t) (by rw [hu.self hcur]; exact hb) hu.comp
    (by rw [hu.peer hcur]; exact hh)
  rw [hu.self hcur, hu.peer hcur] at hphase
  exact ⟨_, hstep.trans (congrArg _ (resume_of_phase hphase)), hu.phase hcur _ _ _⟩

theorem State.Linked.data_phase {t : CTask} {b : Byte} (h : s.Linked n N M w l (.main n :: turns)) (hx : N.ctx = .main)
    (hb : N.busy = .atData t b) (hh : M.holds = false) :
    ∃ u : State, step s = .next u ∧
      u.Linked n (afterData t (if M.acksData then 0x28 else 0x30) N) (M.seesData b) (w ++ [Sym.D b M.acksData]) l
        turns := by
  obtain ⟨u, hcur, hu, hstep⟩ := h.step_inside hx (by simp [hb])
  have hphase := controllerPhase_data_closed (t := t) (b := b) (by rw [hu.self hcur]; exact hb) hu.comp
    (by rw [hu.peer hcur]; exact hh)
  rw [hu.peer hcur] at hphase
  exact ⟨_, hstep.trans (congrArg _ (resume_of_phase hphase)), hu.phase hcur _ _ _⟩

theorem State.Linked.stop_phase {r : Result} (h : s.Linked n N M w l (.main n :: turns)) (hx : N.ctx = .main)
    (hb : N.busy = .atStop r) (hh : M.holds = false) :
    ∃ u : State, step s = .next u ∧ u.Linked n (afterStop r N) M.seesStop (w ++ [Sym.P]) l turns := by
  obtain ⟨u, hcur, hu, hstep⟩ := h.step_inside hx (by simp [hb])
  have hphase := controllerPhase_stop_closed (r := r) (by rw [hu.self hcur]; exact hb) hu.comp
    (by rw [hu.peer hcur]; exact hh)
  exact ⟨_, hstep.trans (congrArg _ (resume_of_phase hphase)), hu.phase hcur _ _ _⟩

/-- A peripheral's main program serves its wait. -/
theorem State.Linked.serves {N' : Node} (h : s.Linked n N M w l (.main n :: turns)) (hx : N.ctx = .main)
    (hb : N.busy ≠ .idle) (hp : N.busy.atPhase = false) (hN : afterExpiry N = N') :
    ∃ u : State, step s = .next u ∧ u.Linked n N' M w l turns := by
  obtain ⟨u, hcur, hu, hstep⟩ := h.step_inside hx hb
  have hres := resume_of_not_atPhase (s := u) (by rw [hu.self hcur]; exact hp)
  exact ⟨_, hstep.trans (congrArg _ hres), hN ▸ hu.mapSelf hcur _⟩

/-- An interrupt context's handler run that only changes the node. -/
theorem State.Linked.handler {c : Byte} {i : Instr} {f : Node → Node} (h : s.Linked n N M w l (.irq n :: turns))
    (hr : N.Ready c) (hi : irqBranch N.cnt c = i) (hexec : ∀ u : State, u.self = N → exec i u = .next (u.mapSelf f)) :
    ∃ u : State, step s = .next u ∧ u.Linked n (f N) M w l turns := by
  obtain ⟨u, hcur, hu, hstep⟩ := h.step_handler hr hi
  exact ⟨_, hstep.trans (hexec u (hu.self hcur)), hu.mapSelf hcur f⟩

end

/-! ## `receive_blocking` (R170, R172) -/

theorem exec_receiveBlocking {s : State} (h : s.self.CanServe) (ha : s.self.asyncEn = false) :
    exec .receiveBlocking s =
      .next (s.mapSelf fun n => observe { n with pbAcc := 0, pbI := 0, busy := .recvAddress }) := by
  show execReceiveBlocking s = _
  rw [execReceiveBlocking, refusedPolling_eq_none.2 ⟨h, ha⟩, unlessRefused_none]

section
variable {n : Node} {c : Byte}

theorem afterExpiry_recvAddress (hb : n.busy = .recvAddress) (he : n.pEvt = some c) (hc : isAddrMatch c = true) :
    afterExpiry n = { n with pbI := 0, pAcken := true, pEvt := none, busy := .recvData } := by
  simp [afterExpiry, observe, hb, he, recvAddressOn, recvAddressOnAt, hc, Node.rearm]

theorem afterExpiry_recvData_more (hb : n.busy = .recvData) (he : n.pEvt = some c) (hc : isDataRx c = true)
    (hi : n.pbI.toNat < 3) :
    afterExpiry n =
      { n with
        pbAcc := setLane n.pbAcc n.pbI.toNat n.pDr, pbI := n.pbI + 1, pAcken := decide (n.pbI.toNat + 1 < 3),
        pEvt := none } := by
  simp only [afterExpiry, observe, hb, he, recvDataOn, hc, hi, if_true, Node.rearm,
    toNat_succ_of_lt_four (c := n.pbI) (by omega)]

theorem afterExpiry_recvData_last (hb : n.busy = .recvData) (he : n.pEvt = some c) (hc : isDataRx c = true)
    (hi : n.pbI = 3) :
    afterExpiry n =
      { n with
        pbAcc := setLane n.pbAcc 3 n.pDr, pAcken := true, pEvt := none, busy := .idle,
        ret := .message (setLane n.pbAcc 3 n.pDr) } := by
  simp [afterExpiry, observe, hb, he, recvDataOn, hc, hi, Node.rearm, Node.finish]

end

/-! ## One transaction (R160, R163, R183, R170) -/

/-- The node once its program has made the call, `calls` to come. -/
def Node.called (n : Node) (calls : List (List Byte)) : Node := { n with prog := calls }

/-- The controller in `send(m)`, before the data phase of byte `i`. -/
def Node.sends (n : Node) (m : Word) (i : BitVec 3) : Node :=
  { n with cState := .data, cOwn := true, csI := i, busy := .atData (.send m) (payloadByte m i) }

/-- The controller whose `send` ends with byte 3 not acknowledged, before its stop phase. -/
def Node.sendStops (n : Node) : Node :=
  { n with cState := .stop, cOwn := true, csI := 3, busy := .atStop (.sent (some (.byteNotAcknowledged 3))) }

/-- The addressed peripheral with `i` bytes in ACC, armed for the next one. -/
def Node.assembles (n : Node) (acc : Word) (i : BitVec 3) (ack : Bool) (dr : Byte) : Node :=
  { n with
    pState := .addressed, pGc := false, pAcken := ack, pEvt := none, pDr := dr, cnt := i, acc := acc, done := false,
    fired := false }

/-- The peripheral in `receive_blocking`, before the address match, its program going on with `calls`. -/
def Node.awaits (n : Node) (calls : List (List Byte)) : Node :=
  { n with prog := calls, pbAcc := 0, pbI := 0, busy := .recvAddress }

/-- The addressed peripheral in `receive_blocking` with `i` bytes in PB_ACC, armed for the next one. -/
def Node.receives (n : Node) (acc : Word) (i : BitVec 3) (ack : Bool) (dr : Byte) : Node :=
  { n with
    pState := .addressed, pGc := false, pAcken := ack, pEvt := none, pDr := dr, pbI := i, pbAcc := acc,
    busy := .recvData }

/-- The peripheral once the handler has completed the message. -/
def Node.completed (n : Node) (acc : Word) (ps : PState) (d : Bool) (r : Result) (dr : Byte) : Node :=
  { n with
    pState := ps, pGc := false, pAcken := true, pEvt := none, pDr := dr, cnt := 4, acc := acc, done := d,
    fired := true, cbRet := r }

/-- The peripheral once `receive_blocking` has returned the message. -/
def Node.received (n : Node) (acc : Word) (ps : PState) (dr : Byte) : Node :=
  { n with
    pState := ps, pGc := false, pAcken := true, pEvt := none, pDr := dr, pbI := 3, pbAcc := acc, busy := .idle,
    ret := .message acc }

/-- P_STATE after a byte received with nack (R138, R141). -/
def afterNack : PState := if Config.pDeaddressOnNack then .idle else .addressed

section
variable {s : State} {c : NodeId} {C P : Node} {m : Word} {w : List Sym} {l : List Word} {turns : List Turn} {k : Nat}
  {Q : State → Prop}

/-- The start and the address of a `send` to a listening peripheral with the controller's own address. -/
theorem State.Linked.opens {calls : List (List Byte)} (hC : C.CanControl) (hs : C.cState = .idle) (hb : C.busy = .idle)
    (hp : C.prog = encode (.send m) :: calls) (hne : C.sla ≠ 0) (hsla : P.sla = C.sla) (hr : P.role = .peripheral)
    (hack : P.pAcken = true) (hnone : P.pEvt = none) (h : s.Linked c C P w l (.main c :: .main c :: turns))
    (hk : ∀ t : State, t.Linked c ((C.called calls).sends m 0)
      { P with pState := .addressed, pGc := false, pEvt := some 0x60 }
      (w ++ [Sym.S] ++ [Sym.A (slaW C.sla) true]) l turns →
        t.Leads k Q) : s.Leads (k + 2) Q := by
  obtain ⟨u, hcur, hu, hcall⟩ := h.step_call rfl hC.2 hb hp
  have hself := hu.self hcur
  have hpeer := hu.peer hcur
  rw [exec_send_idle (by rw [hself]; exact hC) (by rw [hself]; exact hs),
    nextPhase_start_closed rfl hu.comp (by rw [hpeer]; exact holds_of_none hnone)] at hcall
  have hstart := hu.phase hcur .S (fun n => n.seesStart false) fun n =>
    { n with cOwn := true, cState := .address, busy := .atAddress (.send m) }
  rw [seesStart_fresh] at hstart
  refine leads_succ hcall ?_
  obtain ⟨v, hstep, hv⟩ := hstart.address_phase hC.2 rfl (holds_of_none hnone)
  have hm : P.matchesAddress (slaW C.sla) = true := matchesAddress_slaW_iff.2 ⟨hr, hack, .inl hsla.symm⟩
  have hgc : (slaW C.sla == gcW) = false := by rw [slaW_beq_gcW]; exact beq_false_of_ne hne
  simp only [hm, if_true, afterAddress_send_ack, seesAddress_of_matched hm, hgc] at hv
  exact leads_succ hstep (hk v hv)

/-- The stop phase, at a peripheral still addressed or not. -/
theorem State.Linked.stops (hC : C.ctx = .main) (hnone : P.pEvt = none)
    (h : s.Linked c C.sendStops P w l (.main c :: turns))
    (hk : ∀ t : State, t.Linked c (afterStop (.sent (some (.byteNotAcknowledged 3))) C.sendStops) P.seesStop
      (w ++ [Sym.P]) l turns → t.Leads k Q) : s.Leads (k + 1) Q := by
  obtain ⟨u, hstep, hu⟩ := h.stop_phase hC rfl (holds_of_none hnone)
  exact leads_succ hstep (hk u hu)

/-! ### The controller's side of a byte -/

/-- A byte at a peripheral armed with ack (R138). -/
theorem State.Linked.data_acked {M : Node} {i : BitVec 3} (hC : C.ctx = .main) (hr : M.role = .peripheral)
    (hp : M.pState = .addressed) (hgc : M.pGc = false) (hack : M.pAcken = true) (hnone : M.pEvt = none)
    (hi : i.toNat < 3) (h : s.Linked c (C.sends m i) M w l (.main c :: turns)) :
    ∃ u : State, step s = .next u ∧ u.Linked c (C.sends m (i + 1))
      { M with pDr := payloadByte m i, pEvt := some 0x80 } (w ++ [Sym.D (payloadByte m i) true]) l turns := by
  have hsent : afterData (.send m) 0x28 (C.sends m i) = C.sends m (i + 1) := afterData_send_more hi m
  have hacks : M.acksData = true := (acksData_of_addressed hr hp).trans hack
  have hseen : M.seesData (payloadByte m i) = { M with pDr := payloadByte m i, pEvt := some 0x80 } := by
    rw [seesData_of_acking hr hp hack, hgc]
    rfl
  obtain ⟨u, hstep, hu⟩ := h.data_phase hC rfl (holds_of_none hnone)
  rw [hacks, if_pos rfl, hsent, hseen] at hu
  exact ⟨u, hstep, hu⟩

/-- Byte 3 at a peripheral armed with nack (R138, R161). -/
theorem State.Linked.data_nacked {M : Node} (hC : C.ctx = .main) (hr : M.role = .peripheral)
    (hp : M.pState = .addressed) (hgc : M.pGc = false) (hack : M.pAcken = false) (hnone : M.pEvt = none)
    (h : s.Linked c (C.sends m 3) M w l (.main c :: turns)) :
    ∃ u : State, step s = .next u ∧ u.Linked c C.sendStops
      { M with pDr := payloadByte m 3, pEvt := some 0x88, pState := afterNack }
      (w ++ [Sym.D (payloadByte m 3) false]) l turns := by
  have hsent : afterData (.send m) 0x30 (C.sends m 3) = C.sendStops := by
    rw [afterData_send_nack (by decide), endWith_toError_owned (by decide) rfl]
    rfl
  have hacks : M.acksData = false := (acksData_of_addressed hr hp).trans hack
  have hseen : M.seesData (payloadByte m 3) =
      { M with pDr := payloadByte m 3, pEvt := some 0x88, pState := afterNack } := by
    rw [seesData_of_nacking hr hp hack, hgc]
    rfl
  obtain ⟨u, hstep, hu⟩ := h.data_phase hC rfl (holds_of_none hnone)
  rw [hacks, if_neg (by decide), hsent, hseen] at hu
  exact ⟨u, hstep, hu⟩

/-! ### The asynchronous path -/

section
variable (hP : P.role = .peripheral ∧ P.asyncEn = true ∧ P.ie = true ∧ P.ctx = .main) (hC : C.ctx = .main)
  {acc : Word} {dr : Byte}
include hP

theorem ready_of_latched {n : Node} {e : Byte}
    (hn : n.role = P.role ∧ n.asyncEn = P.asyncEn ∧ n.ie = P.ie ∧ n.ctx = P.ctx)
    (he : n.pEvt = some e) : n.Ready e := by
  obtain ⟨hr, ha, hi, hx⟩ := hP
  obtain ⟨hr', ha', hi', hx'⟩ := hn
  exact ⟨hr'.trans hr, ha'.trans ha, hi'.trans hi, hx'.trans hx, he⟩

/-- The handler's run for the address match empties the assembly (R181). -/
theorem State.Linked.matched_async {N : Node}
    (h : s.Linked c N { P with pState := .addressed, pGc := false, pEvt := some 0x60 } w l (.irq c.other :: turns))
    (hk : ∀ t : State, t.Linked c N (P.assembles 0 0 true P.pDr) w l turns → t.Leads k Q) : s.Leads (k + 1) Q := by
  have hready := ready_of_latched hP (n := { P with pState := .addressed, pGc := false, pEvt := some 0x60 })
    (e := addrMatchCode false false) ⟨rfl, rfl, rfl, rfl⟩ rfl
  obtain ⟨u, hstep, hu⟩ := h.symm.handler hready (irqBranch_addrMatchCode _ false false) fun u hu =>
    exec_irqAddrMatch_of_ready (hu ▸ hready)
  exact leads_succ hstep (hk u hu.of_symm)

/-- The turn of the interrupt context after the stop, whether 0xA0 was latched or not (R140, R185). -/
theorem State.Linked.stopped_async {N : Node} {ps : PState} {d : Bool} {r : Result}
    (h : s.Linked c N (P.completed acc ps d r dr).seesStop w l (.irq c.other :: turns))
    (hk : ∀ t : State, t.Linked c N (P.completed acc .idle d r dr) w l turns → t.Leads k Q) : s.Leads (k + 1) Q := by
  cases ps with
  | idle =>
    rw [seesStop_of_idle rfl] at h
    obtain ⟨u, hu, hstep⟩ := h.symm.step_no_event rfl
    exact leads_succ hstep (hk u hu.of_symm)
  | addressed =>
    rw [seesStop_of_addressed (n := P.completed acc .addressed d r dr) hP.1 rfl] at h
    have hready := ready_of_latched hP (n := { P.completed acc .addressed d r dr with pEvt := some 0xA0, pState := .idle })
      (e := 0xA0) ⟨rfl, rfl, rfl, rfl⟩ rfl
    obtain ⟨u, hstep, hu⟩ := h.symm.handler hready (irqBranch_stop _) fun u hu =>
      exec_irqStop_of_ready (hu ▸ hready) (by rw [hu]; simp [Node.completed])
    exact leads_succ hstep (hk u hu.of_symm)

include hC

/-- One of the first three bytes and the handler's run for it (R138, R183). -/
theorem State.Linked.byte_async {i : BitVec 3} (hi : i.toNat < 3)
    (h : s.Linked c (C.sends m i) (P.assembles acc i true dr) w l (.main c :: .irq c.other :: turns))
    (hk : ∀ t : State, t.Linked c (C.sends m (i + 1))
      (P.assembles (setLane acc i.toNat (payloadByte m i)) (i + 1) (decide (i.toNat + 1 < 3)) (payloadByte m i))
      (w ++ [Sym.D (payloadByte m i) true]) l turns → t.Leads k Q) : s.Leads (k + 2) Q := by
  obtain ⟨u, hstep, hu⟩ := h.data_acked (M := P.assembles acc i true dr) hC hP.1 rfl rfl rfl rfl hi
  have hready := ready_of_latched hP (n := { P.assembles acc i true (payloadByte m i) with pEvt := some 0x80 })
    (e := dataAckCode false) ⟨rfl, rfl, rfl, rfl⟩ rfl
  obtain ⟨v, hstep', hv⟩ := hu.symm.handler hready (irqBranch_dataAckCode hi false) fun v hv =>
    exec_irqDataAck_of_ready (hv ▸ hready) (hv ▸ hi)
  exact leads_succ hstep (leads_succ hstep' (hk v hv.of_symm))

/-- Byte 3 and the handler's run for it, with a callback or none (R138, R184, R196). -/
theorem State.Linked.last_async (hperm : ∀ f, P.cb = some f → ∀ i ∈ (P.hostFn f).calls m, Permitted i = true)
    (hm : setLane acc 3 (payloadByte m 3) = m)
    (h : s.Linked c (C.sends m 3) (P.assembles acc 3 false dr) w l (.main c :: .irq c.other :: turns))
    (hk : ∀ (t : State) (l' : List Word) (d : Bool) (r : Result),
      (∀ f, P.cb = some f → l' = l ++ [m] ∧ d = !((P.hostFn f).calls m).contains .takeMessage) →
      (P.cb = none → l' = l ∧ d = true) →
      t.Linked c C.sendStops (P.completed m afterNack d r (payloadByte m 3)) (w ++ [Sym.D (payloadByte m 3) false]) l'
        turns → t.Leads k Q) : s.Leads (k + 2) Q := by
  obtain ⟨u, hstep, hu⟩ := h.data_nacked (M := P.assembles acc 3 false dr) hC hP.1 rfl rfl rfl rfl
  refine leads_succ hstep ?_
  have hready := ready_of_latched hP
    (n := { P.assembles acc 3 false (payloadByte m 3) with pEvt := some 0x88, pState := afterNack })
    (e := dataNackCode false) ⟨rfl, rfl, rfl, rfl⟩ rfl
  have hcnt : (3 : BitVec 3).toNat < 4 := by decide
  obtain ⟨v, hcur, hv, hrun⟩ := hu.symm.step_handler hready (irqBranch_dataNackCode hcnt false)
  have hself := hv.self hcur
  have hready' : v.self.Ready (dataNackCode false) := hself ▸ hready
  have hcnt' : v.self.cnt.toNat < 4 := hself ▸ hcnt
  have hword : m = setLane v.self.acc v.self.cnt.toNat v.self.pDr := by rw [hself]; exact hm.symm
  cases hcb : P.cb with
  | none =>
    rw [exec_irqDataNack_of_no_callback hready' hcnt' (by rw [hself]; exact hcb)] at hrun
    refine leads_succ hrun (hk _ l true P.cbRet (by simp [hcb]) (fun _ => ⟨rfl, rfl⟩) ?_)
    have hacc := congrArg (fun a => P.completed a afterNack true P.cbRet (payloadByte m 3)) hm
    rw [← hacc]
    exact (hv.mapSelf hcur _).of_symm
  | some f =>
    have hfn : v.self.hostFn f = P.hostFn f := Node.hostFn_of_fns (by rw [hself]; rfl) f
    obtain ⟨r, hnext⟩ := exec_irqDataNack_of_callback hready' hcnt' (by rw [hself]; exact hcb) hword
      (by rw [hfn]; exact hperm f hcb)
    rw [hnext, hfn] at hrun
    refine leads_succ hrun (hk _ _ _ r (fun f' hf' => by rw [hcb] at hf'; cases hf'; exact ⟨rfl, rfl⟩) (by simp [hcb]) ?_)
    exact ((hv.emitCb m).mapSelf hcur _).of_symm

end

/-! ### The blocking path -/

section
variable (hr : P.role = .peripheral) (hx : P.ctx = .main) (hC : C.ctx = .main) {acc : Word} {dr : Byte}

include hr hx in
/-- The call of `receive_blocking` with nothing latched (R170). -/
theorem State.Linked.calls_blocking {N : Node} {calls : List (List Byte)} (ha : P.asyncEn = false) (hb : P.busy = .idle)
    (hp : P.prog = encode .receiveBlocking :: calls) (hnone : P.pEvt = none)
    (h : s.Linked c N P w l (.main c.other :: turns))
    (hk : ∀ t : State, t.Linked c N (P.awaits calls) w l turns → t.Leads k Q) : s.Leads (k + 1) Q := by
  obtain ⟨u, hcur, hu, hcall⟩ := h.symm.step_call rfl hx hb hp
  have hself := hu.self hcur
  rw [exec_receiveBlocking (by rw [hself]; exact ⟨hr, hx⟩) (by rw [hself]; exact ha)] at hcall
  have hwaits : observe (P.awaits calls) = P.awaits calls := observe_of_none hnone
  exact leads_succ hcall (hk _ (hwaits ▸ (hu.mapSelf hcur _).of_symm))

include hx in
/-- Stage 1 meets the address match (R170). -/
theorem State.Linked.matched_blocking {N : Node} (hb : P.busy = .recvAddress)
    (h : s.Linked c N { P with pState := .addressed, pGc := false, pEvt := some 0x60 } w l (.main c.other :: turns))
    (hk : ∀ t : State, t.Linked c N (P.receives P.pbAcc 0 true P.pDr) w l turns → t.Leads k Q) : s.Leads (k + 1) Q := by
  obtain ⟨u, hstep, hu⟩ := h.symm.serves hx (by simp [hb]) (by simp [hb, Busy.atPhase])
    (afterExpiry_recvAddress (c := 0x60) hb rfl rfl)
  exact leads_succ hstep (hk u hu.of_symm)

include hr hx hC

/-- One of the first three bytes and the poll that meets it (R138, R170). -/
theorem State.Linked.byte_blocking {i : BitVec 3} (hi : i.toNat < 3)
    (h : s.Linked c (C.sends m i) (P.receives acc i true dr) w l (.main c :: .main c.other :: turns))
    (hk : ∀ t : State, t.Linked c (C.sends m (i + 1))
      (P.receives (setLane acc i.toNat (payloadByte m i)) (i + 1) (decide (i.toNat + 1 < 3)) (payloadByte m i))
      (w ++ [Sym.D (payloadByte m i) true]) l turns → t.Leads k Q) : s.Leads (k + 2) Q := by
  obtain ⟨u, hstep, hu⟩ := h.data_acked (M := P.receives acc i true dr) hC hr rfl rfl rfl rfl hi
  obtain ⟨v, hstep', hv⟩ := hu.symm.serves hx (by simp [Node.receives]) rfl
    (afterExpiry_recvData_more (c := 0x80) rfl rfl rfl hi)
  exact leads_succ hstep (leads_succ hstep' (hk v hv.of_symm))

/-- Byte 3 and the poll that meets it, with which the call returns (R138, R172). -/
theorem State.Linked.last_blocking (hm : setLane acc 3 (payloadByte m 3) = m)
    (h : s.Linked c (C.sends m 3) (P.receives acc 3 false dr) w l (.main c :: .main c.other :: turns))
    (hk : ∀ t : State, t.Linked c C.sendStops (P.received m afterNack (payloadByte m 3))
      (w ++ [Sym.D (payloadByte m 3) false]) l turns → t.Leads k Q) : s.Leads (k + 2) Q := by
  obtain ⟨u, hstep, hu⟩ := h.data_nacked (M := P.receives acc 3 false dr) hC hr rfl rfl rfl rfl
  obtain ⟨v, hstep', hv⟩ := hu.symm.serves hx (by simp [Node.receives]) rfl
    (afterExpiry_recvData_last (c := 0x88) rfl rfl rfl rfl)
  have hreceived := congrArg (fun a => P.received a afterNack (payloadByte m 3)) hm
  exact leads_succ hstep (leads_succ hstep' (hk v (hreceived ▸ hv.of_symm)))

end

end

/-- Four bytes in their lanes are the word (R62). -/
theorem setLane_payload (m : Word) :
    setLane (setLane (setLane (setLane 0 0 (payloadByte m 0)) 1 (payloadByte m 1)) 2 (payloadByte m 2)) 3
      (payloadByte m 3) = m :=
  (setLane_four 0 _ _ _ _).trans (word4_wordBytes m)

/-- The stop after a byte received with nack, at the peripheral whose call has returned (R140, R141). -/
theorem seesStop_received {P : Node} (hr : P.role = .peripheral) (acc : Word) (dr : Byte) :
    (P.received acc afterNack dr).seesStop =
      { P.received acc .idle dr with pEvt := if Config.pDeaddressOnNack then none else some 0xA0 } := by
  unfold afterNack
  cases Config.pDeaddressOnNack with
  | true => exact seesStop_of_idle rfl
  | false => exact seesStop_of_addressed hr rfl

end Sys2Proof.Machine

namespace Sys2Proof.Proofs

open Sys2Proof Sys2Proof.Machine

/-- Settles O41: turn by turn, the start and the address, three bytes acknowledged and one not, each served on its path,
and the stop. -/
theorem sendDeliversAndReportsByteThree : Obligations.SendDeliversAndReportsByteThree := by
  intro s c m calls turns p hc hcan hs hb hprog hne hsla hserve hack hnone hidle reported
  have hlink {sched : List Turn} (hsched : s.sched = sched) :
      s.Linked c (s.node c) (s.node p) s.wire s.cblog sched := ⟨rfl, rfl, hc, rfl, rfl, hsched⟩
  have hctl : ((s.node c).called calls).ctx = .main := hcan.2
  have hreported {t : State} {P : Node} {l : List Word}
      (ht : t.Linked c (afterStop (.sent (some (.byteNotAcknowledged 3))) ((s.node c).called calls).sendStops) P
        (s.wire ++ [Sym.S] ++ [Sym.A (slaW (s.node c).sla) true] ++ [Sym.D (payloadByte m 0) true] ++
          [Sym.D (payloadByte m 1) true] ++ [Sym.D (payloadByte m 2) true] ++ [Sym.D (payloadByte m 3) false] ++ [Sym.P])
        l turns) : reported t := by
    simp only [reported, ht.node, ht.wire, List.append_assoc, List.cons_append, List.nil_append]
    exact ⟨rfl, rfl, rfl, rfl, rfl, rfl⟩
  refine ⟨fun hasync hie hperm hsched => ?async, fun pcalls hasync hbusy hpprog hsched => ?blocking⟩
  case async =>
    have hP := And.intro hserve.1 (And.intro hasync (And.intro hie hserve.2))
    refine (hlink hsched).opens hcan hs hb hprog hne hsla hserve.1 hack hnone fun t ht => ?_
    refine ht.matched_async hP fun t ht => ?_
    refine ht.byte_async hP hctl (i := 0) (by decide) fun t ht => ?_
    refine State.Linked.byte_async hP hctl (i := 1) (by decide) ht fun t ht => ?_
    refine State.Linked.byte_async hP hctl (i := 2) (by decide) ht fun t ht => ?_
    refine State.Linked.last_async hP hctl hperm (setLane_payload m) ht fun t l d r hsome hnocb ht => ?_
    refine ht.stops hctl rfl fun t ht => ?_
    refine State.Linked.stopped_async hP ht fun t ht => leads_zero ⟨hreported ht, ?_⟩
    rw [ht.other, ht.cblog]
    exact ⟨rfl, rfl, rfl, rfl, rfl, rfl, hsome, hnocb⟩
  case blocking =>
    refine (hlink hsched).calls_blocking hserve.1 hserve.2 hasync hbusy hpprog hnone fun t ht => ?_
    refine ht.opens (P := (s.node p).awaits pcalls) hcan hs hb hprog hne hsla hserve.1 hack hnone fun t ht => ?_
    have hper : ((s.node p).awaits pcalls).role = .peripheral := hserve.1
    have hmain : ((s.node p).awaits pcalls).ctx = .main := hserve.2
    refine State.Linked.matched_blocking hmain rfl ht fun t ht => ?_
    refine State.Linked.byte_blocking hper hmain hctl (i := 0) (by decide) ht fun t ht => ?_
    refine State.Linked.byte_blocking hper hmain hctl (i := 1) (by decide) ht fun t ht => ?_
    refine State.Linked.byte_blocking hper hmain hctl (i := 2) (by decide) ht fun t ht => ?_
    refine State.Linked.last_blocking hper hmain hctl (setLane_payload m) ht fun t ht => ?_
    refine ht.stops hctl rfl fun t ht => leads_zero ⟨hreported ht, ?_⟩
    rw [seesStop_received hper] at ht
    rw [ht.other, ht.cblog]
    exact ⟨rfl, rfl, rfl, rfl, rfl, rfl, rfl, rfl, rfl, rfl, rfl, rfl⟩

end Sys2Proof.Proofs
end

section
/-! SUPPORT. The family 41_controller_send.md: a `send` turn by turn, as what WIRE has gained and what has become of the
moving node; and the statements on `send`, assembled from these. -/

namespace Sys2Proof.Machine

/-! ## The state between two turns of one main program -/

/-- WIRE has gained `ys` and the moving node has become `n`; nothing else has changed. -/
def State.gains (s : State) (ys : List Sym) (n : Node) : State :=
  ({ s with wire := s.wire ++ ys } : State).mapSelf fun _ => n

section
variable (s : State) (ys : List Sym) (n : Node)

@[simp] theorem State.self_gains : (s.gains ys n).self = n := State.self_mapSelf _ _

@[simp] theorem State.peer_gains : (s.gains ys n).peer = s.peer := State.peer_mapSelf _ _

@[simp] theorem State.comp_gains : (s.gains ys n).comp = s.comp := State.comp_mapSelf _ _

/-- The moving node's change, from what it was. -/
theorem State.gains_eq_mapSelf (f : Node → Node) :
    s.gains ys (f s.self) = ({ s with wire := s.wire ++ ys } : State).mapSelf f :=
  State.mapSelf_congr _ rfl

theorem State.emit_mapSelf_eq_gains (y : Sym) (f : Node → Node) : (s.emit y).mapSelf f = s.gains [y] (f s.self) :=
  (s.gains_eq_mapSelf [y] f).symm

/-- One more symbol and one more change of the moving node. -/
theorem State.gains_phase (y : Sym) (f : Node → Node) :
    ((s.gains ys n).emit y).mapSelf f = s.gains (ys ++ [y]) (f n) := by
  rw [State.gains, State.emit_mapSelf, State.mapSelf_mapSelf]
  simp only [State.gains, State.emit, List.append_assoc]

/-- A phase that the peer passes by. -/
theorem State.gains_phase_unheard {y : Sym} {f g : Node → Node} (hg : g s.peer = s.peer) :
    (((s.gains ys n).emit y).mapPeer g).mapSelf f = s.gains (ys ++ [y]) (f n) := by
  rw [← s.gains_phase]
  exact State.phase_congr_unheard rfl (by rwa [State.peer_gains]) rfl

end

/-! ## The next phase, on the open bus and past a peer that does not hear it -/

section
variable {s : State} {ys : List Sym} {n : Node} {t : CTask} {r : Byte} {an : List Byte}

section
variable (hc : s.comp = .openBus)
include hc

theorem resume_address_open (hb : n.busy = .atAddress t) (ha : n.answers = r :: an) :
    resume (s.gains ys n) =
      s.gains (ys ++ [.A (slaW n.sla) (r == 0x18)]) (afterAddress t r { n with answers := an }) := by
  rw [resume_of_phase (controllerPhase_address_open (t := t) (r := r) (rs := an) (by simpa) (by simpa) (by simpa)),
    State.gains_phase, State.self_gains]

theorem resume_data_open {b : Byte} (hb : n.busy = .atData t b) (ha : n.answers = r :: an) :
    resume (s.gains ys n) = s.gains (ys ++ [.D b (r == 0x28)]) (afterData t r { n with answers := an }) := by
  rw [resume_of_phase (controllerPhase_data_open (t := t) (b := b) (r := r) (rs := an) (by simpa) (by simpa)
    (by simpa)), State.gains_phase]

theorem resume_stop_open {res : Result} (hb : n.busy = .atStop res) :
    resume (s.gains ys n) = s.gains (ys ++ [.P]) (afterStop res n) := by
  rw [resume_of_phase (controllerPhase_stop_open (r := res) (by simpa) (by simpa)), State.gains_phase]

/-- A `send` that has met an error is off the bus a turn later: by a stop, unless the bus is lost (R127, R161). -/
theorem resume_failed (ho : n.cOwn = true) (res : Result) :
    resume (s.gains ys (endWith res (toError r n))) =
      s.gains (ys ++ if r = 0x38 then [] else [.P])
        { n with cState := .idle, cOwn := false, busy := .idle, ret := res } := by
  by_cases hlost : r = 0x38
  · subst hlost
    rw [endWith_toError_lost, resume_of_idle (by simp), if_pos rfl, List.append_nil]
  · rw [endWith_toError_owned hlost ho, resume_stop_open hc rfl, if_neg hlost]
    rfl

end

section
variable (hc : s.comp = .closed) (hh : s.peer.holds = false)
include hc hh

theorem resume_address_unheard (hb : n.busy = .atAddress t) (hm : s.peer.matchesAddress (slaW n.sla) = false) :
    resume (s.gains ys n) = s.gains (ys ++ [.A (slaW n.sla) false]) (afterAddress t 0x20 n) := by
  rw [resume_of_phase (controllerPhase_address_closed (t := t) (by simpa) (by simpa) (by simpa)), State.self_gains,
    State.peer_gains, hm, if_neg Bool.false_ne_true,
    State.gains_phase_unheard (g := fun p => p.seesAddress (slaW n.sla)) _ _ _ (seesAddress_of_not_matched hm)]

theorem resume_stop_unheard {res : Result} (hb : n.busy = .atStop res) (hs : s.peer.seesStop = s.peer) :
    resume (s.gains ys n) = s.gains (ys ++ [.P]) (afterStop res n) := by
  rw [resume_of_phase (controllerPhase_stop_closed (r := res) (by simpa) (by simpa) (by simpa)),
    State.gains_phase_unheard _ _ _ hs]

end

/-- A peer that is no peripheral, or an idle one armed with nack or with another address, hears none of it (R137,
R285). -/
theorem unheard_of_not_addressable {p : Node} {a : Byte}
    (h : p.role ≠ .peripheral ∨ (p.pEvt = none ∧ p.pState = .idle ∧ (p.pAcken = false ∨ (a ≠ slaW p.sla ∧ a ≠ 0)))) :
    p.holds = false ∧ p.matchesAddress a = false ∧ p.seesStop = p := by
  rcases h with hr | ⟨he, hp, hnot⟩
  · refine ⟨holds_eq_false_iff.2 fun ⟨hrole, _⟩ => hr hrole, ?_, if_neg fun ⟨hrole, _⟩ => hr hrole⟩
    exact Bool.eq_false_iff.2 fun hm => hr (matchesAddress_iff.1 hm).1
  · refine ⟨holds_of_none he, Bool.eq_false_iff.2 fun hm => ?_, seesStop_of_idle hp⟩
    obtain ⟨-, hack, haddr⟩ := matchesAddress_iff.1 hm
    rcases hnot with hnack | ⟨hown, hgc⟩
    · simp [hack] at hnack
    · exact haddr.elim hown hgc

end

/-! ## The phases of a `send` (R160) -/

/-- The controller in `send(m)` before the address phase. -/
def Node.sendsAddress (n : Node) (m : Word) : Node :=
  { n with cState := .address, cOwn := true, busy := .atAddress (.send m) }

/-- Byte `i` of the word, by bit positions (R62, R102). -/
theorem payloadByte_ofNat {i : Nat} (hi : i < 4) (m : Word) :
    payloadByte m (BitVec.ofNat 3 i) = m.extractLsb' (8 * i) 8 := by
  rw [payloadByte, wordByte, BitVec.toNat_ofNat, Nat.mod_eq_of_lt (by omega)]

section
variable {s : State} {m : Word} {r0 : Byte} {an : List Byte}

theorem exec_send_started_closed (hcan : s.self.CanControl) (hidle : s.self.cState = .idle) (hc : s.comp = .closed)
    (hh : s.peer.holds = false) : exec (.send m) s = .next (s.gains [.S] (s.self.sendsAddress m)) := by
  rw [exec_send_idle hcan hidle, nextPhase_start_closed rfl hc hh,
    ← State.emit_mapSelf_eq_gains (f := fun n => n.sendsAddress m)]
  exact congrArg _ (State.phase_congr_unheard rfl (seesStart_fresh _) rfl)

section
variable (hcan : s.self.CanControl) (hc : s.comp = .openBus) (hidle : s.self.cState = .idle)
include hcan hc hidle

theorem exec_send_started_open (hok : r0 = 0x08 ∨ r0 = 0x10) (ha : s.self.answers = r0 :: an) :
    exec (.send m) s = .next (s.gains [.S] ({ s.self with answers := an }.sendsAddress m)) := by
  rw [exec_send_idle hcan hidle, nextPhase_start_open rfl hc ha, State.emit_mapSelf_eq_gains,
    afterStart_ok (isStartOk_iff.2 hok)]
  rfl

/-- The start and the address acknowledged: byte 0 is next. -/
theorem exec_send_addressed (hok : r0 = 0x08 ∨ r0 = 0x10) (ha : s.self.answers = r0 :: 0x18 :: an) :
    ∃ t, exec (.send m) s = .next t ∧
      resume t = s.gains [.S, .A (slaW s.self.sla) true] ({ s.self with answers := an }.sends m 0) := by
  refine ⟨_, exec_send_started_open hcan hc hidle hok ha, ?_⟩
  rw [resume_address_open hc rfl rfl, afterAddress_send_ack]
  rfl

end

/-- A turn for each acknowledged byte, byte `i` being next after `i` of them. -/
theorem resume_iterate_acked (hc : s.comp = .openBus) (ys : List Sym) (n : Node) :
    ∀ (i : Nat) (an : List Byte), i ≤ 3 →
      resume^[i] (s.gains ys ({ n with answers := List.replicate i 0x28 ++ an }.sends m 0)) =
        s.gains (ys ++ (List.range i).map fun j => .D (m.extractLsb' (8 * j) 8) true)
          ({ n with answers := an }.sends m (BitVec.ofNat 3 i))
  | 0, an, _ => by simp
  | i + 1, an, hi => by
    have hcsI : (BitVec.ofNat 3 i).toNat = i := by rw [BitVec.toNat_ofNat, Nat.mod_eq_of_lt (by omega)]
    have hsent : afterData (.send m) 0x28 ({ n with answers := an }.sends m (BitVec.ofNat 3 i)) =
        { n with answers := an }.sends m (BitVec.ofNat 3 (i + 1)) := by
      rw [afterData_send_more (by simp only [Node.sends, hcsI]; omega), BitVec.ofNat_add]
      rfl
    rw [Function.iterate_succ_apply', List.replicate_succ', List.append_assoc, List.singleton_append,
      resume_iterate_acked hc ys n i (0x28 :: an) (by omega), resume_data_open hc rfl rfl,
      payloadByte_ofNat (by omega), List.range_succ, List.map_append, ← List.append_assoc]
    exact congrArg _ hsent

/-- Byte 3 acknowledged, and the stop (R160). -/
theorem resume_last_acked (hc : s.comp = .openBus) (ys : List Sym) (n : Node) :
    resume (resume (s.gains ys ({ n with answers := 0x28 :: an }.sends m (BitVec.ofNat 3 3)))) =
      s.gains (ys ++ [.D (m.extractLsb' 24 8) true, .P])
        { n with answers := an, cState := .idle, cOwn := false, csI := 3, busy := .idle, ret := .sent none } := by
  have hstops : afterData (.send m) 0x28
        { { n with answers := 0x28 :: an }.sends m (BitVec.ofNat 3 3) with answers := an } =
      { { n with answers := an }.sends m 3 with cState := .stop, busy := .atStop (.sent none) } := by
    rw [afterData_send_last (by simp [Node.sends]), endWith_owned (by simp [Node.sends]) rfl]
    rfl
  rw [resume_data_open hc rfl rfl, hstops, resume_stop_open hc rfl, payloadByte_ofNat (by decide), List.append_assoc]
  rfl

end

end Sys2Proof.Machine

namespace Sys2Proof.Proofs

open Sys2Proof Sys2Proof.Machine

/-- Settles O37: the address, three bytes after which another is next, the fourth, and the stop. -/
theorem sendOverAnAcknowledgingBusSucceeds : Obligations.SendOverAnAcknowledgingBusSucceeds := by
  intro s m r0 rest hcan hc hidle hok ha
  obtain ⟨t, hexec, hdata⟩ :=
    exec_send_addressed (m := m) (an := List.replicate 3 0x28 ++ 0x28 :: rest) hcan hc hidle hok ha
  refine ⟨t, hexec, ?_⟩
  calc resume^[6] t = resume (resume (resume^[3] (resume t))) := rfl
    _ = s.gains _ _ := by rw [hdata, resume_iterate_acked hc _ _ _ _ le_rfl, resume_last_acked hc]
    _ = _ := by rw [← State.gains_eq_mapSelf]; rfl

/-- Settles O38: the address, a turn for each acknowledged byte, the byte that is not, and the stop. -/
theorem sendNamesTheByteNotAcknowledged : Obligations.SendNamesTheByteNotAcknowledged := by
  intro s m r0 r i rest hcan hc hidle hok hi hnack ha
  obtain ⟨t, hexec, hdata⟩ := exec_send_addressed (m := m) hcan hc hidle hok ha
  refine ⟨t, hexec, ?_⟩
  have hindex : (BitVec.ofNat 3 i).setWidth 2 = BitVec.ofNat 2 i := BitVec.setWidth_ofNat_of_le (by decide) i
  rw [Function.iterate_succ_apply, Function.iterate_succ_apply', Function.iterate_succ_apply', hdata,
    resume_iterate_acked hc _ _ _ _ (by omega), resume_data_open hc rfl rfl, afterData_send_nack hnack,
    resume_failed hc rfl, payloadByte_ofNat hi, beq_false_of_ne hnack, ← State.gains_eq_mapSelf]
  simp only [Node.sends, hindex, List.append_assoc]

/-- Settles O39: the start, the address that is not acknowledged, and the stop. -/
theorem sendReportsTheAddressAnswer : Obligations.SendReportsTheAddressAnswer := by
  intro s m hcan hidle
  refine ⟨fun r0 r rest hc hok hnack ha => ?nacked, fun r0 rest hc hbad ha => ?failedStart, fun hc hpeer => ?unheard⟩
  case nacked =>
    refine ⟨_, exec_send_started_open hcan hc hidle hok ha, ?_⟩
    rw [Function.iterate_succ_apply, Function.iterate_one, resume_address_open hc rfl rfl, afterAddress_send_nack hnack,
      resume_failed hc rfl, beq_false_of_ne hnack, ← State.gains_eq_mapSelf]
    rfl
  case failedStart =>
    rw [exec_send_idle hcan hidle, nextPhase_start_open rfl hc ha]
    exact congrArg _ (State.mapSelf_congr _
      (afterStart_send_failed (Bool.eq_false_iff.2 (mt isStartOk_iff.1 hbad))))
  case unheard =>
    obtain ⟨hh, hm, hstop⟩ := unheard_of_not_addressable hpeer
    refine ⟨_, exec_send_started_closed hcan hidle hc hh, ?_⟩
    rw [Function.iterate_succ_apply, Function.iterate_one,
      resume_address_unheard (n := s.self.sendsAddress m) hc hh rfl hm,
      afterAddress_send_nack (by decide), endWith_toError_owned (by decide) rfl, resume_stop_unheard hc hh rfl hstop,
      ← State.gains_eq_mapSelf]
    rfl

end Sys2Proof.Proofs
end

section
/-! SUPPORT. The family 42_peripheral_blocking.md: what `receive_blocking` makes of an event or an expiry in each stage, the
turns of ENV and of a node's main program on the open bus; and the two statements, assembled from these. -/

namespace Sys2Proof.Machine

/-! ## The two stages (R170, R173, R174) -/

theorem isAddrMatch_iff {c : Byte} : isAddrMatch c = true ↔ c ∈ ([0x60, 0x68, 0x70, 0x78] : List Byte) := by
  simp [isAddrMatch, or_assoc]

theorem isAddrMatch_eq_false {c : Byte} (h : c ∉ ([0x60, 0x68, 0x70, 0x78] : List Byte)) : isAddrMatch c = false :=
  Bool.eq_false_iff.2 (mt isAddrMatch_iff.1 h)

theorem isDataRx_eq_false {c : Byte} (h : c ∉ ([0x80, 0x88, 0x90, 0x98] : List Byte)) : isDataRx c = false :=
  Bool.eq_false_iff.2 (mt isDataRx_iff.1 h)

/-- Stage 2 has met no data byte: the call returns PB_ACC as it stands (R173). -/
def Node.aborted (n : Node) : Node :=
  { n with pAcken := true, pEvt := none, ret := .message n.pbAcc, busy := .idle }

/-- Stage 1 has met no match: the call returns PB_ACC or waits on, by PB_IDLE_ABORT (R174). -/
def Node.skipped (n : Node) : Node :=
  { n with
    pAcken := true, pEvt := none, ret := if Config.pbIdleAbort then .message n.pbAcc else n.ret,
    busy := if Config.pbIdleAbort then .idle else .recvAddress }

section
variable {n : Node} {c : Byte}

theorem recvDataOn_of_not_data (hc : isDataRx c = false) : recvDataOn c n = n.aborted := by
  simp [recvDataOn, hc, Node.aborted, Node.rearm, Node.finish]

theorem recvAddressOn_of_not_match (hc : isAddrMatch c = false) : recvAddressOn c n = n.skipped := by
  unfold recvAddressOn Node.skipped
  cases Config.pbIdleAbort <;> simp [recvAddressOnAt, hc, Node.rearm, Node.finish]

theorem recvAddressOn_of_match (hc : isAddrMatch c = true) :
    recvAddressOn c n = { n with pbI := 0, pAcken := true, pEvt := none, busy := .recvData } := by
  simp [recvAddressOn, recvAddressOnAt, hc, Node.rearm]

theorem observe_recvAddress (hb : n.busy = .recvAddress) (he : n.pEvt = some c) : observe n = recvAddressOn c n := by
  simp [observe, hb, he]

theorem afterExpiry_recvAddress_eq (hb : n.busy = .recvAddress) (he : n.pEvt = some c) :
    afterExpiry n = recvAddressOn c n := by
  simp [afterExpiry, observe, hb, he]

theorem afterExpiry_recvData_eq (hb : n.busy = .recvData) (he : n.pEvt = some c) : afterExpiry n = recvDataOn c n := by
  simp [afterExpiry, observe, hb, he]

/-- After an expiry the call goes on as with an event of neither class, whatever is latched by then (log 20). -/
theorem afterExpiry_recvAddressExpired (hb : n.busy = .recvAddressExpired) : afterExpiry n = n.skipped := by
  simp only [afterExpiry, hb]
  exact recvAddressOnAt_evTimeout Config.pbIdleAbort n

theorem afterExpiry_recvDataExpired (hb : n.busy = .recvDataExpired) : afterExpiry n = n.aborted := by
  simp only [afterExpiry, hb]
  exact recvDataOn_evTimeout n

theorem expire_recvAddress (hb : n.busy = .recvAddress) (he : n.pEvt = none) :
    expire n = { n with busy := .recvAddressExpired } := by
  simp [expire, hb, he]

theorem expire_recvData (hb : n.busy = .recvData) (he : n.pEvt = none) :
    expire n = { n with busy := .recvDataExpired } := by
  simp [expire, hb, he]

end

section
variable {s : State}

/-- The call's first poll meets what is latched already (R170). -/
theorem exec_receiveBlocking_of_latched {c : Byte} (h : s.self.CanServe) (ha : s.self.asyncEn = false)
    (he : s.self.pEvt = some c) :
    exec .receiveBlocking s =
      .next (s.mapSelf fun n => recvAddressOn c { n with pbAcc := 0, pbI := 0, busy := .recvAddress }) := by
  rw [exec_receiveBlocking h ha]
  exact congrArg _ (State.mapSelf_congr _ (observe_recvAddress rfl he))

/-- A node's wait at its main program's turn. -/
theorem resume_of_wait {f : Node → Node} (hb : s.self.busy.atPhase = false)
    (hf : afterExpiry s.self = f s.self) : resume s = s.mapSelf f :=
  (resume_of_not_atPhase hb).trans (State.mapSelf_congr _ hf)

end

/-! ## The codes ENV presents (R143) -/

theorem decode_evt_of_match (cnt : BitVec 3) {c : Byte} (hc : c ∈ ([0x60, 0x68, 0x70, 0x78] : List Byte)) :
    ∃ i, decode .evt cnt [c] = .ok (i, []) ∧ eventOf i = some (c, 0) := by
  simp only [List.mem_cons, List.not_mem_nil, or_false] at hc
  rcases hc with rfl | rfl | rfl | rfl <;> exact ⟨_, rfl, rfl⟩

theorem decode_evt_of_data (cnt : BitVec 3) {c : Byte} (b : Byte) (hc : c ∈ ([0x80, 0x88, 0x90, 0x98] : List Byte)) :
    ∃ i, decode .evt cnt [c, b] = .ok (i, []) ∧ eventOf i = some (c, b) := by
  simp only [List.mem_cons, List.not_mem_nil, or_false] at hc
  rcases hc with rfl | rfl | rfl | rfl <;> exact ⟨_, rfl, rfl⟩

theorem isDataRx_of_match {c : Byte} (hc : c ∈ ([0x60, 0x68, 0x70, 0x78] : List Byte)) : isDataRx c = false := by
  simp only [List.mem_cons, List.not_mem_nil, or_false] at hc
  rcases hc with rfl | rfl | rfl | rfl <;> rfl

/-! ## A node on the open bus -/

/-- In the open composition node `n` is `N`, with these turns to come. -/
structure State.Opened (s : State) (n : NodeId) (N : Node) (turns : List Turn) : Prop where
  node : s.node n = N
  comp : s.comp = .openBus
  sched : s.sched = turns

section
variable {s : State} {n : NodeId} {N : Node} {turns : List Turn}

theorem State.Opened.turnOf {T : Turn} (h : s.Opened n N (T :: turns)) : (s.turnOf n turns).Opened n N turns :=
  ⟨h.node, h.comp, rfl⟩

/-! ### What a change of the moving node makes of it -/

section
variable {u : State} (h : u.Opened n N turns) (hcur : u.cur = n)
include h hcur

theorem State.Opened.self : u.self = N := by rw [State.self, hcur, h.node]

theorem State.Opened.mapSelf (f : Node → Node) : (u.mapSelf f).Opened n (f N) turns := by
  have hself := (u.self_mapSelf f).trans (congrArg f (h.self hcur))
  simp only [State.self, State.cur_mapSelf, hcur] at hself
  exact ⟨hself, by simpa using h.comp, by simpa using h.sched⟩

end

/-! ### The turns -/

/-- ENV's code is latched at a listening peripheral. -/
theorem State.Opened.latches {c d : Byte} {bs rest : List Byte} {i : Instr}
    (h : s.Opened n N (.env n .evt bs :: turns)) (hd : decode .evt N.cnt bs = .ok (i, rest))
    (hi : eventOf i = some (c, d)) (hr : N.role = .peripheral) (he : N.pEvt = none) :
    ∃ u : State, step s = .next u ∧
      u.Opened n { N with pEvt := some c, pDr := if isDataRx c then d else N.pDr } turns := by
  have hself := h.turnOf.self rfl
  have hstep := step_env_of_row h.sched (h.node ▸ hd)
  rw [exec_of_eventOf hi, envEvent_of_listening c d h.turnOf.comp (hself ▸ hr) (hself ▸ he)] at hstep
  exact ⟨_, hstep, h.turnOf.mapSelf rfl _⟩

/-- The main program serves its wait. -/
theorem State.Opened.serves {N' : Node} (h : s.Opened n N (.main n :: turns)) (hx : N.ctx = .main)
    (hb : N.busy ≠ .idle) (hp : N.busy.atPhase = false) (hN : afterExpiry N = N') :
    ∃ u : State, step s = .next u ∧ u.Opened n N' turns := by
  have hself := h.turnOf.self rfl
  have hstep := step_main_of_inside h.sched (h.node ▸ hx) (h.node ▸ hb)
  rw [resume_of_not_atPhase (hself ▸ hp)] at hstep
  exact ⟨_, hstep, hN ▸ h.turnOf.mapSelf rfl _⟩

/-- The main program calls `receive_blocking` with nothing latched (R170). -/
theorem State.Opened.calls_blocking {calls : List (List Byte)} (h : s.Opened n N (.main n :: turns)) (hN : N.CanServe)
    (ha : N.asyncEn = false) (he : N.pEvt = none) (hb : N.busy = .idle) (hp : N.prog = encode .receiveBlocking :: calls) :
    ∃ u : State, step s = .next u ∧ u.Opened n (N.awaits calls) turns := by
  have hcalled := h.turnOf.mapSelf rfl (Node.called · calls)
  have hself := hcalled.self (by simp [State.turnOf])
  have hwaits : observe (N.awaits calls) = N.awaits calls := observe_of_none he
  have hstep := step_main_of_call h.sched (h.node ▸ hN.2) (h.node ▸ hb) (h.node ▸ hp) (i := .receiveBlocking)
    (rest := []) rfl
  have hexec := exec_receiveBlocking (by rw [hself]; exact hN) (by rw [hself]; exact ha)
  exact ⟨_, hstep.trans hexec, hwaits ▸ hcalled.mapSelf (by simp [State.turnOf]) _⟩

end

/-! ## Four bytes from ENV (R170, R172) -/

/-- The peripheral in stage 2 of `receive_blocking` with `i` bytes in PB_ACC, armed for the next one. -/
def Node.gathers (n : Node) (acc : Word) (i : BitVec 3) (ack : Bool) (dr : Byte) : Node :=
  { n with pAcken := ack, pEvt := none, pDr := dr, pbI := i, pbAcc := acc, busy := .recvData }

/-- The peripheral once `receive_blocking` has returned the word. -/
def Node.gathered (n : Node) (acc : Word) (dr : Byte) : Node :=
  { n with pAcken := true, pEvt := none, pDr := dr, pbI := 3, pbAcc := acc, busy := .idle, ret := .message acc }

section
variable {s : State} {n : NodeId} {N : Node} {turns : List Turn} {k : Nat} {Q : State → Prop} {c b : Byte}
variable (hN : N.CanServe)
include hN

/-- Stage 1 meets the match ENV presents. -/
theorem State.Opened.matched (hc : c ∈ ([0x60, 0x68, 0x70, 0x78] : List Byte)) (hb : N.busy = .recvAddress)
    (he : N.pEvt = none) (h : s.Opened n N (.env n .evt [c] :: .main n :: turns))
    (hk : ∀ t : State, t.Opened n (N.gathers N.pbAcc 0 true N.pDr) turns → t.Leads k Q) : s.Leads (k + 2) Q := by
  obtain ⟨i, hd, hi⟩ := decode_evt_of_match N.cnt hc
  obtain ⟨u, hstep, hu⟩ := h.latches hd hi hN.1 he
  simp only [isDataRx_of_match hc] at hu
  obtain ⟨v, hstep', hv⟩ := hu.serves hN.2 (by simp [hb]) (by simp [hb, Busy.atPhase])
    (afterExpiry_recvAddress hb rfl (isAddrMatch_iff.2 hc))
  exact leads_succ hstep (leads_succ hstep' (hk v hv))

/-- Stage 2 meets the data event ENV presents, whatever it makes of it. -/
theorem State.Opened.met {N' : Node} (hc : c ∈ ([0x80, 0x88, 0x90, 0x98] : List Byte)) (hb : N.busy = .recvData)
    (he : N.pEvt = none) (hN' : afterExpiry { N with pEvt := some c, pDr := b } = N')
    (h : s.Opened n N (.env n .evt [c, b] :: .main n :: turns))
    (hk : ∀ t : State, t.Opened n N' turns → t.Leads k Q) : s.Leads (k + 2) Q := by
  obtain ⟨i, hd, hi⟩ := decode_evt_of_data N.cnt b hc
  obtain ⟨u, hstep, hu⟩ := h.latches hd hi hN.1 he
  rw [isDataRx_iff.2 hc] at hu
  obtain ⟨v, hstep', hv⟩ := hu.serves hN.2 (by simp [hb]) (by simp [hb, Busy.atPhase]) hN'
  exact leads_succ hstep (leads_succ hstep' (hk v hv))

/-- One of the first three bytes. -/
theorem State.Opened.byte {acc : Word} {i : BitVec 3} {ack : Bool} {dr : Byte}
    (hc : c ∈ ([0x80, 0x88, 0x90, 0x98] : List Byte)) (hi : i.toNat < 3)
    (h : s.Opened n (N.gathers acc i ack dr) (.env n .evt [c, b] :: .main n :: turns))
    (hk : ∀ t : State, t.Opened n (N.gathers (setLane acc i.toNat b) (i + 1) (decide (i.toNat + 1 < 3)) b) turns →
      t.Leads k Q) : s.Leads (k + 2) Q :=
  State.Opened.met (N := N.gathers acc i ack dr) hN hc rfl rfl
    (afterExpiry_recvData_more rfl rfl (isDataRx_iff.2 hc) hi) h hk

/-- Byte 3, with which the call returns. -/
theorem State.Opened.last {acc : Word} {ack : Bool} {dr : Byte} (hc : c ∈ ([0x80, 0x88, 0x90, 0x98] : List Byte))
    (h : s.Opened n (N.gathers acc 3 ack dr) (.env n .evt [c, b] :: .main n :: turns))
    (hk : ∀ t : State, t.Opened n (N.gathered (setLane acc 3 b) b) turns → t.Leads k Q) : s.Leads (k + 2) Q :=
  State.Opened.met (N := N.gathers acc 3 ack dr) hN hc rfl rfl
    (afterExpiry_recvData_last rfl rfl (isDataRx_iff.2 hc) rfl) h hk

end

end Sys2Proof.Machine

namespace Sys2Proof.Proofs

open Sys2Proof Sys2Proof.Machine

/-- Settles O42: the call and each stage meet the expected event, and a run of eleven turns chains them. -/
theorem blockingReceiveAssemblesFourBytes : Obligations.BlockingReceiveAssemblesFourBytes := by
  refine ⟨fun s hserve ha he => ?waits, fun c s hc hserve ha he => ?matchedAtOnce, fun c s hc hb he => ?matched,
    fun c s hc hb he => ⟨fun hi => ?more, fun hi => ?last⟩, ?run⟩
  case waits =>
    rw [exec_receiveBlocking hserve ha]
    exact congrArg _ (State.mapSelf_congr _ (observe_of_none he))
  case matchedAtOnce =>
    simp only [exec_receiveBlocking_of_latched hserve ha he, recvAddressOn_of_match (isAddrMatch_iff.2 hc)]
  case matched => exact resume_of_wait (by rw [hb]; rfl) (afterExpiry_recvAddress hb he (isAddrMatch_iff.2 hc))
  case more => exact resume_of_wait (by rw [hb]; rfl) (afterExpiry_recvData_more hb he (isDataRx_iff.2 hc) hi)
  case last => exact resume_of_wait (by rw [hb]; rfl) (afterExpiry_recvData_last hb he (isDataRx_iff.2 hc) hi)
  case run =>
    intro s n c0 c1 c2 c3 c4 b0 b1 b2 b3 calls turns h0 h1 h2 h3 h4 hc hserve ha he hb hp hs
    have hN : ((s.node n).awaits calls).CanServe := hserve
    obtain ⟨u, hstep, hu⟩ := State.Opened.calls_blocking ⟨rfl, hc, hs⟩ hserve ha he hb hp
    refine leads_succ hstep (State.Opened.matched hN h0 rfl he hu fun t ht => ?_)
    refine State.Opened.byte hN h1 (i := 0) (by decide) ht fun t ht => ?_
    refine State.Opened.byte hN h2 (i := 1) (by decide) ht fun t ht => ?_
    refine State.Opened.byte hN h3 (i := 2) (by decide) ht fun t ht => ?_
    refine State.Opened.last hN h4 ht fun t ht => leads_zero ?_
    rw [ht.node]
    exact ⟨congrArg Result.message (setLane_four 0 b0 b1 b2 b3), rfl, rfl, rfl, rfl, rfl, rfl, rfl, rfl⟩

/-- Settles O43: each stage meets an event outside its class, at its turn, at the call or as an expiry. -/
theorem blockingReceiveMeetsUnexpectedEvents : Obligations.BlockingReceiveMeetsUnexpectedEvents := by
  intro s aborts skips
  refine ⟨fun c hb he hc => ?data, fun c hb he hc => ?address, fun c hserve ha he hc => ?call, fun hb he => ?expiresData,
    fun hb he => ?expiresAddress, fun he => ?latched, fun hb => ?afterData, fun hb => ?afterAddress⟩
  case data =>
    exact resume_of_wait (by rw [hb]; rfl)
      ((afterExpiry_recvData_eq hb he).trans (recvDataOn_of_not_data (isDataRx_eq_false hc)))
  case address =>
    exact resume_of_wait (by rw [hb]; rfl)
      ((afterExpiry_recvAddress_eq hb he).trans (recvAddressOn_of_not_match (isAddrMatch_eq_false hc)))
  case call =>
    simp only [exec_receiveBlocking_of_latched hserve ha he, recvAddressOn_of_not_match (isAddrMatch_eq_false hc)]
    rfl
  case expiresData => exact congrArg _ (State.mapSelf_congr _ (expire_recvData hb he))
  case expiresAddress => exact congrArg _ (State.mapSelf_congr _ (expire_recvAddress hb he))
  case latched =>
    obtain ⟨c, hc⟩ := Option.isSome_iff_exists.1 he
    exact congrArg _ (State.mapSelf_of_fixed (expire_of_some hc))
  case afterData => exact resume_of_wait (by rw [hb]; rfl) (afterExpiry_recvDataExpired hb)
  case afterAddress => exact resume_of_wait (by rw [hb]; rfl) (afterExpiry_recvAddressExpired hb)

end Sys2Proof.Proofs
end

section
/-! SUPPORT. The family 43_peripheral_async.md: an interrupt context's turn, the stop branch that completes a message, a
callback's forbidden call, the host's operations of the asynchronous path, five events from ENV each met by the handler;
and the twelve statements, assembled from these. -/

namespace Sys2Proof.Machine

/-! ## An interrupt context's turn (R180, R250) -/

section
variable {s : State} {n : NodeId} {turns : List Turn}

theorem fetch_irq (hs : s.sched = .irq n :: turns) : fetch s = fetchIrq (s.turnOf n turns) := by
  simp only [fetch, hs, Turn.node, State.turnOf]

theorem fetchIrq_of_ready {c : Byte} (h : s.self.Ready c) : fetchIrq s = .run (irqBranch s.self.cnt c) s := by
  obtain ⟨he, hc⟩ := Node.ready_iff.1 h
  simp only [fetchIrq, hc, he, if_true]

theorem fetchIrq_of_masked (h : ∀ c, ¬ s.self.Ready c) : fetchIrq s = .idle s := by
  cases hc : s.self.pEvt with
  | none => simp only [fetchIrq, hc]
  | some c =>
    have he : ¬ s.self.irqEnabled = true := fun he => h c (Node.ready_iff.2 ⟨he, hc⟩)
    simp only [fetchIrq, hc, if_neg he]

theorem step_irq_of_ready {c : Byte} (hs : s.sched = .irq n :: turns) (h : (s.node n).Ready c) :
    step s = exec (irqBranch (s.node n).cnt c) (s.turnOf n turns) := by
  simp only [step, fetch_irq hs, fetchIrq_of_ready (s := s.turnOf n turns) h, State.self_turnOf]

/-- A masked event stays latched (R250). -/
theorem step_irq_of_masked (hs : s.sched = .irq n :: turns) (h : ∀ c, ¬ (s.node n).Ready c) :
    step s = .next (s.turnOf n turns) := by
  simp only [step, fetch_irq hs, fetchIrq_of_masked (s := s.turnOf n turns) h]

end

/-! ## Link Configuration empties the assembly (R231) -/

theorem exec_initPeripheral_assemblyRegs {sla : BitVec 7} {s t : State} (h : exec (.initPeripheral sla) s = .next t) :
    t.self.assemblyRegs = (0, 0, false, false) := by
  simp only [exec, execInitPeripheral] at h
  split at h
  · cases h
  · split at h
    · cases h
    · split at h
      · cases h
      · split at h
        · cases h
        · cases h
          simp [Node.assemblyRegs]

/-! ## The stop branch that completes a message (R185) -/

section
variable {s : State} (h : s.self.Ready 0xA0) (hn : s.self.cnt = 4) (hfd : s.self.fired = false)
include h hn hfd

theorem exec_irqStop_eq : exec .irqStop s = handlerRun completeMessage (fun _ => true) s := by
  have hguard : (takeInterrupt s).self.cnt = 4 ∧ (takeInterrupt s).self.fired = false := by
    rw [takeInterrupt, State.self_mapSelf]
    exact ⟨hn, hfd⟩
  show execIrqStop s = _
  rw [execIrqStop, if_pos h.irqTaken]
  simp only [handlerRun, if_pos hguard]

theorem exec_irqStop_of_no_callback (hcb : s.self.cb = none) :
    exec .irqStop s = .next (s.mapSelf fun n =>
      { n with done := true, fired := true, pAcken := true, pEvt := none }) := by
  obtain ⟨-, -, -, hx, -⟩ := id h
  rw [exec_irqStop_eq h hn hfd, handlerRun, completeMessage_of_none (by simpa [takeInterrupt] using hcb)]
  simp only [takeInterrupt, returnFromInterrupt, andThen_next, State.mapSelf_mapSelf]
  exact congrArg _ (State.mapSelf_congr _ (by simp [Node.rearm, hx]))

theorem exec_irqStop_of_callback {f : Byte} (hcb : s.self.cb = some f)
    (hp : ∀ i ∈ (s.self.hostFn f).calls s.self.acc, Permitted i = true) :
    ∃ r, exec .irqStop s = .next ((s.emitCb s.self.acc).mapSelf fun n =>
      { n with
        fired := true, pAcken := true, pEvt := none, cbRet := r,
        done := !((s.self.hostFn f).calls n.acc).contains .takeMessage }) := by
  obtain ⟨hr, -, -, hx, -⟩ := id h
  have hself : (takeInterrupt s).self = { s.self with ctx := .irq } := State.self_mapSelf _ _
  have hfn : (takeInterrupt s).self.hostFn f = s.self.hostFn f := Node.hostFn_of_fns (by rw [hself]) f
  obtain ⟨r, hrun⟩ := completeMessage_of_some (s := takeInterrupt s) (f := f) (by rw [hself]; exact hcb)
    (by rw [hself]) (by rw [hself]; exact hr) (by rw [hfn, hself]; exact hp)
  refine ⟨r, ?_⟩
  rw [exec_irqStop_eq h hn hfd, handlerRun, hrun, hfn, hself]
  simp only [takeInterrupt, returnFromInterrupt, andThen_next, State.mapSelf_mapSelf, State.emitCb_mapSelf]
  exact congrArg _ (State.mapSelf_congr _ (by simp [Node.rearm, hx]))

end

/-! ## A callback's forbidden call (R197) -/

section
variable {s : State} {pre post : List Instr} {i : Instr}

/-- A body runs as far as its first forbidden call. -/
theorem runCalls_of_forbidden (hpre : ∀ j ∈ pre, Permitted j = true) (hf : i.format = .hostop)
    (hi : Permitted i = false) (hx : s.self.ctx = .irq) (hr : s.self.role = .peripheral) :
    runCalls (pre ++ i :: post) s = .refused .blockingInHandler := by
  induction pre generalizing s with
  | nil => simp only [List.nil_append, runCalls, callbackCall_not_permitted hi, if_pos hf, andThen_refused]
  | cons j pre ih =>
    obtain ⟨r, hcall⟩ := callbackCall_permitted (hpre j (by simp)) hx hr
    simp only [List.cons_append, runCalls, hcall, andThen_next]
    exact ih (fun k hk => hpre k (by simp [hk])) (by simpa using hx) (by simpa using hr)

/-- With a callback registered a completion is the run of its body. -/
theorem completeMessage_eq_runCalls {f : Byte} (hcb : s.self.cb = some f) :
    completeMessage s = runCalls ((s.self.hostFn f).calls s.self.acc)
      ((s.emitCb s.self.acc).mapSelf fun n => { n with done := true, fired := true }) := by
  simp only [completeMessage, invokeCallback, State.self_mapSelf, hcb, State.emitCb_mapSelf,
    Node.hostFn_of_fns (n := { s.self with done := true, cb := some f, fired := true }) (m := s.self) rfl]

theorem completeMessage_of_forbidden {f : Byte} (hcb : s.self.cb = some f)
    (hcalls : (s.self.hostFn f).calls s.self.acc = pre ++ i :: post) (hpre : ∀ j ∈ pre, Permitted j = true)
    (hf : i.format = .hostop) (hi : Permitted i = false) (hx : s.self.ctx = .irq) (hr : s.self.role = .peripheral) :
    completeMessage s = .refused .blockingInHandler := by
  rw [completeMessage_eq_runCalls hcb, hcalls]
  exact runCalls_of_forbidden hpre hf hi (by simpa using hx) (by simpa using hr)

theorem exec_irqDataNack_of_forbidden {g : Bool} {f : Byte} (h : s.self.Ready (dataNackCode g))
    (hn : s.self.cnt.toNat < 4) (hcb : s.self.cb = some f)
    (hcalls : (s.self.hostFn f).calls (setLane s.self.acc s.self.cnt.toNat s.self.pDr) = pre ++ i :: post)
    (hpre : ∀ j ∈ pre, Permitted j = true) (hf : i.format = .hostop) (hi : Permitted i = false) :
    exec (.irqDataNack g) s = .refused .blockingInHandler := by
  obtain ⟨hr, -⟩ := id h
  have hself : ((takeInterrupt s).mapSelf Node.storeByte).self = { s.self with ctx := .irq }.storeByte := by
    rw [takeInterrupt, State.mapSelf_mapSelf, State.self_mapSelf]
  have hrefused := completeMessage_of_forbidden (s := (takeInterrupt s).mapSelf Node.storeByte)
    (by rw [hself]; exact hcb) (by rw [hself]; exact hcalls) hpre hf hi (by rw [hself]; rfl) (by rw [hself]; exact hr)
  rw [exec_irqDataNack_eq h hn, handlerRun, hrefused, andThen_refused]

end

/-! ## The host's operations of the asynchronous path (R190 to R193) -/

theorem returns_of_main {n : Node} (h : n.ctx = .main) (r : Result) : n.returns r = { n with ret := r } := by
  simp only [Node.returns, h]

section
variable {s : State}

theorem exec_enableAsync (h : s.self.CanServe) (f : Byte) :
    exec (.enableAsync f) s = .next (s.mapSelf fun n =>
      { n with
        cb := some f, cnt := 0, acc := 0, done := false, fired := false, asyncEn := true, pAcken := true, pEvt := none,
        ret := .unit }) := by
  show execEnableAsync f s = _
  rw [execEnableAsync, refusedPeripheralMain_eq_none.2 h, unlessRefused_none]
  exact congrArg _ (State.mapSelf_congr _ (returns_of_main (by exact h.2) _))

theorem exec_disableAsync (h : s.self.CanServe) :
    exec .disableAsync s = .next (s.mapSelf fun n => { n with asyncEn := false, ret := .unit }) := by
  show execDisableAsync s = _
  rw [execDisableAsync, refusedPeripheralMain_eq_none.2 h, unlessRefused_none]
  exact congrArg _ (State.mapSelf_congr _ (returns_of_main (by exact h.2) _))

section
variable (hr : s.self.role = .peripheral)
include hr

theorem exec_messageReady : exec .messageReady s = .next (s.mapSelf fun n => n.returns (.bool n.done)) := by
  show execMessageReady s = _
  rw [execMessageReady, refusedPeripheral_eq_none.2 hr, unlessRefused_none]

theorem exec_takeMessage_of_done (hd : s.self.done = true) :
    exec .takeMessage s = .next (s.mapSelf fun n => { n with done := false }.returns (.optMessage (some n.acc))) := by
  show execTakeMessage s = _
  rw [execTakeMessage, refusedPeripheral_eq_none.2 hr, unlessRefused_none]
  exact congrArg _ (State.mapSelf_congr _ (if_pos hd))

theorem exec_takeMessage_of_not_done (hd : s.self.done = false) :
    exec .takeMessage s = .next (s.mapSelf fun n => n.returns (.optMessage none)) := by
  show execTakeMessage s = _
  rw [execTakeMessage, refusedPeripheral_eq_none.2 hr, unlessRefused_none]
  exact congrArg _ (State.mapSelf_congr _ (if_neg (by rw [hd]; decide)))

end

end

/-! ## Five events from ENV (R201, R202) -/

/-- In the open composition node `n` is `N`, with this callback history and these turns to come. -/
structure State.Heard (s : State) (n : NodeId) (N : Node) (l : List Word) (turns : List Turn) : Prop where
  opened : s.Opened n N turns
  cblog : s.cblog = l

/-- The peripheral with `i` bytes in ACC and none latched, armed for the next one. -/
def Node.holding (n : Node) (acc : Word) (i : BitVec 3) (ack : Bool) (dr : Byte) : Node :=
  { n with pAcken := ack, pEvt := none, pDr := dr, cnt := i, acc := acc, done := false, fired := false }

/-- The peripheral once the handler has completed the message. -/
def Node.delivered (n : Node) (acc : Word) (d : Bool) (r : Result) (dr : Byte) : Node :=
  { n with pAcken := true, pEvt := none, pDr := dr, cnt := 4, acc := acc, done := d, fired := true, cbRet := r }

section
variable {s : State} {n : NodeId} {N : Node} {l : List Word} {turns : List Turn}

/-- ENV's turn latches its code and calls back nobody. -/
theorem State.Heard.latches {c d : Byte} {bs rest : List Byte} {i : Instr}
    (h : s.Heard n N l (.env n .evt bs :: turns)) (hd : decode .evt N.cnt bs = .ok (i, rest))
    (hi : eventOf i = some (c, d)) (hr : N.role = .peripheral) (he : N.pEvt = none) :
    ∃ u : State, step s = .next u ∧
      u.Heard n { N with pEvt := some c, pDr := if isDataRx c then d else N.pDr } l turns := by
  obtain ⟨u, hstep, hu⟩ := h.opened.latches hd hi hr he
  refine ⟨u, hstep, hu, ?_⟩
  rcases step_cblog hstep with hsame | ⟨-, m, turns', hsched⟩
  · exact hsame.trans h.cblog
  · rw [h.opened.sched] at hsched
    cases hsched

/-- The interrupt context's turn is the branch's run. -/
theorem State.Heard.step_handler {c : Byte} {i : Instr} (h : s.Heard n N l (.irq n :: turns)) (hr : N.Ready c)
    (hi : irqBranch N.cnt c = i) :
    ∃ u : State, u.cur = n ∧ u.self = N ∧ u.Heard n N l turns ∧ step s = exec i u := by
  have hturn := h.opened.turnOf
  have hstep := step_irq_of_ready h.opened.sched (h.opened.node ▸ hr)
  rw [h.opened.node, hi] at hstep
  exact ⟨_, rfl, hturn.self rfl, ⟨hturn, h.cblog⟩, hstep⟩

theorem State.Heard.mapSelf {u : State} (h : u.Heard n N l turns) (hcur : u.cur = n) (f : Node → Node) :
    (u.mapSelf f).Heard n (f N) l turns :=
  ⟨h.opened.mapSelf hcur f, (u.cblog_mapSelf f).trans h.cblog⟩

theorem State.Heard.emitCb {u : State} (h : u.Heard n N l turns) (m : Word) : (u.emitCb m).Heard n N (l ++ [m]) turns :=
  ⟨⟨by rw [State.node_emitCb, h.opened.node], h.opened.comp, h.opened.sched⟩, by rw [State.cblog_emitCb, h.cblog]⟩

end

section
variable {s : State} {n : NodeId} {N : Node} {l : List Word} {turns : List Turn} {k : Nat} {Q : State → Prop} {c b : Byte}
  {acc : Word} {ack : Bool} {dr : Byte}
variable (hN : N.role = .peripheral ∧ N.asyncEn = true ∧ N.ie = true ∧ N.ctx = .main)
include hN

/-- The address match and the handler's run for it, whatever was assembled before (R181). -/
theorem State.Heard.matched (hc : c ∈ ([0x60, 0x68, 0x70, 0x78] : List Byte)) (he : N.pEvt = none)
    (h : s.Heard n N l (.env n .evt [c] :: .irq n :: turns))
    (hk : ∀ t : State, t.Heard n (N.holding 0 0 true N.pDr) l turns → t.Leads k Q) : s.Leads (k + 2) Q := by
  obtain ⟨i, hd, hi⟩ := decode_evt_of_match N.cnt hc
  obtain ⟨u, hstep, hu⟩ := h.latches hd hi hN.1 he
  simp only [isDataRx_of_match hc] at hu
  obtain ⟨g, a, rfl⟩ := mem_addrMatch_iff.1 hc
  have hready := ready_of_latched hN (n := { N with pEvt := some (addrMatchCode g a) }) ⟨rfl, rfl, rfl, rfl⟩ rfl
  obtain ⟨v, hcur, hself, hv, hrun⟩ := hu.step_handler hready (irqBranch_addrMatchCode _ g a)
  rw [exec_irqAddrMatch_of_ready (hself ▸ hready)] at hrun
  exact leads_succ hstep (leads_succ hrun (hk _ (hv.mapSelf hcur _)))

/-- One of the first three bytes and the handler's run for it (R183). -/
theorem State.Heard.byte {i : BitVec 3} (hc : c ∈ ([0x80, 0x90] : List Byte)) (hi : i.toNat < 3)
    (h : s.Heard n (N.holding acc i ack dr) l (.env n .evt [c, b] :: .irq n :: turns))
    (hk : ∀ t : State, t.Heard n (N.holding (setLane acc i.toNat b) (i + 1) (decide (i.toNat + 1 < 3)) b) l turns →
      t.Leads k Q) : s.Leads (k + 2) Q := by
  have hdata := (by decide : ([0x80, 0x90] : List Byte) ⊆ [0x80, 0x88, 0x90, 0x98]) hc
  obtain ⟨j, hd, hj⟩ := decode_evt_of_data (N.holding acc i ack dr).cnt b hdata
  obtain ⟨u, hstep, hu⟩ := h.latches hd hj hN.1 rfl
  rw [isDataRx_iff.2 hdata] at hu
  obtain ⟨g, rfl⟩ := mem_dataRxAck_iff.1 hc
  have hready := ready_of_latched hN (n := { N.holding acc i ack b with pEvt := some (dataAckCode g) })
    ⟨rfl, rfl, rfl, rfl⟩ rfl
  obtain ⟨v, hcur, hself, hv, hrun⟩ := hu.step_handler hready (irqBranch_dataAckCode hi g)
  rw [exec_irqDataAck_of_ready (hself ▸ hready) (hself ▸ hi)] at hrun
  exact leads_succ hstep (leads_succ hrun (hk _ (hv.mapSelf hcur _)))

/-- Byte 3 and the handler's run for it, with a callback or none (R184, R196). -/
theorem State.Heard.last {m : Word} (hc : c ∈ ([0x88, 0x98] : List Byte)) (hm : setLane acc 3 b = m)
    (hperm : ∀ f, N.cb = some f → ∀ i ∈ (N.hostFn f).calls m, Permitted i = true)
    (h : s.Heard n (N.holding acc 3 ack dr) l (.env n .evt [c, b] :: .irq n :: turns))
    (hk : ∀ (t : State) (l' : List Word) (d : Bool) (r : Result),
      (∀ f, N.cb = some f → l' = l ++ [m] ∧ d = !((N.hostFn f).calls m).contains .takeMessage) →
      (N.cb = none → l' = l ∧ d = true) → t.Heard n (N.delivered m d r b) l' turns → t.Leads k Q) :
    s.Leads (k + 2) Q := by
  have hdata := (by decide : ([0x88, 0x98] : List Byte) ⊆ [0x80, 0x88, 0x90, 0x98]) hc
  obtain ⟨j, hd, hj⟩ := decode_evt_of_data (N.holding acc 3 ack dr).cnt b hdata
  obtain ⟨u, hstep, hu⟩ := h.latches hd hj hN.1 rfl
  rw [isDataRx_iff.2 hdata] at hu
  refine leads_succ hstep ?_
  obtain ⟨g, rfl⟩ := mem_dataRxNack_iff.1 hc
  have hready := ready_of_latched hN (n := { N.holding acc 3 ack b with pEvt := some (dataNackCode g) })
    ⟨rfl, rfl, rfl, rfl⟩ rfl
  have hcnt : (3 : BitVec 3).toNat < 4 := by decide
  obtain ⟨v, hcur, hself, hv, hrun⟩ := hu.step_handler hready (irqBranch_dataNackCode hcnt g)
  have hready' : v.self.Ready (dataNackCode g) := hself ▸ hready
  have hcnt' : v.self.cnt.toNat < 4 := hself ▸ hcnt
  subst hm
  cases hcb : N.cb with
  | none =>
    rw [exec_irqDataNack_of_no_callback hready' hcnt' (by rw [hself]; exact hcb)] at hrun
    exact leads_succ hrun (hk _ l true N.cbRet (by simp [hcb]) (fun _ => ⟨rfl, rfl⟩) (hv.mapSelf hcur _))
  | some f =>
    have hfn : v.self.hostFn f = N.hostFn f := Node.hostFn_of_fns (by rw [hself]; rfl) f
    obtain ⟨r, hnext⟩ := exec_irqDataNack_of_callback hready' hcnt' (by rw [hself]; exact hcb)
      (m := setLane acc 3 b) (by rw [hself]; rfl) (by rw [hfn]; exact hperm f hcb)
    rw [hnext, hfn] at hrun
    refine leads_succ hrun (hk _ _ _ r (fun f' hf' => ?_) (by simp [hcb]) ((hv.emitCb _).mapSelf hcur _))
    rw [hcb] at hf'
    cases hf'
    exact ⟨rfl, rfl⟩

end

end Sys2Proof.Machine

namespace Sys2Proof.Proofs

open Sys2Proof Sys2Proof.Machine

/-- Settles O4: Link Configuration leaves the empty assembly, and every effect keeps the invariant of both nodes. -/
theorem stepKeepsTheAssemblyInvariant : Obligations.StepKeepsTheAssemblyInvariant := by
  refine ⟨fun sla s t h => assemblyInv_of_empty (exec_initPeripheral_assemblyRegs h), fun s t ha hb h => ?_⟩
  have hs : s.Both Node.AssemblyInv := fun n => by cases n; exacts [ha, hb]
  have ht := step_assemblyInv h hs
  exact ⟨ht .a, ht .b⟩

/-- Settles O14: the turn's fetch, where the handler's step is enabled and where it is not. -/
theorem stepRunsTheSelectedHandlerBranch : Obligations.StepRunsTheSelectedHandlerBranch :=
  fun _ _ _ hs => ⟨fun _ h => step_irq_of_ready hs h, step_irq_of_masked hs⟩

/-- Settles O17: each of the four codes selects the address-match branch. -/
theorem addressMatchResetsTheAssembly : Obligations.AddressMatchResetsTheAssembly := by
  intro c hc s h
  obtain ⟨g, a, rfl⟩ := mem_addrMatch_iff.1 hc
  rw [irqBranch_addrMatchCode]
  exact exec_irqAddrMatch_of_ready h

/-- Settles O18: both codes select the ack-variant branch while CNT is below 3. -/
theorem acknowledgedByteIsStoredInItsLane : Obligations.AcknowledgedByteIsStoredInItsLane := by
  intro c hc s h hn
  obtain ⟨g, rfl⟩ := mem_dataRxAck_iff.1 hc
  rw [irqBranch_dataAckCode hn]
  exact exec_irqDataAck_of_ready h hn

/-- Settles O20: both codes select the nack-variant branch while CNT is below 4, and it completes the message with a
callback or without. -/
theorem lastByteCompletesTheMessage : Obligations.LastByteCompletesTheMessage := by
  intro c hc s h hn
  obtain ⟨g, rfl⟩ := mem_dataRxNack_iff.1 hc
  rw [irqBranch_dataNackCode hn]
  exact ⟨exec_irqDataNack_of_no_callback h hn, fun f m hcb hm hp => exec_irqDataNack_of_callback h hn hcb hm hp⟩

/-- Settles O21: the guard of the stop branch, and where it holds the completion with a callback or without. -/
theorem stopCompletesOnlyAnUnfiredMessage : Obligations.StopCompletesOnlyAnUnfiredMessage := fun _ h =>
  ⟨exec_irqStop_of_ready h, fun hn hfd hcb => exec_irqStop_of_no_callback h hn hfd hcb,
    fun _ hn hfd hcb hp => exec_irqStop_of_callback h hn hfd hcb hp⟩

/-- Settles O22: by the invariants a full counter has fired, so the guard of the stop branch fails. -/
theorem stopBranchOnlyRearmsUnderTheAssemblyInvariants : Obligations.StopBranchOnlyRearmsUnderTheAssemblyInvariants :=
  fun _ hinv h => exec_irqStop_of_ready h hinv.not_unfired

/-- Settles O23: a code of no earlier branch selects the default one (O15). -/
theorem otherEventsAreIgnored : Obligations.OtherEventsAreIgnored := by
  intro c s h hnot hack hnack
  obtain ⟨-, -, -, -, hother⟩ := handlerBranchesAreSelectedByCodeAndCount s.self.cnt c
  rw [hother hnot hack hnack]
  exact exec_irqOther_of_ready h

/-- Settles O24: the body runs as far as the forbidden call, whose refusal is the run's. -/
theorem callbackMayNotCallOtherOperations : Obligations.CallbackMayNotCallOtherOperations := by
  intro c hc s f pre post i h hn hcb hcalls hpre hf hi
  obtain ⟨g, rfl⟩ := mem_dataRxNack_iff.1 hc
  rw [irqBranch_dataNackCode hn]
  exact exec_irqDataNack_of_forbidden h hn hcb hcalls hpre hf hi

/-- Settles O25: the match empties the assembly, three bytes are stored and the fourth completes the message. -/
theorem fiveEventsYieldOneCallback : Obligations.FiveEventsYieldOneCallback := by
  intro s n c0 c1 c2 c3 c4 b0 b1 b2 b3 turns h0 h1 h2 h3 h4 hc hr ha hi hx he hperm hs
  have hN := And.intro hr (And.intro ha (And.intro hi hx))
  refine State.Heard.matched hN h0 he ⟨⟨rfl, hc, hs⟩, rfl⟩ fun t ht => ?_
  refine State.Heard.byte hN h1 (i := 0) (by decide) ht fun t ht => ?_
  refine State.Heard.byte hN h2 (i := 1) (by decide) ht fun t ht => ?_
  refine State.Heard.byte hN h3 (i := 2) (by decide) ht fun t ht => ?_
  refine State.Heard.last hN h4 (setLane_four 0 b0 b1 b2 b3) hperm ht fun t l d r hsome hnone ht => leads_zero ?_
  rw [ht.opened.node, ht.cblog]
  exact ⟨rfl, rfl, rfl, rfl, rfl, hsome, hnone⟩

/-- Settles O44: both calls pass their test and hand back nothing in MAIN. -/
theorem enableAndDisableAsync : Obligations.EnableAndDisableAsync :=
  fun _ h => ⟨exec_enableAsync h, exec_disableAsync h⟩

/-- Settles O46: taking a completed message clears DONE, so that a second take finds none. -/
theorem takeMessageTakesEachCompletionOnce : Obligations.TakeMessageTakesEachCompletionOnce := by
  intro s hr
  refine ⟨exec_messageReady hr, fun hd => ⟨_, exec_takeMessage_of_done hr hd, rfl, ?_⟩,
    exec_takeMessage_of_not_done hr⟩
  exact exec_takeMessage_of_not_done (by simpa using hr) (by simp)

end Sys2Proof.Proofs
end

section
/-! SUPPORT. The family 44_message_framing.md: parity as the exclusive-or of a range of bits, the fields of a built
word, what one flipped bit does to the stored and the computed parity; and the four statements, assembled from these. -/

namespace Sys2Proof.Machine

/-! ## Parity is an exclusive-or of bits (R210) -/

/-- The exclusive-or of the low `n` bits. -/
def xorOfLow (n : Nat) (w : Word) : Bool := (List.range n).foldl (fun p i => p ^^ w.getLsbD i) false

@[simp] theorem xorOfLow_zero (w : Word) : xorOfLow 0 w = false := rfl

theorem xorOfLow_succ (n : Nat) (w : Word) : xorOfLow (n + 1) w = (xorOfLow n w ^^ w.getLsbD n) := by
  simp only [xorOfLow, List.range_succ, List.foldl_append, List.foldl_cons, List.foldl_nil]

theorem xorOfLow_xor (n : Nat) (a b : Word) : xorOfLow n (a ^^^ b) = (xorOfLow n a ^^ xorOfLow n b) := by
  induction n with
  | zero => rfl
  | succ n ih =>
    rw [xorOfLow_succ, xorOfLow_succ, xorOfLow_succ, ih, BitVec.getLsbD_xor, Bool.xor_assoc, Bool.xor_assoc,
      Bool.xor_left_comm (xorOfLow n b)]

theorem xorOfLow_add (k n : Nat) (w : Word) : xorOfLow (k + n) w = (xorOfLow k w ^^ xorOfLow n (w >>> k)) := by
  induction n with
  | zero => simp
  | succ n ih => rw [← Nat.add_assoc, xorOfLow_succ, xorOfLow_succ, ih, BitVec.getLsbD_ushiftRight, Bool.xor_assoc]

/-- A fold by `k` leaves in the low `k` bits what stood in twice as many. -/
theorem xorOfLow_fold (k : Nat) (w : Word) : xorOfLow k (w ^^^ (w >>> k)) = xorOfLow (k + k) w := by
  rw [xorOfLow_xor, xorOfLow_add]

/-- The five folds reduce 32 bits to one, and the mask takes bit 0 out of them (R210). -/
theorem parity31_eq_xorOfLow (w : Word) : parity31 w = xorOfLow 31 (w >>> 1) := by
  have hbit (v : Word) : v.getLsbD 0 = xorOfLow 1 v := by rw [xorOfLow_succ, xorOfLow_zero, Bool.false_xor]
  have hclear : (w &&& 0xFFFFFFFE).getLsbD 0 = false := by simp
  have hshift : (w &&& 0xFFFFFFFE) >>> 1 = w >>> 1 := by
    rw [BitVec.ushiftRight_and_distrib]
    apply BitVec.eq_of_getLsbD_eq
    intro i hi
    interval_cases i <;> simp
  calc parity31 w = xorOfLow 32 (w &&& 0xFFFFFFFE) := by
        simp only [parity31, hbit, xorOfLow_fold]
    _ = xorOfLow 31 (w >>> 1) := by
        rw [xorOfLow_add 1 31, ← hbit, hclear, hshift, Bool.false_xor]

/-- Parity does not read bit 0. -/
theorem parity31_congr {m k : Word} (h : m >>> 1 = k >>> 1) : parity31 m = parity31 k := by
  rw [parity31_eq_xorOfLow, parity31_eq_xorOfLow, h]

/-! ## Built words (R211) -/

theorem unsignedWord_eq_msgWord (f : BitVec 16) (a : Byte) : unsignedWord f a = msgWord f (a.extractLsb' 0 4) 0 := by
  apply BitVec.eq_of_getLsbD_eq
  intro i hi
  simp only [unsignedWord, msgWord, BitVec.getLsbD_append, BitVec.getLsbD_extractLsb', BitVec.getLsbD_or,
    BitVec.getLsbD_shiftLeft, BitVec.getLsbD_setWidth, BitVec.getLsbD_and]
  interval_cases i <;> simp

@[simp] theorem flagsOf_msgWord (f : BitVec 16) (a : BitVec 4) (rp : BitVec 12) : flagsOf (msgWord f a rp) = f :=
  (msgWord_fields f a rp).left

@[simp] theorem auxOf_msgWord (f : BitVec 16) (a : BitVec 4) (rp : BitVec 12) : auxOf (msgWord f a rp) = a := by
  obtain ⟨-, haux, -⟩ := msgWord_fields f a rp
  exact haux

/-- The last field's bits, bit by bit (R91). -/
theorem getLsbD_msgWord_of_lt (f : BitVec 16) (a : BitVec 4) (rp : BitVec 12) {i : Nat} (hi : i < 12) :
    (msgWord f a rp).getLsbD i = rp.getLsbD i := by
  rw [msgWord, BitVec.getLsbD_append, if_pos hi]

/-- A parity bit as a word has nothing above bit 0. -/
theorem parityBit_ushiftRight_one (b : Bool) : ((BitVec.ofBool b).setWidth 32 : Word) >>> 1 = 0 := by
  cases b <;> decide

/-- Or-ing into the zero last field writes it (R91). -/
theorem msgWord_zero_or (f : BitVec 16) (a : BitVec 4) (rp : BitVec 12) :
    msgWord f a 0 ||| rp.setWidth 32 = msgWord f a rp := by
  apply BitVec.eq_of_getLsbD_eq
  intro i hi
  simp only [msgWord, BitVec.getLsbD_or, BitVec.getLsbD_append, BitVec.getLsbD_setWidth]
  by_cases hlast : i < 12
  · simp [hlast, hi]
  · simp [hlast, BitVec.getLsbD_of_ge rp i (by omega)]

theorem setWidth_parityBit (b : Bool) :
    ((BitVec.ofBool b).setWidth 12).setWidth 32 = (BitVec.ofBool b).setWidth 32 := by
  cases b <;> decide

/-- A built word is a Message word whose last field is the parity bit (R91, R211). -/
theorem buildWithAux_eq_msgWord (f : BitVec 16) (a : Byte) :
    buildWithAux f a = msgWord f (a.extractLsb' 0 4) ((BitVec.ofBool (parity31 (unsignedWord f a))).setWidth 12) := by
  rw [← msgWord_zero_or, setWidth_parityBit, ← unsignedWord_eq_msgWord, buildWithAux]

theorem parity31_buildWithAux (f : BitVec 16) (a : Byte) :
    parity31 (buildWithAux f a) = parity31 (unsignedWord f a) := by
  apply parity31_congr
  rw [buildWithAux, BitVec.ushiftRight_or_distrib, parityBit_ushiftRight_one]
  exact BitVec.or_zero

@[simp] theorem flagsOf_buildWithAux (f : BitVec 16) (a : Byte) : flagsOf (buildWithAux f a) = f := by
  rw [buildWithAux_eq_msgWord, flagsOf_msgWord]

@[simp] theorem auxOf_buildWithAux (f : BitVec 16) (a : Byte) : auxOf (buildWithAux f a) = a.extractLsb' 0 4 := by
  rw [buildWithAux_eq_msgWord, auxOf_msgWord]

theorem reserved_buildWithAux (f : BitVec 16) (a : Byte) : (buildWithAux f a).extractLsb' 1 11 = 0 := by
  apply BitVec.eq_of_getLsbD_eq
  intro i hi
  rw [buildWithAux_eq_msgWord, BitVec.getLsbD_extractLsb', getLsbD_msgWord_of_lt _ _ _ (by omega)]
  simp

/-- The stored parity is the computed one (R217). -/
theorem getLsbD_zero_buildWithAux (f : BitVec 16) (a : Byte) :
    (buildWithAux f a).getLsbD 0 = parity31 (buildWithAux f a) := by
  rw [parity31_buildWithAux, buildWithAux_eq_msgWord, getLsbD_msgWord_of_lt _ _ _ (by decide)]
  simp

/-- A 4-bit aux value fits its byte operand (R211). -/
theorem extractLsb'_setWidth_four (a : BitVec 4) : (a.setWidth 8).extractLsb' 0 4 = a := by
  apply BitVec.eq_of_getLsbD_eq
  intro i hi
  have hbyte : i < 8 := by omega
  simp [hi, hbyte]

/-- `has_flag` reads what `get_flags` returns (R220). -/
theorem flagAt_eq_getLsbD_flagsOf (m : Word) (i : Fin 16) : flagAt m i = (flagsOf m).getLsbD i := by
  simp [flagAt, flagsOf]

@[simp] theorem flagAt_buildWithAux (f : BitVec 16) (a : Byte) (i : Fin 16) :
    flagAt (buildWithAux f a) i = f.getLsbD i := by
  rw [flagAt_eq_getLsbD_flagsOf, flagsOf_buildWithAux]

/-- A built word can fail on the flag rules only (R211). -/
theorem isValidAt_buildWithAux_iff (fm : FlagMap) (f : BitVec 16) (a : Byte) :
    isValidAt fm (buildWithAux f a) = true ↔
      conflict fm (buildWithAux f a) = false ∧ soundWithoutAux fm (buildWithAux f a) = false := by
  rw [isValidAt_iff]
  simp only [getLsbD_zero_buildWithAux, and_true]

/-! ## One flipped bit (R218) -/

/-- A single bit has odd parity, but for bit 0, which parity does not read. -/
theorem parity31_one_shiftLeft : ∀ i < 32, parity31 ((1 : Word) <<< i) = decide (i ≠ 0) := by decide

theorem getLsbD_zero_flip (m : Word) (i : Nat) :
    (m ^^^ ((1 : Word) <<< i)).getLsbD 0 = (m.getLsbD 0 ^^ decide (i = 0)) := by
  rw [BitVec.getLsbD_xor]
  simp [Nat.pos_iff_ne_zero]

theorem parity31_flip (m : Word) {i : Nat} (hi : i < 32) :
    parity31 (m ^^^ ((1 : Word) <<< i)) = (parity31 m ^^ decide (i ≠ 0)) := by
  rw [parity31_xor, parity31_one_shiftLeft i hi]

end Sys2Proof.Machine

namespace Sys2Proof.Proofs

open Sys2Proof Sys2Proof.Machine

/-- Settles O52: the folds are a range's exclusive-or, whose bits are those of the word from bit 1 on. -/
theorem parityIsTheXorOfTheOtherBits : Obligations.ParityIsTheXorOfTheOtherBits := by
  intro w
  rw [parity31_eq_xorOfLow]
  simp only [xorOfLow, BitVec.getLsbD_ushiftRight, Nat.add_comm]

/-- Settles O53: the built word is the witness, field by field. -/
theorem builtWordsHaveTheirFieldsAndParity : Obligations.BuiltWordsHaveTheirFieldsAndParity := fun f a _ =>
  ⟨⟨buildWithAux f a, flagsOf_buildWithAux f a, auxOf_buildWithAux f a, reserved_buildWithAux f a,
    getLsbD_zero_buildWithAux f a, rfl⟩, rfl⟩

/-- Settles O54: a built word passes the parity test, and its flags and aux are the ones it was built from. -/
theorem builtWordIsValidExactlyWithoutConflict : Obligations.BuiltWordIsValidExactlyWithoutConflict := by
  intro fm f a
  rw [isValidAt_buildWithAux_iff, conflict_eq_false_iff, soundWithoutAux_eq_false_iff]
  simp only [flagAt_buildWithAux, auxOf_buildWithAux, extractLsb'_setWidth_four, and_assoc]

/-- Settles O55: the flip of bit 0 changes the stored parity of a valid word, any other the computed one (R218). -/
theorem oneFlippedBitIsAlwaysCaught : Obligations.OneFlippedBitIsAlwaysCaught := by
  intro fm m i hi hv
  obtain ⟨-, -, hpar⟩ := (isValidAt_iff fm m).1 hv
  apply isValidAt_of_wrong_parity
  rw [getLsbD_zero_flip, parity31_flip m hi, hpar]
  by_cases h : i = 0
  · simp [h]
  · simp [h]

end Sys2Proof.Proofs
end

section
/-! SUPPORT. The family 45_link_config.md: Link Configuration in MAIN as one test and one next state, and the critical
section's two calls; and the four statements, assembled from these. -/

namespace Sys2Proof.Machine

/-- A transaction stands against `init_controller`, or the node would change its role (R233). -/
def Node.RefusesController (n : Node) : Prop := n.role = .peripheral ∨ n.cOwn = true

/-- A transaction stands against `init_peripheral`, or the node would change its role (R233). -/
def Node.RefusesPeripheral (n : Node) : Prop :=
  n.role = .controller ∨ (n.role = .peripheral ∧ ¬ (n.pState = .idle ∧ n.pEvt = none))

theorem Node.not_refusesPeripheral_of_quiet {n : Node}
    (h : n.role = .none ∨ (n.role = .peripheral ∧ n.pState = .idle ∧ n.pEvt = none)) : ¬ n.RefusesPeripheral := by
  rcases h with hr | ⟨hr, hquiet⟩
  · simp [Node.RefusesPeripheral, hr]
  · simp [Node.RefusesPeripheral, hr, hquiet]

theorem Node.refusesPeripheral_of_open {n : Node}
    (h : n.role = .controller ∨ (n.role = .peripheral ∧ (n.pState = .addressed ∨ n.pEvt.isSome = true))) :
    n.RefusesPeripheral := by
  rcases h with hr | ⟨hr, ha | he⟩
  · exact .inl hr
  · exact .inr ⟨hr, fun hquiet => by simp [ha] at hquiet⟩
  · exact .inr ⟨hr, fun hquiet => by simp [hquiet.2] at he⟩

section
variable {s : State} (hx : s.self.ctx = .main)
include hx

theorem not_irq_of_main : ¬ s.self.ctx = .irq := by
  rw [hx]
  decide

/-! ## Link Configuration (R230, R231, R233) -/

theorem exec_initController_of_refuses (h : s.self.RefusesController) (hz : Word) :
    exec (.initController hz) s = .refused .reinitBusy :=
  (if_neg (not_irq_of_main hx)).trans (if_pos h)

theorem exec_initController_of_quiet (h : ¬ s.self.RefusesController) (hz : Word) :
    exec (.initController hz) s = .next (s.mapSelf fun n =>
      { n with role := .controller, busHz := hz, cState := .idle, cOwn := false, ret := .unit }) := by
  refine (if_neg (not_irq_of_main hx)).trans ((if_neg h).trans ?_)
  exact congrArg _ (State.mapSelf_congr _ (returns_of_main (by exact hx) _))

/-- The address is tested before the moment (log 13). -/
theorem exec_initPeripheral_zero : exec (.initPeripheral 0) s = .refused .badAddress :=
  (if_neg (not_irq_of_main hx)).trans (if_pos rfl)

section
variable {sla : BitVec 7} (hs : sla ≠ 0)
include hs

theorem exec_initPeripheral_of_refuses (h : s.self.RefusesPeripheral) :
    exec (.initPeripheral sla) s = .refused .reinitBusy := by
  refine (if_neg (not_irq_of_main hx)).trans ((if_neg hs).trans ?_)
  rcases h with hr | hopen
  · exact if_pos hr
  · exact (if_neg (by rw [hopen.1]; decide)).trans (if_pos hopen)

theorem exec_initPeripheral_of_quiet (h : ¬ s.self.RefusesPeripheral) :
    exec (.initPeripheral sla) s = .next (s.mapSelf fun n =>
      { n with
        role := .peripheral, sla := sla, pState := .idle, pGc := false, pEvt := none, pAcken := true, asyncEn := false,
        cnt := 0, acc := 0, done := false, fired := false, cb := none, ret := .unit }) := by
  obtain ⟨hr, hopen⟩ := not_or.1 h
  refine (if_neg (not_irq_of_main hx)).trans ((if_neg hs).trans ((if_neg hr).trans ((if_neg hopen).trans ?_)))
  exact congrArg _ (State.mapSelf_congr _ (returns_of_main (by exact hx) _))

end

end

/-! ## The critical section (R234, R235) -/

section
variable {s : State} (h : s.self.CanServe)
include h

theorem exec_irqDisable :
    exec .irqDisable s = .next (s.mapSelf fun n => { n with ret := .bool n.ie, ie := false }) := by
  show execIrqDisable s = _
  rw [execIrqDisable, refusedPeripheralMain_eq_none.2 h, unlessRefused_none]
  exact congrArg _ (State.mapSelf_congr _ (returns_of_main (by exact h.2) _))

theorem exec_irqRestore (v : Bool) :
    exec (.irqRestore v) s = .next (s.mapSelf fun n => { n with ie := v, ret := .unit }) := by
  show execIrqRestore v s = _
  rw [execIrqRestore, refusedPeripheralMain_eq_none.2 h, unlessRefused_none]
  exact congrArg _ (State.mapSelf_congr _ (returns_of_main (by exact h.2) _))

end

end Sys2Proof.Machine

namespace Sys2Proof.Proofs

open Sys2Proof Sys2Proof.Machine

/-- Settles O49: each initialisation's test of the moment, and the test of the address before it. -/
theorem reconfigurationNeedsAQuietMoment : Obligations.ReconfigurationNeedsAQuietMoment := fun _ hz _ hx hs =>
  ⟨fun h => exec_initController_of_refuses hx h.symm hz,
    fun h => exec_initPeripheral_of_refuses hx hs (Node.refusesPeripheral_of_open h), exec_initPeripheral_zero hx⟩

/-- Settles O47: neither of the two reasons of the test stands (R233). -/
theorem initControllerConfigures : Obligations.InitControllerConfigures := by
  intro s hz hx hr ho
  exact exec_initController_of_quiet hx (not_or.2 ⟨hr, by simp [ho]⟩) hz

/-- Settles O48: an unconfigured node and a quiet peripheral pass the test of the moment. -/
theorem initPeripheralConfigures : Obligations.InitPeripheralConfigures := fun _ hx h =>
  ⟨fun _ hs => exec_initPeripheral_of_quiet hx hs (Node.not_refusesPeripheral_of_quiet h), exec_initPeripheral_zero hx⟩

/-- Settles O50: both calls pass their test and write IE alone. -/
theorem criticalSectionSavesAndRestoresIE : Obligations.CriticalSectionSavesAndRestoresIE :=
  fun _ h => ⟨exec_irqDisable h, exec_irqRestore h⟩

end Sys2Proof.Proofs
end

/-! # The launch state (R51, R281): it meets the invariant, which is the base case of an induction over a run -/

section

namespace Sys2Proof.Machine

@[simp] theorem State.node_reset (n : NodeId) : State.reset.node n = Node.reset := by
  cases n <;> rfl

@[simp] theorem State.owned_reset : State.reset.owned = 0 := rfl

theorem Node.reset_assemblyInv : Node.reset.AssemblyInv := assemblyInv_of_empty rfl

/-- A reset controller rests in IDLE and does not own the bus (R22, R23). -/
theorem Node.reset_controllerInv : Node.reset.ControllerInv :=
  controllerInv_of_resting rfl (fun _ => rfl) (by simp [Node.reset]) (by simp [Node.reset])

theorem Node.reset_inv : Node.reset.Inv where
  assembly := Node.reset_assemblyInv
  controller := Node.reset_controllerInv
  csI_le := Nat.zero_le 4
  pbI_le := Nat.zero_le 4
  ctx_main := rfl
  sla_ne := Config.sla_ne_zero

theorem State.reset_inv : State.reset.Inv := ⟨Node.reset_inv, Node.reset_inv⟩

/-- No event is latched before Link Configuration (R27). -/
theorem State.reset_noTimeoutLatched : State.reset.NoTimeoutLatched := by
  intro n
  have hevt : Node.reset.pEvt = none := rfl
  simp [hevt]

/-- The wire is empty and nobody owns the bus. -/
theorem State.reset_balanced : State.reset.Balanced := by
  have hwire : State.reset.wire = [] := rfl
  rw [State.Balanced, hwire, State.owned_reset, List.count_nil, List.count_nil]

end Sys2Proof.Machine

namespace Sys2Proof.Proofs

open Sys2Proof Sys2Proof.Machine

/-- Settles O1: the registers' values are read off `Node.reset`, which both nodes are. -/
theorem resetIsTheLaunchState : Obligations.ResetIsTheLaunchState :=
  ⟨rfl, rfl, rfl, rfl, rfl, rfl, rfl, rfl, rfl, rfl, rfl, rfl, rfl, rfl, rfl, rfl, rfl⟩

/-- Settles O2: both nodes rest with an empty assembly, no event is latched and the wire is empty. -/
theorem resetMeetsTheInvariant : Obligations.ResetMeetsTheInvariant :=
  ⟨State.reset_inv, State.reset_noTimeoutLatched, State.reset_balanced⟩

end Sys2Proof.Proofs
end
